-- ==== Sys2Proof/Cosine.lean ====
section
/-! DEFINITION. On which side of a rational number the cosine of a rational multiple of π lies (46_iq_modulator.md
rule R144, 47_quantizer_ring.md rule R148, over the exact reals of 00_scope.md rule R10), with the proof that it
is told right (log 6). -/

namespace Sys2Proof

/-- The doubling `cos 2x = 2 cos² x - 1`, `n` times. -/
def doubled : Nat → Rat → Rat
  | 0, c => c
  | n + 1, c => doubled n (2 * c * c - 1)

theorem doubled_near (n : Nat) : ∀ (z : ℝ) (c : Rat), |(c : ℝ)| ≤ 1 →
    |Real.cos (2 ^ n * z) - (doubled n c : ℝ)| ≤ 4 ^ n * |Real.cos z - (c : ℝ)| := by
  induction n with
  | zero => intro z c _; simp [doubled]
  | succ n ih =>
    intro z c hc
    have h0 : ((2 * c * c - 1 : Rat) : ℝ) = 2 * (c : ℝ) * c - 1 := by push_cast; ring
    have hc2 := abs_le.mp hc
    have h1 : |((2 * c * c - 1 : Rat) : ℝ)| ≤ 1 := by
      rw [h0, abs_le]
      constructor <;> nlinarith [hc2.1, hc2.2, mul_self_nonneg (c : ℝ)]
    have h2 := ih (2 * z) _ h1
    rw [show (2 : ℝ) ^ n * (2 * z) = 2 ^ (n + 1) * z by ring] at h2
    refine h2.trans ?_
    rw [h0, Real.cos_two_mul]
    have h3 : 2 * Real.cos z ^ 2 - 1 - (2 * (c : ℝ) * c - 1)
        = 2 * (Real.cos z + c) * (Real.cos z - c) := by ring
    rw [h3, abs_mul]
    have h4 : |2 * (Real.cos z + (c : ℝ))| ≤ 4 := by
      have := abs_le.mp (Real.abs_cos_le_one z)
      rw [abs_le]
      constructor <;> linarith [this.1, this.2, hc2.1, hc2.2]
    have h5 : (0 : ℝ) ≤ 4 ^ n := by positivity
    have h6 := mul_le_mul_of_nonneg_right h4 (abs_nonneg (Real.cos z - (c : ℝ)))
    calc (4 : ℝ) ^ n * (|2 * (Real.cos z + (c : ℝ))| * |Real.cos z - (c : ℝ)|)
        ≤ 4 ^ n * (4 * |Real.cos z - (c : ℝ)|) := mul_le_mul_of_nonneg_left h6 h5
      _ = 4 ^ (n + 1) * |Real.cos z - (c : ℝ)| := by ring

/-- A rational near cos y, where |y| is at most 2^n. -/
def cosNear (n : Nat) (y : Rat) : Rat := doubled n (1 - (y / 2 ^ n) ^ 2 / 2)

theorem cosNear_near (n : Nat) (y : Rat) (h : |(y : ℝ)| ≤ 2 ^ n) :
    |Real.cos y - (cosNear n y : ℝ)| ≤ (y : ℝ) ^ 4 / 4 ^ n := by
  have hp : (0 : ℝ) < 2 ^ n := by positivity
  have hz : |(y : ℝ) / 2 ^ n| ≤ 1 := by
    rw [abs_div, abs_of_pos hp, div_le_one hp]; exact h
  have hb := Real.cos_bound hz
  have hzz := abs_le.mp hz
  have hcast : (((1 - (y / 2 ^ n) ^ 2 / 2 : Rat)) : ℝ) = 1 - ((y : ℝ) / 2 ^ n) ^ 2 / 2 := by push_cast; ring
  have hc : |((1 - (y / 2 ^ n) ^ 2 / 2 : Rat) : ℝ)| ≤ 1 := by
    rw [hcast, abs_le]
    constructor <;> nlinarith [hzz.1, hzz.2, sq_nonneg ((y : ℝ) / 2 ^ n)]
  have h1 := doubled_near n ((y : ℝ) / 2 ^ n) _ hc
  rw [show (2 : ℝ) ^ n * (y / 2 ^ n) = y by field_simp] at h1
  refine h1.trans ?_
  rw [hcast]
  have h5 : (0 : ℝ) ≤ 4 ^ n := by positivity
  refine (mul_le_mul_of_nonneg_left hb h5).trans ?_
  rw [abs_div, abs_of_pos hp, div_pow, show |(y : ℝ)| ^ 4 = (y : ℝ) ^ 4 by rw [← abs_pow]; exact abs_of_nonneg (by positivity)]
  have h44 : ((2 : ℝ) ^ n) ^ 4 = 4 ^ n * 4 ^ n := by
    rw [← pow_mul, ← mul_pow, show (4 : ℝ) * 4 = 2 ^ 4 by norm_num, ← pow_mul]; ring_nf
  rw [h44]
  have hq : (0 : ℝ) < 4 ^ n := by positivity
  have hy : (0 : ℝ) ≤ (y : ℝ) ^ 4 := by positivity
  rw [show (4 : ℝ) ^ n * ((y : ℝ) ^ 4 / (4 ^ n * 4 ^ n) * (5 / 96)) = (y : ℝ) ^ 4 / 4 ^ n * (5 / 96) by field_simp]
  have : 0 ≤ (y : ℝ) ^ 4 / 4 ^ n := by positivity
  linarith

/-- Four times the sum of the first `2 n` terms of Leibniz's series for π/4. -/
def piBelow (n : Nat) : Rat := 4 * ∑ i ∈ Finset.range (2 * n), (-1) ^ i / (2 * (i : Rat) + 1)

theorem piBelow_near (n : Nat) : (piBelow n : ℝ) ≤ Real.pi ∧ Real.pi ≤ piBelow n + 4 / (n + 1) := by
  have ha : Antitone (fun i : Nat => 1 / (2 * (i : ℝ) + 1)) := by
    intro a b h
    have : (a : ℝ) ≤ b := by exact_mod_cast h
    apply one_div_le_one_div_of_le <;> [positivity; linarith]
  have hs : ∀ k : Nat, ∑ i ∈ Finset.range k, (-1 : ℝ) ^ i / (2 * (i : ℝ) + 1)
      = ∑ i ∈ Finset.range k, (-1 : ℝ) ^ i * (1 / (2 * (i : ℝ) + 1)) := by
    intro k
    exact Finset.sum_congr rfl (fun i _ => by rw [mul_one_div])
  have ht := Real.tendsto_sum_pi_div_four
  simp only [hs] at ht
  have h1 := ha.alternating_series_le_tendsto ht n
  have h2 := ha.tendsto_le_alternating_series ht n
  have hc : (piBelow n : ℝ) = 4 * ∑ i ∈ Finset.range (2 * n), (-1 : ℝ) ^ i * (1 / (2 * (i : ℝ) + 1)) := by
    rw [← hs]
    unfold piBelow
    push_cast
    rfl
  rw [Finset.sum_range_succ, pow_mul] at h2
  rw [hc]
  refine ⟨by linarith, ?_⟩
  have h3 : (1 : ℝ) / (2 * ((2 * n : Nat) : ℝ) + 1) ≤ 1 / (n + 1) := by
    apply one_div_le_one_div_of_le
    · positivity
    · push_cast; linarith [Nat.cast_nonneg (α := ℝ) n]
  norm_num at h2 h3 ⊢
  have h4 : (4 : ℝ) / (n + 1) = 4 * (1 / (n + 1)) := by ring
  rw [h4]
  norm_num
  linarith

/-- A rational near cos (r π). -/
def cosTry (r : Rat) (n : Nat) : Rat := cosNear n (r * piBelow n)

/-- How far from it that may be. -/
def cosErr (r : Rat) (n : Nat) : Rat := (4 * |r| + (4 * |r|) ^ 4) / (n + 1)

theorem four_pow_ge (n : Nat) : ((n : ℝ) + 1) ≤ 4 ^ n := by
  have : n + 1 ≤ 4 ^ n := (Nat.lt_two_pow_self (n := n)).trans_le (Nat.pow_le_pow_left (by norm_num) n)
  exact_mod_cast this

theorem cosTry_near (r : Rat) (n : Nat) (h : 4 * |r| ≤ n) :
    |Real.cos (r * Real.pi) - (cosTry r n : ℝ)| ≤ (cosErr r n : ℝ) := by
  obtain ⟨h1, h2⟩ := piBelow_near n
  have hn0 : (0 : ℝ) ≤ n := Nat.cast_nonneg n
  have hp4 : (4 : ℝ) / (n + 1) ≤ 4 := by
    rw [div_le_iff₀ (by linarith)]; linarith
  have hpi := Real.pi_gt_three
  have hpi4 := Real.pi_le_four
  have hpn : |(piBelow n : ℝ)| ≤ 4 := by rw [abs_le]; constructor <;> linarith
  have hy : |((r * piBelow n : Rat) : ℝ)| ≤ 4 * |(r : ℝ)| := by
    push_cast
    rw [abs_mul, mul_comm]
    exact mul_le_mul_of_nonneg_right hpn (abs_nonneg _)
  have hr : (4 : ℝ) * |(r : ℝ)| ≤ n := by exact_mod_cast h
  have hn : (n : ℝ) ≤ 2 ^ n := by exact_mod_cast (Nat.lt_two_pow_self (n := n)).le
  have hc := cosNear_near n (r * piBelow n) (hy.trans (hr.trans hn))
  have hd : |Real.cos (r * Real.pi) - Real.cos ((r * piBelow n : Rat) : ℝ)| ≤ 4 * |(r : ℝ)| / (n + 1) := by
    refine (Real.abs_cos_sub_cos_le _ _).trans ?_
    push_cast
    rw [← mul_sub, abs_mul, abs_of_nonneg (by linarith : (0 : ℝ) ≤ Real.pi - piBelow n)]
    rw [show 4 * |(r : ℝ)| / (n + 1) = |(r : ℝ)| * (4 / (n + 1)) by ring]
    exact mul_le_mul_of_nonneg_left (by linarith) (abs_nonneg _)
  have he : ((r * piBelow n : Rat) : ℝ) ^ 4 / 4 ^ n ≤ (4 * |(r : ℝ)|) ^ 4 / (n + 1) := by
    have h5 : ((r * piBelow n : Rat) : ℝ) ^ 4 ≤ (4 * |(r : ℝ)|) ^ 4 := by
      rw [← abs_of_nonneg (by positivity : 0 ≤ ((r * piBelow n : Rat) : ℝ) ^ 4), abs_pow]
      exact pow_le_pow_left₀ (abs_nonneg _) hy 4
    exact div_le_div₀ (by positivity) h5 (by linarith) (four_pow_ge n)
  have ht := abs_sub_le (Real.cos (r * Real.pi)) (Real.cos ((r * piBelow n : Rat) : ℝ)) (cosTry r n : ℝ)
  have hf : (cosErr r n : ℝ) = 4 * |(r : ℝ)| / (n + 1) + (4 * |(r : ℝ)|) ^ 4 / (n + 1) := by
    unfold cosErr
    push_cast
    rw [add_div]
  rw [hf]
  unfold cosTry at *
  linarith

/-- The try that tells on which side of `c` the cosine is. -/
abbrev cosTells (r c : Rat) (n : Nat) : Prop :=
  4 * |r| ≤ n ∧ (cosTry r n + cosErr r n < c ∨ c < cosTry r n - cosErr r n)

theorem exists_cosTells (r c : Rat) (h : Real.cos (r * Real.pi) ≠ c) : ∃ n, cosTells r c n := by
  have hd : 0 < |Real.cos (r * Real.pi) - (c : ℝ)| := abs_pos.mpr (sub_ne_zero.mpr h)
  obtain ⟨n, hn⟩ := exists_nat_gt (4 * |(r : ℝ)|
    + 2 * (4 * |(r : ℝ)| + (4 * |(r : ℝ)|) ^ 4) / |Real.cos (r * Real.pi) - (c : ℝ)|)
  have hk : 0 ≤ 4 * |(r : ℝ)| + (4 * |(r : ℝ)|) ^ 4 := by positivity
  have hr : (4 : ℝ) * |(r : ℝ)| ≤ n := by
    have : 0 ≤ 2 * (4 * |(r : ℝ)| + (4 * |(r : ℝ)|) ^ 4) / |Real.cos (r * Real.pi) - (c : ℝ)| := by positivity
    linarith
  have hr' : 4 * |r| ≤ n := by exact_mod_cast hr
  have hnear := abs_le.mp (cosTry_near r n hr')
  have he : 2 * (cosErr r n : ℝ) < |Real.cos (r * Real.pi) - (c : ℝ)| := by
    have h1 : 2 * (4 * |(r : ℝ)| + (4 * |(r : ℝ)|) ^ 4) / |Real.cos (r * Real.pi) - (c : ℝ)| < n + 1 := by
      have : 0 ≤ 4 * |(r : ℝ)| := by positivity
      linarith
    rw [div_lt_iff₀ hd] at h1
    unfold cosErr
    push_cast
    rw [← mul_div_assoc, div_lt_iff₀ (by positivity)]
    linarith
  refine ⟨n, hr', ?_⟩
  rcases lt_or_gt_of_ne h with hl | hl
  · left
    rw [abs_of_neg (by linarith)] at he
    have : ((cosTry r n + cosErr r n : Rat) : ℝ) < c := by push_cast; linarith [hnear.1]
    exact_mod_cast this
  · right
    rw [abs_of_pos (by linarith)] at he
    have : (c : ℝ) < ((cosTry r n - cosErr r n : Rat) : ℝ) := by push_cast; linarith [hnear.2]
    exact_mod_cast this

/-- The angle in [0, π], in units of π, of each rational cosine of a rational angle (Niven). -/
def arcOf (c : Rat) : Option Rat :=
  if c = 1 then some 0
  else if c = 1 / 2 then some (1 / 3)
  else if c = 0 then some (1 / 2)
  else if c = -1 / 2 then some (2 / 3)
  else if c = -1 then some 1
  else none

/-- Is cos (r π) the number `c`? -/
def cosIs (r c : Rat) : Bool :=
  match arcOf c with
  | none => false
  | some s => decide (((r - s) / 2).den = 1) || decide (((r + s) / 2).den = 1)

theorem cos_eq_cos_rat (r s : Rat) :
    Real.cos (r * Real.pi) = Real.cos (s * Real.pi) ↔ ((r - s) / 2).den = 1 ∨ ((r + s) / 2).den = 1 := by
  have hpi := Real.pi_ne_zero
  have key : ∀ q : Rat, q.den = 1 ↔ ∃ k : ℤ, (q : ℝ) = k := by
    intro q
    constructor
    · intro h
      exact ⟨q.num, by rw [← Rat.num_div_den q, h]; simp⟩
    · rintro ⟨k, hk⟩
      have : q = (k : Rat) := by exact_mod_cast hk
      rw [this]; rfl
  rw [key, key, Real.cos_eq_cos_iff]
  constructor
  · rintro ⟨k, h | h⟩
    · left
      refine ⟨-k, ?_⟩
      push_cast
      have : (s : ℝ) = 2 * k + r := by
        apply mul_right_cancel₀ hpi; linarith
      linarith
    · right
      refine ⟨k, ?_⟩
      push_cast
      have : (s : ℝ) = 2 * k - r := by
        apply mul_right_cancel₀ hpi; linarith
      linarith
  · rintro (⟨k, h⟩ | ⟨k, h⟩)
    · refine ⟨-k, .inl ?_⟩
      push_cast at h ⊢
      have : (s : ℝ) = r - 2 * k := by linarith
      rw [this]; ring
    · refine ⟨k, .inr ?_⟩
      push_cast at h ⊢
      have : (s : ℝ) = 2 * k - r := by linarith
      rw [this]; ring

theorem arcOf_cos {c s : Rat} (h : arcOf c = some s) : Real.cos (s * Real.pi) = c := by
  unfold arcOf at h
  have h23 : Real.cos (2 / 3 * Real.pi) = -1 / 2 := by
    rw [show 2 / 3 * Real.pi = Real.pi - Real.pi / 3 by ring, Real.cos_pi_sub, Real.cos_pi_div_three]; norm_num
  split at h
  · next hc => cases h; subst hc; simp
  split at h
  · next hc => cases h; subst hc; push_cast; rw [show (1 / 3 : ℝ) * Real.pi = Real.pi / 3 by ring, Real.cos_pi_div_three]
  split at h
  · next hc => cases h; subst hc; push_cast; rw [show (1 / 2 : ℝ) * Real.pi = Real.pi / 2 by ring, Real.cos_pi_div_two]
  split at h
  · next hc => cases h; subst hc; push_cast; rw [h23]
  split at h
  · next hc => cases h; subst hc; simp
  · cases h

theorem cosIs_iff (r c : Rat) : cosIs r c = true ↔ Real.cos (r * Real.pi) = c := by
  unfold cosIs
  split
  · next hn =>
    refine ⟨fun h => (by cases h), fun h => ?_⟩
    have := niven (θ := r * Real.pi) ⟨r, rfl⟩ ⟨c, h⟩
    rw [h] at this
    exfalso
    unfold arcOf at hn
    simp only [Set.mem_insert_iff, Set.mem_singleton_iff] at this
    have h5 : c = -1 ∨ c = -1 / 2 ∨ c = 0 ∨ c = 1 / 2 ∨ c = 1 := by
      rcases this with h | h | h | h | h
      · exact .inl (by exact_mod_cast h)
      · refine .inr (.inl ?_); have h' : (c : ℝ) = ((-1 / 2 : Rat) : ℝ) := by push_cast; linarith
        exact_mod_cast h'
      · exact .inr (.inr (.inl (by exact_mod_cast h)))
      · refine .inr (.inr (.inr (.inl ?_))); have h' : (c : ℝ) = ((1 / 2 : Rat) : ℝ) := by push_cast; linarith
        exact_mod_cast h'
      · exact .inr (.inr (.inr (.inr (by exact_mod_cast h))))
    rcases h5 with rfl | rfl | rfl | rfl | rfl <;> norm_num at hn <;> cases hn
  · next s hs =>
    rw [← arcOf_cos hs, cos_eq_cos_rat]
    simp

/-- On which side of `c` the cosine of r π is: equality by Niven's theorem, else by closer and closer tries. -/
def cosCmp (r c : Rat) : Ordering :=
  if h : cosIs r c = true then .eq
  else if cosTry r (Nat.find (exists_cosTells r c (fun e => h ((cosIs_iff r c).mpr e)))) < c then .lt
  else .gt

/-- `cosCmp` tells the truth. -/
theorem cosCmp_spec (r c : Rat) :
    (cosCmp r c = .lt ↔ Real.cos (r * Real.pi) < c) ∧ (cosCmp r c = .gt ↔ (c : ℝ) < Real.cos (r * Real.pi)) := by
  unfold cosCmp
  split
  · next h => simp [(cosIs_iff r c).mp h]
  · next h =>
    have hne : Real.cos (r * Real.pi) ≠ c := fun e => h ((cosIs_iff r c).mpr e)
    obtain ⟨hn, htell⟩ := Nat.find_spec (exists_cosTells r c hne)
    generalize Nat.find (exists_cosTells r c hne) = n at *
    have hnear := abs_le.mp (cosTry_near r n hn)
    have h0 : (0 : Rat) ≤ cosErr r n := by unfold cosErr; positivity
    have h0' : (0 : ℝ) ≤ (cosErr r n : ℝ) := by exact_mod_cast h0
    rcases htell with ht | ht
    · have h1 : cosTry r n < c := by linarith
      have h2 : (cosTry r n : ℝ) + cosErr r n < c := by exact_mod_cast ht
      have h3 : Real.cos (r * Real.pi) < c := by linarith [hnear.2]
      simp [h1, h3, h3.le]
    · have h1 : ¬ cosTry r n < c := by linarith
      have h2 : (c : ℝ) < (cosTry r n : ℝ) - cosErr r n := by exact_mod_cast ht
      have h3 : (c : ℝ) < Real.cos (r * Real.pi) := by linarith [hnear.1]
      simp [h1, h3, h3.le]

end Sys2Proof
end

