-- ==== Sys2Proof/Word.lean ====
section
/-! DEFINITION. The word and byte types of 00_scope.md rule R9 and the constants of rule R5. -/

namespace Sys2Proof

/-- R9: a word is a 32-bit unsigned value, bit 0 the least significant. -/
abbrev Word := BitVec 32

/-- R9: a byte is 8 bits. -/
abbrev Byte := BitVec 8

/-- R5 `SYNC_CW`. -/
def syncCw : Word := 0x7CD215D8#32

/-- R5 `IDLE_CW`. -/
def idleCw : Word := 0x7A89C197#32

/-- R5 `BCH_GEN`: the pattern 0x769 aligned to bit 31. -/
def bchGen : Word := 0xED200000#32

/-- R5 `PREAMBLE_LEN`. -/
def preambleLen : Nat := 72

/-- R5 `PREAMBLE_BYTE`. -/
def preambleByte : Byte := 0xAA#8

/-- R5 `FRAMES_PER_BATCH`. -/
def framesPerBatch : Nat := 8

/-- R5 `CW_PER_FRAME`. -/
def cwPerFrame : Nat := 2

/-- R5 `DATA_BITS`. -/
def dataBits : Nat := 20

/-- R5 `BATCH_DATA_BITS`. -/
def batchDataBits : Nat := 320

/-- R5 `RIC_MAX`. -/
def ricMax : Nat := 2097151

/-- R5 `BUF_LEN`: samples of one interpolated sub-chunk, and bytes of one publication. -/
def bufLen : Nat := 262144

/-- R5 `BUF_NUM`: ring slots. -/
def bufNum : Nat := 256

/-- R5 `SLOT_CAP`: bytes a ring slot can hold. -/
def slotCap : Nat := 524288

/-- R5 `BB_FILTER_HZ`. -/
def bbFilterHz : Nat := 1750000

end Sys2Proof
end

