-- ==== Sys2Proof/Syntax.lean ====
section
/-! DEFINITION. The operations of 30_encoding.md rule R62 and the four codeword kinds of rule R76, one
constructor per row of spec/opcode_table.json, with their operands. -/

namespace Sys2Proof

/-- R110: the message type. -/
inductive MsgType where
  | tone | numeric | alphanumeric
  deriving DecidableEq, Repr

/-- R110: the bit rate. -/
inductive Bps where
  | b512 | b1200 | b2400
  deriving DecidableEq, Repr

/-- R110: the charset. -/
inductive Charset where
  | raw | latin | cyrillic
  deriving DecidableEq, Repr

/-- A real number of the sample datapath (R10, D5), as plain data (log 4): a rational, any real number under a
name `k` (its value, `Config.namedReal k`, is nowhere chosen), or what the rules compute from such numbers: a sum, a
product, a clamp to [-1, 1] (R141), a wrap to (-1/2, 1/2] turns (R143). -/
inductive RealNum where
  | rat (q : Rat)
  | named (k : Nat)
  | add (a b : RealNum)
  | mul (a b : RealNum)
  | clip (a : RealNum)
  | wrap (a : RealNum)
  deriving DecidableEq, Repr, Inhabited

/-- An IQ value (R29): a real number, or the sine or cosine of a real number of turns (1 turn is 2π), which is
what R142 and R144 produce (log 5; safe: exact). -/
inductive RealVal where
  | num (v : RealNum)
  | sinTurns (t : RealNum)
  | cosTurns (t : RealNum)
  deriving DecidableEq, Repr, Inhabited

/-- R24: a PCM chunk, of real samples. -/
structure Chunk where
  samples : List RealNum
  pcmRate : Nat
  deriving DecidableEq, Repr

/-- R175: the registers SETCFG can write. -/
inductive CfgReg where
  | localGain | subChunkSamples | fmDeviationKHz | am | turnOffTxWhenIdle
  | frequency | gain | amp | fskSampleRate | maxBatches
  deriving DecidableEq, Repr

/-- R175: a register together with a value of its type. -/
inductive CfgWrite where
  | localGain (v : RealNum)
  | subChunkSamples (v : Int)
  | fmDeviationKHz (v : RealNum)
  | am (v : Bool)
  | turnOffTxWhenIdle (v : Bool)
  | frequency (hz : BitVec 64)
  | gain (v : RealNum)
  | amp (v : Bool)
  | fskSampleRate (v : Int)
  | maxBatches (v : Int)
  deriving DecidableEq, Repr

/-- The register a configuration write names. -/
def CfgWrite.reg : CfgWrite → CfgReg
  | .localGain _ => .localGain
  | .subChunkSamples _ => .subChunkSamples
  | .fmDeviationKHz _ => .fmDeviationKHz
  | .am _ => .am
  | .turnOffTxWhenIdle _ => .turnOffTxWhenIdle
  | .frequency _ => .frequency
  | .gain _ => .gain
  | .amp _ => .amp
  | .fskSampleRate _ => .fskSampleRate
  | .maxBatches _ => .maxBatches

/-- One constructor per row of spec/opcode_table.json. -/
inductive Instr where
  /-- R63, R105: the sync codeword. -/
  | sync
  /-- R63, R104: the idle codeword. -/
  | idle
  /-- R65: a message codeword; `type` (bit 31) is 1. -/
  | message (data : BitVec 20) (bch : BitVec 10) (parity : BitVec 1)
  /-- R64: an address codeword; `type` (bit 31) is 0. -/
  | address (addr : BitVec 18) (function : BitVec 2) (bch : BitVec 10) (parity : BitVec 1)
  /-- R80. -/
  | revbits (x : Word) (n : Nat)
  /-- R82. -/
  | bchrem (w : Word)
  /-- R83. -/
  | parity (v : Word)
  /-- R84. -/
  | sign (w : Word)
  /-- R86. -/
  | emit32le (buf : List Byte) (w : Word)
  /-- R87. -/
  | read32le (buf : List Byte) (a : Nat)
  /-- R90. -/
  | recodeRaw (text : List Byte)
  /-- R91. -/
  | recodeLatin (text : List Byte)
  /-- R92. -/
  | recodeCyr (text : List Byte)
  /-- R95. -/
  | buildNum (msg : List Byte)
  /-- R96. -/
  | buildAlpha (msg : List Byte)
  /-- R100. -/
  | mkaddr (ric : BitVec 21) (function : BitVec 2)
  /-- R102. -/
  | mkmsg (mbuf : List Bool) (offset : Nat) (maxBits : Nat) (numeric : Bool)
  /-- R104. -/
  | mkidle
  /-- R105. -/
  | mksync
  /-- R110. -/
  | encode (address : Nat) (type : MsgType) (text : List Byte) (bps : Bps) (charset : Charset)
      (function : BitVec 2) (rawOnly : Bool)
  /-- R120. -/
  | fskmod (framed : List Byte) (bps : Bps)
  /-- R130. -/
  | interp
  /-- R140. -/
  | modiq
  /-- R148. -/
  | quant (v : RealVal)
  /-- R150. -/
  | publish (h : Fin 2)
  /-- R152; the operand `dst` is the device's buffer, the memory DST (log 26). -/
  | drain (len : Word)
  /-- R160. -/
  | push (c : Chunk)
  /-- R161. -/
  | adopt
  /-- R162. -/
  | prepare
  /-- R166. -/
  | process
  /-- R170. -/
  | start
  /-- R172. -/
  | stop
  /-- R175. -/
  | setcfg (w : CfgWrite)
  /-- R176. -/
  | isidle
  /-- R177; the duration is an operand that no rule reads (D30). -/
  | waitend (timeout : Nat)
  /-- R178. -/
  | waitidle (timeout : Nat)
  deriving DecidableEq, Repr

end Sys2Proof
end

