-- ==== Sys2Proof/Reals.lean ====
section
/-! DEFINITION. The real numbers that `RealNum` and `RealVal` stand for (00_scope.md rule R10, 92_eei_decisions.md
D5, D26), and what it takes to compare them with rationals (log 4). -/

namespace Sys2Proof

/-- The real number of a `RealNum`, where the name `k` stands for `names k`. -/
noncomputable def RealNum.value (names : Nat → ℝ) : RealNum → ℝ
  | .rat q => (q : ℝ)
  | .named k => names k
  | .add a b => a.value names + b.value names
  | .mul a b => a.value names * b.value names
  | .clip a => max (-1) (min 1 (a.value names))
  | .wrap a => a.value names + (⌊1 / 2 - a.value names⌋ : ℝ)

/-- The real number of an IQ value, where the name `k` stands for `names k`. -/
noncomputable def RealVal.value (names : Nat → ℝ) : RealVal → ℝ
  | .num v => v.value names
  | .sinTurns t => Real.sin (2 * Real.pi * t.value names)
  | .cosTurns t => Real.cos (2 * Real.pi * t.value names)

/-- On which side of `c` a rational is. -/
def ratCmp (q c : Rat) : Ordering := if q < c then .lt else if c < q then .gt else .eq

/-! ### One way to compare, with every name standing for 0 -/

/-- The number that a `RealNum` is where every name stands for 0. -/
def RealNum.atZero : RealNum → Rat
  | .rat q => q
  | .named _ => 0
  | .add a b => a.atZero + b.atZero
  | .mul a b => a.atZero * b.atZero
  | .clip a => max (-1) (min 1 a.atZero)
  | .wrap a => a.atZero + ((1 / 2 - a.atZero).floor : Rat)

/-- The side of `c` that an IQ value is on where every name stands for 0. -/
def RealVal.cmpAtZero : RealVal → Rat → Ordering
  | .num v, c => ratCmp v.atZero c
  | .sinTurns t, c => cosCmp (2 * t.atZero - 1 / 2) c
  | .cosTurns t, c => cosCmp (2 * t.atZero) c

theorem RealNum.atZero_value (v : RealNum) : v.value (fun _ => 0) = (v.atZero : ℝ) := by
  induction v with
  | rat q => rfl
  | named k => simp [RealNum.value, RealNum.atZero]
  | add a b iha ihb => simp [RealNum.value, RealNum.atZero, iha, ihb]
  | mul a b iha ihb => simp [RealNum.value, RealNum.atZero, iha, ihb]
  | clip a ih => simp [RealNum.value, RealNum.atZero, ih]
  | wrap a ih =>
    have h : ((1 / 2 : ℝ) - (a.atZero : ℝ)) = ((1 / 2 - a.atZero : Rat) : ℝ) := by push_cast; ring
    simp only [RealNum.value, RealNum.atZero, ih, h, Rat.floor_cast]
    push_cast
    rfl

theorem ratCmp_spec (q c : Rat) :
    (ratCmp q c = .lt ↔ (q : ℝ) < c) ∧ (ratCmp q c = .gt ↔ (c : ℝ) < q) := by
  unfold ratCmp
  rcases lt_trichotomy q c with h | rfl | h
  · have : (q : ℝ) < c := by exact_mod_cast h
    simp [h, h.le, this]
  · simp
  · have : (c : ℝ) < q := by exact_mod_cast h
    simp [h, h.le, this]

/-- `cosCmp` on an angle in turns. -/
theorem cosCmp_cosTurns (t c : Rat) :
    (cosCmp (2 * t) c = .lt ↔ Real.cos (2 * Real.pi * t) < c) ∧
      (cosCmp (2 * t) c = .gt ↔ (c : ℝ) < Real.cos (2 * Real.pi * t)) := by
  have h := cosCmp_spec (2 * t) c
  rwa [show ((2 * t : Rat) : ℝ) * Real.pi = 2 * Real.pi * t by push_cast; ring] at h

/-- `cosCmp` on the sine of an angle in turns. -/
theorem cosCmp_sinTurns (t c : Rat) :
    (cosCmp (2 * t - 1 / 2) c = .lt ↔ Real.sin (2 * Real.pi * t) < c) ∧
      (cosCmp (2 * t - 1 / 2) c = .gt ↔ (c : ℝ) < Real.sin (2 * Real.pi * t)) := by
  have h := cosCmp_spec (2 * t - 1 / 2) c
  rwa [show ((2 * t - 1 / 2 : Rat) : ℝ) * Real.pi = 2 * Real.pi * t - Real.pi / 2 by push_cast; ring,
    Real.cos_sub_pi_div_two] at h

/-- The comparisons `cmp` are right where the name `k` stands for `names k`. -/
def ComparesAs (cmp : RealVal → Rat → Ordering) (names : Nat → ℝ) : Prop :=
  ∀ (v : RealVal) (c : Rat), (cmp v c = .lt ↔ v.value names < c) ∧ (cmp v c = .gt ↔ (c : ℝ) < v.value names)

theorem RealVal.cmpAtZero_right : ComparesAs RealVal.cmpAtZero (fun _ => 0) := by
  intro v c
  cases v with
  | num v =>
    simp only [RealVal.value, RealVal.cmpAtZero, RealNum.atZero_value]
    exact ratCmp_spec _ _
  | sinTurns t =>
    simp only [RealVal.value, RealVal.cmpAtZero, RealNum.atZero_value]
    exact cosCmp_sinTurns _ _
  | cosTurns t =>
    simp only [RealVal.value, RealVal.cmpAtZero, RealNum.atZero_value]
    exact cosCmp_cosTurns _ _

/-- What the machine must be told of the real numbers to run on any of them: on which side of each rational each
one is, told right for some meaning of the names. Which meaning is left open: every one has a `Reals` (log 4). -/
structure Reals where
  told : { cmp : RealVal → Rat → Ordering // ∃ names, ComparesAs cmp names } :=
    ⟨RealVal.cmpAtZero, _, RealVal.cmpAtZero_right⟩
  deriving Inhabited

/-- On which side of `c` a real number is. -/
def Reals.cmp (r : Reals) (v : RealVal) (c : Rat) : Ordering := r.told.val v c

/-- What the names stand for. -/
noncomputable def Reals.names (r : Reals) : Nat → ℝ := Classical.choose r.told.property

theorem Reals.cmp_right (r : Reals) : ComparesAs r.cmp r.names := Classical.choose_spec r.told.property

end Sys2Proof
end

