-- ==== Sys2Proof/Config.lean ====
section
/-! DEFINITION. What the spec leaves open (00_scope.md rule R7) and what it calls any value: constants
with no body, so that a claim holds for every value of them. -/

namespace Sys2Proof

/-- `FSK_AMPLITUDE` less one: R7, D10 (log 21; safe). -/
opaque Config.fskAmplitudePred : Fin 32767

/-- `FSK_AMPLITUDE`, 1 to 32767: R7, D10. -/
def Config.fskAmplitude : Nat := Config.fskAmplitudePred.val + 1

/-- `FSK_ONE_IS_POSITIVE`: R7, D11 (log 21; safe). -/
opaque Config.fskOneIsPositive : Bool

/-- R154: a byte of a ring slot that no rule ever wrote, as a long DRAIN copies it out: any value, a
fresh draw for each index (log 10; safe). -/
opaque Config.freeByte : Nat → Byte

/-- R196: the answer DEV gives to a command where the state lists none, one draw for each index
(log 11; safe). -/
opaque Config.devAnswer : Nat → Bool

/-- R147: the phase step of MODIQ, in turns, where `deviceSampleRate` is 0 and the rule divides by zero: any
value (log 19; safe). The argument is `fmDeviationKHz`. -/
opaque Config.stepAtRateZero : RealNum → RealNum

/-! ### Real numbers (log 4; safe) -/

/-- D5, D26: which real numbers the names of `RealNum` stand for, as the comparisons of every real with every
rational: any that are right. -/
opaque Config.reals : Reals

/-- The real number under a name: any real. -/
noncomputable def Config.namedReal (k : Nat) : ℝ := Config.reals.names k

/-- The real number of a `RealNum`. -/
noncomputable def RealNum.real (v : RealNum) : ℝ := v.value Config.namedReal

/-- The real number of an IQ value. -/
noncomputable def RealVal.real (v : RealVal) : ℝ := v.value Config.namedReal

/-! ### The finite numerics of D5: nothing is known of them (log 33; safe). The first argument is the number
of the numerics; what it computes are the numbers of a finite format, which are rational. -/

/-- The product of two numbers. -/
opaque Config.finiteMul : Nat → RealNum → RealNum → Rat

/-- R131, R132: sample `j` of `len` interpolated samples, from the tail sample and the inputs, where `j` is not
the last. -/
opaque Config.finiteInterp : Nat → Nat → RealNum → List RealNum → Nat → Rat

/-- R143, R147: the phase, in turns, after an update, from `fmDeviationKHz`, `deviceSampleRate`, the phase
before it and the clipped sample. -/
opaque Config.finitePhase : Nat → RealNum → Word → RealNum → RealNum → Rat

/-- R144: the sine of a phase in turns. -/
opaque Config.finiteSin : Nat → RealNum → Rat

/-- R144: the cosine of a phase in turns. -/
opaque Config.finiteCos : Nat → RealNum → Rat

end Sys2Proof
end

