-- ==== Sys2Proof/WellFormed.lean ====
section
/-! DEFINITION. Which operations with their operands are well-formed: the operand ranges of
spec/opcode_table.json and of the operations' own rules that the types do not already say. -/

namespace Sys2Proof

/-- R64: the 32-bit word of an address codeword with these fields. -/
def addressWord (addr : BitVec 18) (function : BitVec 2) (bch : BitVec 10) (parity : BitVec 1) : Word :=
  0#1 ++ addr ++ function ++ bch ++ parity

/-- R65: the 32-bit word of a message codeword with these fields. -/
def messageWord (data : BitVec 20) (bch : BitVec 10) (parity : BitVec 1) : Word :=
  1#1 ++ data ++ bch ++ parity

/-- A number that an operation can be issued with: a rational, or any real under its name (log 4). Sums, products
and the like are what operations compute. -/
def RealNum.isOperand : RealNum → Bool
  | .rat _ => true
  | .named _ => true
  | .add _ _ => false
  | .mul _ _ => false
  | .clip _ => false
  | .wrap _ => false

/-- `RealNum.isOperand` for the operand of QUANT. -/
def RealVal.isOperand : RealVal → Bool
  | .num v => v.isOperand
  | .sinTurns t => t.isOperand
  | .cosTurns t => t.isOperand

/-- `RealNum.isOperand` for the value of SETCFG. -/
def CfgWrite.isOperand : CfgWrite → Bool
  | .localGain v => v.isOperand
  | .subChunkSamples _ => true
  | .fmDeviationKHz v => v.isOperand
  | .am _ => true
  | .turnOffTxWhenIdle _ => true
  | .frequency _ => true
  | .gain v => v.isOperand
  | .amp _ => true
  | .fskSampleRate _ => true
  | .maxBatches _ => true

/-- The operand ranges: R66 (a word equal to the sync or idle codeword is no address codeword),
R80 (`n` is 0 to 32), R102 (`maxBits` is the length of the bit buffer), R24 (`pcmRate` is positive); and a real
number is one that an operation can be issued with (log 4). -/
def Instr.wellFormed : Instr → Bool
  | .sync => true
  | .idle => true
  | .message _ _ _ => true
  | .address a f b p => decide (addressWord a f b p ≠ syncCw) && decide (addressWord a f b p ≠ idleCw)
  | .revbits _ n => decide (n ≤ 32)
  | .bchrem _ => true
  | .parity _ => true
  | .sign _ => true
  | .emit32le _ _ => true
  | .read32le _ _ => true
  | .recodeRaw _ => true
  | .recodeLatin _ => true
  | .recodeCyr _ => true
  | .buildNum _ => true
  | .buildAlpha _ => true
  | .mkaddr _ _ => true
  | .mkmsg mbuf _ maxBits _ => decide (maxBits = mbuf.length)
  | .mkidle => true
  | .mksync => true
  | .encode _ _ _ _ _ _ _ => true
  | .fskmod _ _ => true
  | .interp => true
  | .modiq => true
  | .quant v => v.isOperand
  | .publish _ => true
  | .drain _ => true
  | .push c => decide (0 < c.pcmRate) && c.samples.all RealNum.isOperand
  | .adopt => true
  | .prepare => true
  | .process => true
  | .start => true
  | .stop => true
  | .setcfg w => w.isOperand
  | .isidle => true
  | .waitend _ => true
  | .waitidle _ => true

end Sys2Proof
end

