-- ==== Sys2Proof/Decode.lean ====
section
/-! DEFINITION. The decoder of what stands at the command port, and its encoder. The selectors are those
of 30_encoding.md rule R62 and the codeword formats those of rules R61 to R66; the spec gives no binary
form to an operation's operands, so their layout behind the selector byte is the model's (DESIGN CHOICE,
log 2). -/

namespace Sys2Proof

/-- Why the command port refuses a transfer. -/
inductive DecodeError where
  /-- R62: the selector names no operation. -/
  | unknownSelector
  /-- The transfer ends inside the operands (safe: the step is refused). -/
  | truncated
  /-- An operand has a value its type does not have (R73: it cannot be expressed; safe). -/
  | operandOutOfRange
  /-- Bytes other than zeros follow the last operand (safe). -/
  | trailingBytes
  deriving DecidableEq, Repr

/-- One transfer at the command port (log 1): an operation, as its selector byte and operands, or one of
the 32-bit codewords of R76, as its four bytes in the order of R41. -/
inductive Transfer where
  | op (bytes : List Byte)
  | codeword (bytes : List Byte)
  deriving DecidableEq, Repr

/-- A reader of the operand bytes. -/
abbrev Parser := StateT (List Byte) (Except DecodeError)

/-- The low `n` bytes of `w`, least significant first (the byte order of R41). -/
def leBytes : Nat → Nat → List Byte
  | 0, _ => []
  | n + 1, w => BitVec.ofNat 8 w :: leBytes n (w / 256)

/-- The number whose bytes, least significant first, are `bs` (R41, R87). -/
def leNat : List Byte → Nat
  | [] => 0
  | b :: bs => b.toNat + 256 * leNat bs

/-! ### Operands (log 2) -/

/-- The next byte. -/
def getByte : Parser Byte := fun bs =>
  match bs with
  | [] => .error .truncated
  | b :: r => .ok (b, r)

/-- A number of `n` bytes, least significant first. -/
def getLe (n : Nat) : Parser Nat := fun bs =>
  if bs.length < n then .error .truncated else .ok (leNat (bs.take n), bs.drop n)

/-- An unbounded natural number: seven bits a byte, least significant first, bit 7 set on all bytes but
the last. -/
def natFrom : List Byte → Except DecodeError (Nat × List Byte)
  | [] => .error .truncated
  | b :: r =>
    if b.toNat < 128 then .ok (b.toNat, r)
    else
      match natFrom r with
      | .error e => .error e
      | .ok (n, r') => .ok (b.toNat - 128 + 128 * n, r')

/-- An unbounded natural number. -/
def getNat : Parser Nat := natFrom

/-- A Boolean: the byte 0 or 1. -/
def getBool : Parser Bool := do
  let b ← getByte
  if b = 0#8 then pure false
  else if b = 1#8 then pure true
  else throw .operandOutOfRange

/-- `n` of the things `p` reads. -/
def getMany {α : Type} (p : Parser α) : Nat → Parser (List α)
  | 0 => pure []
  | n + 1 => do
    let x ← p
    let xs ← getMany p n
    pure (x :: xs)

/-- A sequence: its length, then its elements. -/
def getSeq {α : Type} (p : Parser α) : Parser (List α) := do
  let n ← getNat
  getMany p n

/-- An integer: a Boolean, true for a negative number, then the magnitude. -/
def getInt : Parser Int := do
  let neg ← getBool
  let m ← getNat
  pure (if neg then -(m : Int) else (m : Int))

/-- A rational number: the integer numerator, then the positive denominator less one. -/
def getRat : Parser Rat := do
  let n ← getInt
  let d ← getNat
  pure (mkRat n (d + 1))

/-- A real number: the byte 0 and a rational, or the byte 1 and a name (log 4). -/
def getNum : Parser RealNum := do
  let named ← getBool
  if named then do
    let k ← getNat
    pure (.named k)
  else do
    let q ← getRat
    pure (.rat q)

/-- A field of `n` bits in `k` bytes. -/
def getBits (n k : Nat) : Parser (BitVec n) := do
  let v ← getLe k
  if v < 2 ^ n then pure (BitVec.ofNat n v) else throw .operandOutOfRange

/-- R110: the message type. -/
def getMsgType : Parser MsgType := do
  let b ← getByte
  if b = 0#8 then pure .tone
  else if b = 1#8 then pure .numeric
  else if b = 2#8 then pure .alphanumeric
  else throw .operandOutOfRange

/-- R110: the bit rate. -/
def getBps : Parser Bps := do
  let b ← getByte
  if b = 0#8 then pure .b512
  else if b = 1#8 then pure .b1200
  else if b = 2#8 then pure .b2400
  else throw .operandOutOfRange

/-- R110: the charset. -/
def getCharset : Parser Charset := do
  let b ← getByte
  if b = 0#8 then pure .raw
  else if b = 1#8 then pure .latin
  else if b = 2#8 then pure .cyrillic
  else throw .operandOutOfRange

/-- R24: a chunk; its positive rate is stored less one. -/
def getChunk : Parser Chunk := do
  let samples ← getSeq getNum
  let r ← getNat
  pure ⟨samples, r + 1⟩

/-- A real operand of QUANT. -/
def getReal : Parser RealVal := do
  let b ← getByte
  if b = 0#8 then do
    let v ← getNum
    pure (.num v)
  else if b = 1#8 then do
    let t ← getNum
    pure (.sinTurns t)
  else if b = 2#8 then do
    let t ← getNum
    pure (.cosTurns t)
  else throw .operandOutOfRange

/-- R175: the register and the value to write. -/
def getCfgWrite : Parser CfgWrite := do
  let b ← getByte
  if b = 0#8 then do
    let v ← getNum
    pure (.localGain v)
  else if b = 1#8 then do
    let v ← getInt
    pure (.subChunkSamples v)
  else if b = 2#8 then do
    let v ← getNum
    pure (.fmDeviationKHz v)
  else if b = 3#8 then do
    let v ← getBool
    pure (.am v)
  else if b = 4#8 then do
    let v ← getBool
    pure (.turnOffTxWhenIdle v)
  else if b = 5#8 then do
    let v ← getBits 64 8
    pure (.frequency v)
  else if b = 6#8 then do
    let v ← getNum
    pure (.gain v)
  else if b = 7#8 then do
    let v ← getBool
    pure (.amp v)
  else if b = 8#8 then do
    let v ← getInt
    pure (.fskSampleRate v)
  else if b = 9#8 then do
    let v ← getInt
    pure (.maxBatches v)
  else throw .operandOutOfRange

/-- R102: the operands of MKMSG; `maxBits` is the length of the bit buffer. -/
def getMkmsg : Parser Instr := do
  let mbuf ← getSeq getBool
  let offset ← getNat
  let maxBits ← getNat
  let numeric ← getBool
  if maxBits = mbuf.length then pure (.mkmsg mbuf offset maxBits numeric) else throw .operandOutOfRange

/-- R110: the operands of ENCODE; the last byte is 1 where `rawOnly` is false. -/
def getEncode : Parser Instr := do
  let address ← getNat
  let type ← getMsgType
  let text ← getSeq getByte
  let bps ← getBps
  let charset ← getCharset
  let function ← getBits 2 1
  let audio ← getBool
  pure (.encode address type text bps charset function (!audio))

/-- R80: the operands of REVBITS, `n` at most 32. -/
def getRevbits : Parser Instr := do
  let x ← getBits 32 4
  let n ← getByte
  if n.toNat ≤ 32 then pure (.revbits x n.toNat) else throw .operandOutOfRange

/-- R150: the operand of PUBLISH, 0 or 1. -/
def getHalf : Parser Instr := do
  let h ← getBool
  pure (.publish (if h then 1 else 0))

/-- R62: the operation a selector names, and its operands. Every other selector names none. -/
def getOperation (sel : Nat) : Parser Instr :=
  match sel with
  | 0x01 => getRevbits
  | 0x02 => do
    let w ← getBits 32 4
    pure (.bchrem w)
  | 0x03 => do
    let v ← getBits 32 4
    pure (.parity v)
  | 0x04 => do
    let w ← getBits 32 4
    pure (.sign w)
  | 0x05 => do
    let buf ← getSeq getByte
    let w ← getBits 32 4
    pure (.emit32le buf w)
  | 0x06 => do
    let buf ← getSeq getByte
    let a ← getNat
    pure (.read32le buf a)
  | 0x08 => do
    let text ← getSeq getByte
    pure (.recodeRaw text)
  | 0x09 => do
    let text ← getSeq getByte
    pure (.recodeLatin text)
  | 0x0A => do
    let text ← getSeq getByte
    pure (.recodeCyr text)
  | 0x0B => do
    let msg ← getSeq getByte
    pure (.buildNum msg)
  | 0x0C => do
    let msg ← getSeq getByte
    pure (.buildAlpha msg)
  | 0x10 => do
    let ric ← getBits 21 4
    let function ← getBits 2 1
    pure (.mkaddr ric function)
  | 0x11 => getMkmsg
  | 0x12 => pure .mkidle
  | 0x13 => pure .mksync
  | 0x18 => getEncode
  | 0x20 => do
    let framed ← getSeq getByte
    let bps ← getBps
    pure (.fskmod framed bps)
  | 0x28 => pure .interp
  | 0x30 => pure .modiq
  | 0x38 => do
    let v ← getReal
    pure (.quant v)
  | 0x39 => getHalf
  | 0x3A => do
    let len ← getBits 32 4
    pure (.drain len)
  | 0x40 => do
    let c ← getChunk
    pure (.push c)
  | 0x41 => pure .adopt
  | 0x42 => pure .prepare
  | 0x43 => pure .process
  | 0x44 => pure .start
  | 0x45 => pure .stop
  | 0x46 => do
    let w ← getCfgWrite
    pure (.setcfg w)
  | 0x47 => pure .isidle
  | 0x48 => do
    let timeout ← getNat
    pure (.waitend timeout)
  | 0x49 => do
    let timeout ← getNat
    pure (.waitidle timeout)
  | _ => throw .unknownSelector

/-- R66: telling codewords apart, in that rule's order: sync, idle, message, address. -/
def decodeCodeword (w : Word) : Instr :=
  if w = syncCw then .sync
  else if w = idleCw then .idle
  else if w.getLsbD 31 then .message (w.extractLsb' 11 20) (w.extractLsb' 1 10) (w.extractLsb' 0 1)
  else .address (w.extractLsb' 13 18) (w.extractLsb' 11 2) (w.extractLsb' 1 10) (w.extractLsb' 0 1)

/-- Nothing but zeros may follow the last operand (log 2). -/
def finish (r : Except DecodeError (Instr × List Byte)) : Except DecodeError Instr :=
  match r with
  | .error e => .error e
  | .ok (i, rest) => if rest.all (· = 0#8) then .ok i else .error .trailingBytes

/-- The decoder of the command port, total on any bytes. -/
def decode : Transfer → Except DecodeError Instr
  | .op [] => .error .truncated
  | .op (sel :: operands) => finish (getOperation sel.toNat operands)
  | .codeword bytes =>
    if bytes.length < 4 then .error .truncated
    else finish (.ok (decodeCodeword (BitVec.ofNat 32 (leNat (bytes.take 4))), bytes.drop 4))

/-! ### The encoder -/

/-- `n` in seven-bit groups, with `fuel` of them at most after the first. -/
def natBytesFuel : Nat → Nat → List Byte
  | 0, n => [BitVec.ofNat 8 n]
  | fuel + 1, n =>
    if n < 128 then [BitVec.ofNat 8 n]
    else BitVec.ofNat 8 (n % 128 + 128) :: natBytesFuel fuel (n / 128)

/-- The bytes `getNat` reads as `n`. -/
def putNat (n : Nat) : List Byte := natBytesFuel n n

/-- The byte `getBool` reads. -/
def putBool (b : Bool) : List Byte := [if b then 1#8 else 0#8]

/-- The bytes `getSeq` reads. -/
def putSeq {α : Type} (p : α → List Byte) (xs : List α) : List Byte :=
  putNat xs.length ++ xs.flatMap p

/-- The bytes of a byte. -/
def putByte (b : Byte) : List Byte := [b]

/-- The bytes `getInt` reads. -/
def putInt (v : Int) : List Byte := putBool (decide (v < 0)) ++ putNat v.natAbs

/-- The bytes `getRat` reads. -/
def putRat (q : Rat) : List Byte := putInt q.num ++ putNat (q.den - 1)

/-- The bytes `getNum` reads; none for a number no operation can be issued with. -/
def putNum : RealNum → List Byte
  | .rat q => 0#8 :: putRat q
  | .named k => 1#8 :: putNat k
  | .add _ _ => []
  | .mul _ _ => []
  | .clip _ => []
  | .wrap _ => []

/-- The bytes `getBits` reads. -/
def putBits {n : Nat} (k : Nat) (v : BitVec n) : List Byte := leBytes k v.toNat

/-- The byte `getMsgType` reads. -/
def putMsgType : MsgType → List Byte
  | .tone => [0#8]
  | .numeric => [1#8]
  | .alphanumeric => [2#8]

/-- The byte `getBps` reads. -/
def putBps : Bps → List Byte
  | .b512 => [0#8]
  | .b1200 => [1#8]
  | .b2400 => [2#8]

/-- The byte `getCharset` reads. -/
def putCharset : Charset → List Byte
  | .raw => [0#8]
  | .latin => [1#8]
  | .cyrillic => [2#8]

/-- The bytes `getChunk` reads. -/
def putChunk (c : Chunk) : List Byte := putSeq putNum c.samples ++ putNat (c.pcmRate - 1)

/-- The bytes `getReal` reads. -/
def putReal : RealVal → List Byte
  | .num v => 0#8 :: putNum v
  | .sinTurns t => 1#8 :: putNum t
  | .cosTurns t => 2#8 :: putNum t

/-- The bytes `getCfgWrite` reads. -/
def putCfgWrite : CfgWrite → List Byte
  | .localGain v => 0#8 :: putNum v
  | .subChunkSamples v => 1#8 :: putInt v
  | .fmDeviationKHz v => 2#8 :: putNum v
  | .am v => 3#8 :: putBool v
  | .turnOffTxWhenIdle v => 4#8 :: putBool v
  | .frequency v => 5#8 :: putBits 8 v
  | .gain v => 6#8 :: putNum v
  | .amp v => 7#8 :: putBool v
  | .fskSampleRate v => 8#8 :: putInt v
  | .maxBatches v => 9#8 :: putInt v

/-- The four bytes of a codeword in the order of R41. -/
def putCodeword (w : Word) : Transfer := .codeword (leBytes 4 w.toNat)

/-- The transfer of a well-formed operation: the selector of R62 and the operands, or the four bytes of
a codeword. -/
def encode : Instr → Transfer
  | .sync => putCodeword syncCw
  | .idle => putCodeword idleCw
  | .message d b p => putCodeword (messageWord d b p)
  | .address a f b p => putCodeword (addressWord a f b p)
  | .revbits x n => .op (0x01#8 :: (putBits 4 x ++ [BitVec.ofNat 8 n]))
  | .bchrem w => .op (0x02#8 :: putBits 4 w)
  | .parity v => .op (0x03#8 :: putBits 4 v)
  | .sign w => .op (0x04#8 :: putBits 4 w)
  | .emit32le buf w => .op (0x05#8 :: (putSeq putByte buf ++ putBits 4 w))
  | .read32le buf a => .op (0x06#8 :: (putSeq putByte buf ++ putNat a))
  | .recodeRaw text => .op (0x08#8 :: putSeq putByte text)
  | .recodeLatin text => .op (0x09#8 :: putSeq putByte text)
  | .recodeCyr text => .op (0x0A#8 :: putSeq putByte text)
  | .buildNum msg => .op (0x0B#8 :: putSeq putByte msg)
  | .buildAlpha msg => .op (0x0C#8 :: putSeq putByte msg)
  | .mkaddr ric f => .op (0x10#8 :: (putBits 4 ric ++ putBits 1 f))
  | .mkmsg mbuf o m n => .op (0x11#8 :: (putSeq putBool mbuf ++ (putNat o ++ (putNat m ++ putBool n))))
  | .mkidle => .op [0x12#8]
  | .mksync => .op [0x13#8]
  | .encode a t text bps c f raw =>
    .op (0x18#8 :: (putNat a ++ (putMsgType t ++ (putSeq putByte text ++ (putBps bps ++
      (putCharset c ++ (putBits 1 f ++ putBool (!raw))))))))
  | .fskmod framed bps => .op (0x20#8 :: (putSeq putByte framed ++ putBps bps))
  | .interp => .op [0x28#8]
  | .modiq => .op [0x30#8]
  | .quant v => .op (0x38#8 :: putReal v)
  | .publish h => .op (0x39#8 :: putBool (decide (h = 1)))
  | .drain len => .op (0x3A#8 :: putBits 4 len)
  | .push c => .op (0x40#8 :: putChunk c)
  | .adopt => .op [0x41#8]
  | .prepare => .op [0x42#8]
  | .process => .op [0x43#8]
  | .start => .op [0x44#8]
  | .stop => .op [0x45#8]
  | .setcfg w => .op (0x46#8 :: putCfgWrite w)
  | .isidle => .op [0x47#8]
  | .waitend t => .op (0x48#8 :: putNat t)
  | .waitidle t => .op (0x49#8 :: putNat t)

/-! ### The words of spec/opcode_table.json -/

/-- The transfer whose bits are `w`, numbered as spec/opcode_table.json numbers them: a row of 32 bits is
a codeword (R76), any other an operation; every bit above `nbits` is 0 (64 bytes of zeros, more than the
longest operation whose operands are all zero). -/
def tableTransfer (nbits w : Nat) : Transfer :=
  if nbits = 32 then .codeword (leBytes 4 w)
  else .op (leBytes (nbits / 8) w ++ List.replicate 64 0#8)

/-- The instruction the decoder reads from a row's bits. -/
def decodeTableWord (nbits w : Nat) : Option Instr :=
  match decode (tableTransfer nbits w) with
  | .ok i => some i
  | .error _ => none

end Sys2Proof
end

