-- ==== Sys2Proof/Machine/State.lean ====
section
/-! DEFINITION. The state of POCSAG-TX: 10_state.md rules R13 to R32 and R37, 20_memory.md rule R40,
48_sequencer.md rule R166, and its value at reset (R33). -/

namespace Sys2Proof.Machine

open Sys2Proof

/-- R20: the run state. -/
inductive RunState where
  | idle | starting | running | stopping
  deriving DecidableEq, Repr

/-- R166: the position of PROD. -/
inductive Ppos where
  | off | boot | top | first | wait | pub0 | pub1 | next | endWait | exit
  deriving DecidableEq, Repr

/-- R180: the four errors of the block, each with the value it records. -/
inductive Err where
  /-- R181, code 1. -/
  | addressOutOfRange (address : Nat)
  /-- R182, code 2: the index in the text and the byte. -/
  | unmappedNumericChar (index : Nat) (byte : Byte)
  /-- R183, code 3. -/
  | maxBatchesExceeded (batchCount : Nat)
  /-- R184, code 4. -/
  | configWhileRunning (reg : CfgReg)
  deriving DecidableEq, Repr

/-- R180: the code of an error (D20; no rule depends on it). -/
def Err.code : Err → Nat
  | .addressOutOfRange _ => 1
  | .unmappedNumericChar _ _ => 2
  | .maxBatchesExceeded _ => 3
  | .configWhileRunning _ => 4

/-- What an operation delivers to its caller (the model's own form of it, log 17). -/
inductive Ret where
  /-- Nothing delivered yet. -/
  | none
  /-- START or STOP has not returned (R170, R172). -/
  | pending
  | bool (v : Bool)
  | word (v : Word)
  /-- MKMSG: the codeword and the new offset (R102). -/
  | codeword (v : Word) (offset : Nat)
  | bytes (v : List Byte)
  /-- BUILD_NUM, BUILD_ALPHA: the bit buffer and its length (R95, R96). -/
  | bits (v : List Bool) (maxBits : Nat)
  /-- ENCODE with `rawOnly`: `outputBytes` and `returnedCount` (R118). -/
  | stream (v : List Byte) (count : Nat)
  /-- FSKMOD, or ENCODE without `rawOnly`: the samples and their number (R118, R120). -/
  | audio (v : List (BitVec 16)) (count : Nat)
  /-- QUANT (R148). -/
  | sample (v : Byte)
  /-- The callback's return value (R152). -/
  | callback (v : Word)
  /-- R186: the error in place of the result. -/
  | raised (e : Err)
  deriving DecidableEq, Repr

/-- R197: the commands of the device interface that the block issues. -/
inductive DevCmd where
  | openDev
  | close
  | setFrequency (hz : BitVec 64)
  | setGain (v : RealNum)
  | setAmp (v : Bool)
  /-- "also sets baseband filter to 1,750,000 Hz". -/
  | setSampleRate (hz : Word) (filterHz : Nat)
  | startTx
  | stopTx
  | isRunning
  deriving DecidableEq, Repr

/-- R26: the interpolator tail `last[0..3]`. -/
structure Tail where
  t0 : RealNum
  t1 : RealNum
  t2 : RealNum
  t3 : RealNum
  deriving DecidableEq, Repr

/-- R16: the registers of U-BCH. -/
structure BchRegs where
  reg : Word
  gen : Word
  mask : Word
  k : BitVec 5
  deriving DecidableEq, Repr

/-- The encoder registers: R14 (message), R15 (frame assembler), R16 (signer), R37 (FSK modulator). -/
structure Enc where
  msg : List Byte
  mbuf : List Bool
  maxBits : Nat
  numeric : Bool
  addrFrame : Nat
  addrBitSkip : Nat
  batchCount : Nat
  b : Nat
  f : Nat
  s : Nat
  placed : Bool
  offset : Nat
  out : List Byte
  bch : BchRegs
  samplesPerBit : Nat
  bitIndex : Nat
  sampleCtr : Nat
  byteIndex : Nat
  pcm : List (BitVec 16)
  deriving DecidableEq, Repr

/-- R7, D5 `NUM`: the arithmetic of the sample datapath: exact real arithmetic, or one of the finite numerics,
of which nothing is known but its number (log 33). -/
inductive Num where
  | exact
  | finite (id : Nat)
  deriving DecidableEq, Repr

/-- The configuration record: the registers of R17 (encoder), R18 (modulator) and R19 (forwarded to the
device), and the parameter `NUM` of R7. -/
structure Cfg where
  fskSampleRate : Nat
  maxBatches : Nat
  localGain : RealNum
  subChunkSamples : Nat
  fmDeviationKHz : RealNum
  am : Bool
  turnOffTxWhenIdle : Bool
  frequency : BitVec 64
  gain : RealNum
  amp : Bool
  num : Num
  deriving DecidableEq, Repr

/-- What stands at the command port (log 1): an operation, as the transfer that issues it, or the end of the
block's life, power-off (R199, log 31). -/
inductive PortEvent where
  | issue (tr : Transfer)
  | powerOff
  deriving DecidableEq, Repr

/-- R199: the block's life (log 31): after Open; once power-off has begun, until Close; after Close. -/
inductive Power where
  | on | closing | off
  deriving DecidableEq, Repr

/-- The ring memory RING (R30, R48): what has been written, by address, addresses strictly rising. An
address that is not listed holds no value (R33; log 9). -/
abbrev Memory := List Host.Cell

/-- The one form a memory has: addresses strictly rising, so that equal memories are equal lists. -/
abbrev Memory.wf (m : Memory) : Prop := m.Pairwise (fun a b => a.1 < b.1)

/-- R13: the state of the block. -/
structure State where
  /-- R14 to R16, R37. -/
  enc : Enc
  /-- R17 to R19. -/
  cfg : Cfg
  /-- R20. -/
  runState : RunState
  /-- R21. -/
  ready : Bool
  /-- R21. -/
  stop : Bool
  /-- R21. -/
  emptyQueue : Bool
  /-- R21. -/
  prepared : Bool
  /-- R166. -/
  ppos : Ppos
  /-- R173: which of the two steps of row Exit is next, true for the second (log 18). -/
  exitSecond : Bool
  /-- R22. -/
  txQueue : List Chunk
  /-- R23. -/
  currentChunk : Option Chunk
  /-- R23. -/
  subChunkOffset : Nat
  /-- R23 `sample_count`. -/
  sampleCount : Nat
  /-- R25. -/
  deviceSampleRate : Word
  /-- R26. -/
  last : Tail
  /-- R27, in turns: `FMPhase` is this times 2π (log 5). -/
  fmPhase : RealNum
  /-- R28; empty while it holds no value (log 9). -/
  ibuf : List RealNum
  /-- R29; empty while it holds no value (log 9). -/
  iq : List RealVal
  /-- R30. -/
  ring : Memory
  /-- R31. -/
  head : BitVec 8
  /-- R31. -/
  tail : BitVec 8
  /-- R31. -/
  fill : Nat
  /-- R32. -/
  devRunning : Bool
  /-- R40 DST: what the last callback wrote (log 26). -/
  dst : List Byte
  /-- What stands at the command port, oldest first (the model's own, log 1). -/
  port : List PortEvent
  /-- R199: how far the block's life has come (the model's own, log 31). -/
  power : Power
  /-- What the last HOST or ENC operation delivered (the model's own, log 17). -/
  hostRet : Ret
  /-- What the last PROD operation delivered (the model's own, log 17). -/
  prodRet : Ret
  /-- What the last callback returned (the model's own, log 17). -/
  consRet : Ret
  /-- The device commands issued, oldest first (the model's own, log 17). -/
  devLog : List DevCmd
  /-- The answers DEV is about to give, next one first (the model's own, log 11). -/
  devAnswers : List Bool
  /-- How many free values have been drawn (the model's own, logs 10 and 11). -/
  draws : Nat
  deriving DecidableEq, Repr

/-- What stops the machine where a rule reads something that holds no value or does not exist. -/
inductive Fault where
  /-- R33: MODIQ read `ibuf` before INTERP wrote it (raised by MODIQ; safe: the spec asks for it). -/
  | ibufHoldsNoValue
  /-- R33: PUBLISH read `iq` before MODIQ wrote it (raised by PUBLISH; safe: the spec asks for it). -/
  | iqHoldsNoValue
  /-- R33: DRAIN read one of the first `BUF_LEN` bytes of a slot before PUBLISH wrote it (raised by
  DRAIN; safe: the spec asks for it). -/
  | slotHoldsNoValue
  /-- R87: READ32LE with fewer than four bytes left (raised by READ32LE; safe, log 22). -/
  | streamReadPastEnd
  /-- R102: MKMSG with `maxBits` past the end of the bit buffer (raised by MKMSG; safe, log 22). -/
  | mbufReadPastEnd
  deriving DecidableEq, Repr

/-- Why a step is not in the relation: the reasons of R188 and the model's own. -/
inductive Refusal where
  /-- No meaning written yet (raised by an arm of `exec`; safe). -/
  | notModelled (mnemonic : String)
  /-- R84, R188 (raised by SIGN; safe). -/
  | signLowBitsSet
  /-- R92, R188 (raised by RECODE_CYR and ENCODE; safe). -/
  | cyrillicTableMissing
  /-- R120, R188 (raised by FSKMOD; safe). -/
  | fskBadLength
  /-- R121, R188 (raised by FSKMOD and ENCODE; safe). -/
  | fskRateTooLow
  /-- R154, R188 (raised by DRAIN; safe). -/
  | drainTooLong
  /-- R155, R188 (raised by PUBLISH; safe). -/
  | ringFull
  /-- R163, R188 (raised by PREPARE; safe). -/
  | deviceRateOverflow
  /-- R175, R188 (raised by SETCFG; safe). -/
  | configValueOutOfRange
  /-- R166, R191: an operation of PROD issued where PROD does not stand at it: not a step of the relation
  (raised by ADOPT, PREPARE, PUBLISH, INTERP, MODIQ, QUANT and the rows of PROCESS; safe, logs 12 and 19). -/
  | notEnabled
  /-- R199: nothing survives power-off: nothing after it is a step (raised by `step`; safe, log 31). -/
  | poweredOff
  /-- The command port cannot decode what stands at it (raised by `step`; safe, log 2). -/
  | undecodable (why : DecodeError)
  deriving DecidableEq, Repr

/-- R33: every encoder register at reset; the spec gives no value, these are DESIGN CHOICE (log 8). -/
def Enc.reset : Enc where
  msg := []
  mbuf := []
  maxBits := 0
  numeric := false
  addrFrame := 0
  addrBitSkip := 0
  batchCount := 0
  b := 0
  f := 0
  s := 0
  placed := false
  offset := 0
  out := []
  bch := ⟨0#32, 0#32, 0#32, 0#5⟩
  samplesPerBit := 0
  bitIndex := 0
  sampleCtr := 0
  byteIndex := 0
  pcm := []

/-- R33: the configuration at reset: the three defaults of the spec, for the launch parameters the values of
log 7 (DESIGN CHOICE, unsafe), and for `NUM` its default (D5). -/
def Cfg.reset : Cfg where
  fskSampleRate := 44100
  maxBatches := 1
  localGain := .rat 0
  subChunkSamples := 2048
  fmDeviationKHz := .rat 75
  am := false
  turnOffTxWhenIdle := false
  frequency := 0#64
  gain := .rat 0
  amp := false
  num := .exact

/-- R33, R200: power-on with the configuration `c` that the launch gives. -/
def State.launch (c : Cfg) : State where
  enc := Enc.reset
  cfg := c
  runState := .idle
  ready := true
  stop := false
  emptyQueue := false
  prepared := false
  ppos := .off
  exitSecond := false
  txQueue := []
  currentChunk := none
  subChunkOffset := 0
  sampleCount := 0
  deviceSampleRate := 0#32
  last := ⟨.rat 0, .rat 0, .rat 0, .rat 0⟩
  fmPhase := .rat 0
  ibuf := []
  iq := []
  ring := []
  head := 0#8
  tail := 0#8
  fill := 0
  devRunning := false
  dst := []
  port := []
  power := .on
  hostRet := .none
  prodRet := .none
  consRet := .none
  devLog := [.openDev]
  devAnswers := []
  draws := 0

/-- R33, R200: the machine right after reset, with the launch parameters of log 7. -/
def State.reset : State := State.launch Cfg.reset

end Sys2Proof.Machine
end

