-- ==== Sys2Proof/Machine/Ops.lean ====
section
/-! DEFINITION. The named operations over the state: how an operation ends, raising an error
(60_exceptions.md rule R186), the ring memory (20_memory.md rules R46, R48), the device interface
(R196, R197), free values, and the arithmetic of 00_scope.md rule R10 over
the reals. -/

namespace Sys2Proof.Machine

open Sys2Proof

/-! ### How an operation ends -/

/-- The two ways an operation ends with no next state. -/
inductive Halt where
  | fault (r : Fault)
  | refuse (r : Refusal)
  deriving DecidableEq, Repr

/-- A computation that a fault or a refusal may end. -/
abbrev Res (α : Type) := Except Halt α

/-- The outcome of a step computed with `Res`. -/
def Res.outcome (r : Res State) : Host.Outcome State Fault Refusal :=
  match r with
  | .ok s => .next s
  | .error (.fault f) => .fault f
  | .error (.refuse f) => .refused f

/-- R8, R166, R191: a step of PROD that is part of the rows `rows`; where PROD stands at none of them (in Idle it
stands at Off, with no steps) it is not a step of the relation. `r` is what it does there (log 12). -/
def State.within (rows : List Ppos) (s : State) (r : Res State) : Host.Outcome State Fault Refusal :=
  if s.ppos ∈ rows then Res.outcome r else .refused .notEnabled

/-- A HOST or ENC operation delivers its result. -/
def State.setHostRet (r : Ret) (s : State) : State := { s with hostRet := r }

/-- A PROD operation delivers its result. -/
def State.setProdRet (r : Ret) (s : State) : State := { s with prodRet := r }

/-- The callback returns. -/
def State.setConsRet (r : Ret) (s : State) : State := { s with consRet := r }

/-- The encoder registers as an ENC operation leaves them. -/
def State.setEnc (e : Enc) (s : State) : State := { s with enc := e }

/-- R186, what stands for taking an exception: the operation ends, the error is delivered to its caller in
place of the result, and no state of the block changes. Nothing is saved, so there is no return from it. -/
def State.raise (e : Err) (s : State) : Host.Outcome State Fault Refusal :=
  .next (s.setHostRet (.raised e))

/-! ### The ring memory -/

/-- The byte at an address, none where nothing has been written (R33). -/
def Memory.read (m : Memory) (a : Nat) : Option Byte := m.lookup a

/-- `bs` at `base`, `base + 1`, and so on. -/
def Memory.cells : Nat → List Byte → Memory
  | _, [] => []
  | base, b :: bs => (base, b) :: Memory.cells (base + 1) bs

/-- `bs` written from `base` on; every other address is as before. -/
def Memory.write (m : Memory) (base : Nat) (bs : List Byte) : Memory :=
  let past := base + bs.length
  m.filter (fun c => decide (c.1 < base)) ++ Memory.cells base bs
    ++ m.filter (fun c => decide (past ≤ c.1))

/-- The `n` bytes from `base` on, none where one of them holds no value. -/
def Memory.readMany (m : Memory) : Nat → Nat → Option (List Byte)
  | _, 0 => some []
  | base, n + 1 =>
    match m.read base, m.readMany (base + 1) n with
    | some b, some bs => some (b :: bs)
    | _, _ => none

/-- R48: the address of byte 0 of a ring slot. -/
def slotBase (i : BitVec 8) : Nat := i.toNat * slotCap

/-! ### The device and the free values -/

/-- A device command with no answer (R197). -/
def State.tell (c : DevCmd) (s : State) : State := { s with devLog := s.devLog ++ [c] }

/-- R196: the answer DEV gives to the next command that has one: the next listed answer, or a free value. -/
def State.answer (s : State) : Bool :=
  match s.devAnswers with
  | a :: _ => a
  | [] => Config.devAnswer s.draws

/-- A device command whose answer is `State.answer`. -/
def State.ask (c : DevCmd) (s : State) : State :=
  { s with
    devLog := s.devLog ++ [c]
    devAnswers := s.devAnswers.tail
    draws := if s.devAnswers = [] then s.draws + 1 else s.draws }

/-- R154: the next `n` bytes of any value. -/
def State.freeBytes (n : Nat) (s : State) : List Byte :=
  (List.range n).map (fun i => Config.freeByte (s.draws + i))

/-- `n` free values have been drawn. -/
def State.drew (n : Nat) (s : State) : State := { s with draws := s.draws + n }

/-! ### Arithmetic (R10) -/

/-- R10, D6: the nearest integer, ties away from zero. -/
def roundHalfAway (q : Rat) : Int :=
  if 0 ≤ q then (q + 1 / 2).floor else -((-q + 1 / 2).floor)

/-- R10. -/
def clampInt (x lo hi : Int) : Int := max lo (min hi x)

/-! ### Real numbers (R10, log 4): rational operands give a rational, others the number as an expression -/

/-- The sum of two reals. -/
def plus : RealNum → RealNum → RealNum
  | .rat a, .rat b => .rat (a + b)
  | a, b => .add a b

/-- The product of two reals. -/
def times : RealNum → RealNum → RealNum
  | .rat a, .rat b => .rat (a * b)
  | a, b => .mul a b

/-- The difference of two reals. -/
def minus (a b : RealNum) : RealNum := plus a (times (.rat (-1)) b)

/-- R10, R141: `clamp` to [-1, 1]. -/
def clipped : RealNum → RealNum
  | .rat q => .rat (max (-1) (min 1 q))
  | v => .clip v

/-- R10 `wrap`, in turns: the one number in (-1/2, 1/2] that differs from `v` by an integer. -/
def wrapped : RealNum → RealNum
  | .rat q => .rat (q + ((1 / 2 - q).floor : Rat))
  | v => .wrap v

/-- On which side of `c` a real is: computed for a rational and for the sine or cosine of a rational number of
turns, told by `Config.reals` for the rest (log 4). -/
def cmpReal (v : RealVal) (c : Rat) : Ordering :=
  match v with
  | .num (.rat q) => ratCmp q c
  | .sinTurns (.rat t) => cosCmp (2 * t - 1 / 2) c
  | .cosTurns (.rat t) => cosCmp (2 * t) c
  | v => Config.reals.cmp v c

/-- R7, D5: the product of two numbers of the sample datapath. -/
def Num.mul (num : Num) (x y : RealNum) : RealNum :=
  match num with
  | .exact => times x y
  | .finite k => .rat (Config.finiteMul k x y)

end Sys2Proof.Machine
end

