-- ==== Sys2Proof/Machine/Operands.lean ====
section
/-! DEFINITION. Operand assembly: the character cells (30_encoding.md rules R67, R68), the address fields
(R64, R69), the data field of a message codeword (42_codewords.md rules R102, R103) and the bit and byte
orders of 20_memory.md rules R41 to R43. -/

namespace Sys2Proof.Machine

open Sys2Proof

/-- R80: the `n` low bits of `x` in reversed order. -/
def revBits (x : Word) (n : Nat) : Word :=
  (List.range n).foldl
    (fun r i => if x.getLsbD (n - 1 - i) then r ||| (1#32 <<< i) else r) 0#32

/-- The bits `n - 1` down to 0 of a word, the order in which cells are placed and bits are sent. -/
def bitsDown (w : Word) (n : Nat) : List Bool :=
  (List.range n).map (fun i => w.getLsbD (n - 1 - i))

/-- R67, R94 `NUMMAP`: the value of a numeric character (ASCII values PRESUMED, G5, log 27). -/
def numMap (c : Byte) : Option Nat :=
  if 0x30 ≤ c.toNat ∧ c.toNat ≤ 0x39 then some (c.toNat - 0x30)
  else if c = 0x2A#8 then some 0xA
  else if c = 0x55#8 ∨ c = 0x75#8 then some 0xB
  else if c = 0x20#8 ∨ c = 0x0A#8 then some 0xC
  else if c = 0x2D#8 then some 0xD
  else if c = 0x29#8 ∨ c = 0x5D#8 then some 0xE
  else if c = 0x28#8 ∨ c = 0x5B#8 then some 0xF
  else none

/-- R67: the four bits of a numeric cell, in buffer order. -/
def numCell (v : Nat) : List Bool := bitsDown (revBits (BitVec.ofNat 32 v) 4) 4

/-- R68: the seven-bit cell of a byte. -/
def alphaCell (c : Byte) : Word := revBits ((c &&& 0x7F#8).setWidth 32) 7

/-- R91: what one byte of a Latin text becomes; no byte at all for a carriage return (D36). -/
def latinByte (c : Byte) : List Byte :=
  if c = 0x0D#8 then []
  else if c = 0x5D#8 then [0x1E#8]
  else if c = 0x5B#8 then [0x1F#8]
  else if c = 0x55#8 then [0x1B#8]
  else if c = 0x0A#8 ∨ (0x1A ≤ c.toNat ∧ c.toNat ≤ 0x7E) then [c]
  else [0x3F#8]

/-- R69: the frame of the address codeword, `ric[2:0]`. -/
def addrFrameOf (ric : BitVec 21) : Nat := (ric.extractLsb' 0 3).toNat

/-- R100: the unsigned address word. -/
def addrUnsigned (ric : BitVec 21) (function : BitVec 2) : Word :=
  ((ric >>> 3).setWidth 32 <<< 13) ||| (function.setWidth 32 <<< 11)

/-- R103: the `j`-th pad bit. -/
def padBit (numeric : Bool) (j : Nat) : Bool := numeric && (0x3#4).getLsbD (3 - j % 4)

/-- R102: the twenty data bits at `offset`, padded. -/
def msgBits (mbuf : List Bool) (offset maxBits : Nat) (numeric : Bool) : List Bool :=
  let n := min dataBits (maxBits - offset)
  (mbuf.drop offset).take n ++ (List.range (dataBits - n)).map (padBit numeric)

/-- The number whose binary digits are `bs`, most significant first. -/
def natOfBits (bs : List Bool) : Nat := bs.foldl (fun n b => 2 * n + b.toNat) 0

/-- R102: the unsigned message word of twenty data bits. -/
def msgUnsigned (bs : List Bool) : Word := 0x80000000#32 ||| (BitVec.ofNat 32 (natOfBits bs) <<< 11)

/-- R86: the four bytes of a word, little-endian. -/
def wordBytes (w : Word) : List Byte :=
  [w.extractLsb' 0 8, w.extractLsb' 8 8, w.extractLsb' 16 8, w.extractLsb' 24 8]

/-- R87: the little-endian word at `a`. -/
def wordAt (buf : List Byte) (a : Nat) : Word := BitVec.ofNat 32 (leNat ((buf.drop a).take 4))

/-- R110: bits per second. -/
def bpsRate : Bps → Nat
  | .b512 => 512
  | .b1200 => 1200
  | .b2400 => 2400

/-- R114: the data bits before the first message bit. -/
def addrBitSkipOf (addrFrame : Nat) : Nat := addrFrame * 40 + 20

/-- R115: the number of batches. -/
def batchCountOf (addrBitSkip maxBits : Nat) : Nat :=
  let totalBits := addrBitSkip + maxBits
  let lastSlot := (totalBits + 19) / 20 - 1
  let lastFrame := lastSlot % 16 / 2
  (totalBits + 319) / batchDataBits + (if lastFrame = 7 then 1 else 0)

end Sys2Proof.Machine
end

