-- ==== Sys2Proof/Machine/Bch.lean ====
section
/-! DEFINITION. U-BCH: 40_bit_utilities.md rules R80 to R88. -/

namespace Sys2Proof.Machine

open Sys2Proof

/-- R82: step `k` of the division. -/
def bchStep (r : BchRegs) (k : Nat) : BchRegs where
  reg := if r.reg &&& r.mask ≠ 0#32 then r.reg ^^^ r.gen else r.reg
  gen := r.gen >>> 1
  mask := r.mask >>> 1
  k := BitVec.ofNat 5 k

/-- R82: the registers before the first step. -/
def bchInit (w : Word) : BchRegs where
  reg := w
  gen := bchGen
  mask := 0x80000000#32
  k := 0#5

/-- R82: the registers after the 21 steps. -/
def bchLoop (w : Word) : BchRegs := (List.range 21).foldl bchStep (bchInit w)

/-- R82 `BCHREM`. -/
def bchRem (w : Word) : Word := (bchLoop w).reg

/-- R83: the number of set bits. -/
def popcount (w : Word) : Nat := (List.range 32).countP (fun i => w.getLsbD i)

/-- R83 `PARITY`. -/
def parityWord (v : Word) : Word := if popcount v % 2 = 1 then v ||| 1#32 else v

/-- R84 `SIGN`, for a word whose bits 10:0 are 0. -/
def signWord (w : Word) : Word := parityWord (w ||| bchRem w)

/-- R84: the registers of U-BCH as signing `w` leaves them. -/
def Enc.signed (w : Word) (e : Enc) : Enc := { e with bch := bchLoop w }

/-- R86: a codeword appended to STREAM. -/
def Enc.emit (w : Word) (e : Enc) : Enc := { e with out := e.out ++ wordBytes w }

/-- R80. -/
def execRevbits (x : Word) (n : Nat) (s : State) : Host.Outcome State Fault Refusal :=
  .next (s.setHostRet (.word (revBits x n)))

/-- R82; on a word whose bits 10:0 are not 0 the loop runs as written (log 20). -/
def execBchrem (w : Word) (s : State) : Host.Outcome State Fault Refusal :=
  .next ((s.setEnc (Enc.signed w s.enc)).setHostRet (.word (bchRem w)))

/-- R83. -/
def execParity (v : Word) (s : State) : Host.Outcome State Fault Refusal :=
  .next (s.setHostRet (.word (parityWord v)))

/-- R84, D39. -/
def execSign (w : Word) (s : State) : Host.Outcome State Fault Refusal :=
  if w &&& 0x7FF#32 ≠ 0#32 then .refused .signLowBitsSet
  else .next ((s.setEnc (Enc.signed w s.enc)).setHostRet (.word (signWord w)))

/-- R86: `out` becomes `buf` with the four bytes appended. R86 calls `buf` the register `out`, and R33 says that
the register holds no value between operations: `buf` is an operand by value, and `out` is written, not read
(DESIGN CHOICE, log 32; unsafe). -/
def execEmit32le (buf : List Byte) (w : Word) (s : State) : Host.Outcome State Fault Refusal :=
  let out := buf ++ wordBytes w
  .next ((s.setEnc { s.enc with out := out }).setHostRet (.bytes out))

/-- R87; fewer than four bytes left is no access the block makes (log 22). -/
def execRead32le (buf : List Byte) (a : Nat) (s : State) : Host.Outcome State Fault Refusal :=
  if a + 3 < buf.length then .next (s.setHostRet (.word (wordAt buf a)))
  else .fault .streamReadPastEnd

end Sys2Proof.Machine
end

