-- ==== Sys2Proof/Machine/Codewords.lean ====
section
/-! DEFINITION. U-FRM, second stage: 42_codewords.md rules R100 to R106, and the codeword rows of
spec/opcode_table.json (R76), whose meaning as instructions is the emission of such a codeword to STREAM
(DESIGN CHOICE, log 3). -/

namespace Sys2Proof.Machine

open Sys2Proof

/-- R100 `MKADDR`. -/
def mkaddrWord (ric : BitVec 21) (function : BitVec 2) : Word := signWord (addrUnsigned ric function)

/-- R102 `MKMSG`, the codeword. -/
def mkmsgWord (mbuf : List Bool) (offset maxBits : Nat) (numeric : Bool) : Word :=
  if maxBits ≤ offset then idleCw else signWord (msgUnsigned (msgBits mbuf offset maxBits numeric))

/-- R102 `MKMSG`, the new offset (D41). -/
def mkmsgOffset (offset maxBits : Nat) : Nat := if maxBits ≤ offset then offset else offset + dataBits

/-- R102: the registers of U-BCH after a MKMSG; an idle codeword is not signed. -/
def Enc.mkmsgSigned (mbuf : List Bool) (offset maxBits : Nat) (numeric : Bool) (e : Enc) : Enc :=
  if maxBits ≤ offset then e else Enc.signed (msgUnsigned (msgBits mbuf offset maxBits numeric)) e

/-- R100. -/
def execMkaddr (ric : BitVec 21) (function : BitVec 2) (s : State) : Host.Outcome State Fault Refusal :=
  .next ((s.setEnc (Enc.signed (addrUnsigned ric function) s.enc)).setHostRet
    (.word (mkaddrWord ric function)))

/-- R102; reading past the end of the buffer is no read the block makes (log 22). -/
def execMkmsg (mbuf : List Bool) (offset maxBits : Nat) (numeric : Bool) (s : State) :
    Host.Outcome State Fault Refusal :=
  if mbuf.length < maxBits then .fault .mbufReadPastEnd
  else
    let o := mkmsgOffset offset maxBits
    let e := Enc.mkmsgSigned mbuf offset maxBits numeric s.enc
    .next ((s.setEnc { e with offset := o }).setHostRet
      (.codeword (mkmsgWord mbuf offset maxBits numeric) o))

/-- R104. -/
def execMkidle (s : State) : Host.Outcome State Fault Refusal := .next (s.setHostRet (.word idleCw))

/-- R105. -/
def execMksync (s : State) : Host.Outcome State Fault Refusal := .next (s.setHostRet (.word syncCw))

/-- A codeword goes out to STREAM (R41, R86, R117), which holds nothing before the operation writes it (R13,
R33; log 3). -/
def emitCodeword (w : Word) (e : Enc) (s : State) : Host.Outcome State Fault Refusal :=
  .next ((s.setEnc (Enc.emit w { e with out := [] })).setHostRet (.word w))

/-- R105: the sync codeword, verbatim (log 3). -/
def execSyncCw (s : State) : Host.Outcome State Fault Refusal := emitCodeword syncCw s.enc s

/-- R104: the idle codeword, verbatim (log 3). -/
def execIdleCw (s : State) : Host.Outcome State Fault Refusal := emitCodeword idleCw s.enc s

/-- R65, R102: the message codeword of these data bits; SIGN fills bits 10:0, so the codeword's own check
bits are not read (log 3). -/
def execMessageCw (data : BitVec 20) (_bch : BitVec 10) (_parity : BitVec 1) (s : State) :
    Host.Outcome State Fault Refusal :=
  let w : Word := 1#1 ++ data ++ 0#11
  emitCodeword (signWord w) (Enc.signed w s.enc) s

/-- R64, R100: the address codeword of this address field and function; SIGN fills bits 10:0, so the
codeword's own check bits are not read (log 3). -/
def execAddressCw (addr : BitVec 18) (function : BitVec 2) (_bch : BitVec 10) (_parity : BitVec 1)
    (s : State) : Host.Outcome State Fault Refusal :=
  let w : Word := 0#1 ++ addr ++ function ++ 0#11
  emitCodeword (signWord w) (Enc.signed w s.enc) s

end Sys2Proof.Machine
end

