-- ==== Sys2Proof/Machine/Fsk.lean ====
section
/-! DEFINITION. U-FSK: 44_fsk_modulator.md rules R120 to R127. -/

namespace Sys2Proof.Machine

open Sys2Proof

/-- R125: the level of a bit. -/
def fskLevel (v : Bool) : BitVec 16 :=
  if v = Config.fskOneIsPositive then BitVec.ofInt 16 Config.fskAmplitude
  else BitVec.ofInt 16 (-(Config.fskAmplitude : Int))

/-- R125 `sendbit`. -/
def sendBit (samplesPerBit : Nat) (v : Bool) : List (BitVec 16) :=
  List.replicate samplesPerBit (fskLevel v)

/-- R123: the bits of a preamble byte in sending order. -/
def preambleBits (b : Byte) : List Bool := bitsDown (revBits (b.setWidth 32) 8) 8

/-- R124: the bits of a body word in sending order. -/
def bodyBits (w : Word) : List Bool := bitsDown (revBits w 32) 32

/-- R124: the body words, at offsets 72, 76 and so on. -/
def bodyWords (framed : List Byte) : List Word :=
  (List.range ((framed.length - preambleLen) / 4)).map (fun n => wordAt framed (preambleLen + 4 * n))

/-- R122, R127: the silence at either end (D12). -/
def fskSilence (rate : Nat) : List (BitVec 16) := List.replicate (rate / 2) 0#16

/-- R120: the sample sequence. -/
def fskPcm (rate samplesPerBit : Nat) (framed : List Byte) : List (BitVec 16) :=
  fskSilence rate
    ++ ((framed.take preambleLen).flatMap preambleBits).flatMap (sendBit samplesPerBit)
    ++ ((bodyWords framed).flatMap bodyBits).flatMap (sendBit samplesPerBit)
    ++ fskSilence rate

/-- R37: the registers of U-FSK as `FSKMOD` leaves them: the values of its last iterations. -/
def Enc.fskDone (samplesPerBit : Nat) (framed : List Byte) (pcm : List (BitVec 16)) (e : Enc) : Enc :=
  { e with
    samplesPerBit := samplesPerBit
    bitIndex := 0
    sampleCtr := samplesPerBit - 1
    byteIndex := if framed.length = preambleLen then preambleLen - 1 else framed.length - 4
    pcm := pcm }

/-- R120, R121: the checks of FSKMOD, then its samples and registers. -/
def fskRun (framed : List Byte) (bps : Bps) (rate : Nat) (e : Enc) : Res Enc :=
  if framed.length < preambleLen ∨ (framed.length - preambleLen) % 4 ≠ 0 then
    .error (.refuse .fskBadLength)
  else
    let samplesPerBit := rate / bpsRate bps
    if samplesPerBit = 0 then .error (.refuse .fskRateTooLow)
    else .ok (e.fskDone samplesPerBit framed (fskPcm rate samplesPerBit framed))

/-- R120. -/
def execFskmod (framed : List Byte) (bps : Bps) (s : State) : Host.Outcome State Fault Refusal :=
  Res.outcome (do
    let e ← fskRun framed bps s.cfg.fskSampleRate s.enc
    pure ((s.setEnc e).setHostRet (.audio e.pcm e.pcm.length)))

end Sys2Proof.Machine
end

