-- ==== Sys2Proof/Machine/MessageBuffer.lean ====
section
/-! DEFINITION. U-FRM, first stage: 41_message_buffer.md rules R90 to R97. -/

namespace Sys2Proof.Machine

open Sys2Proof

/-- R91. -/
def recodeLatin (text : List Byte) : List Byte := text.flatMap latinByte

/-- R95: the bit buffer of a numeric message, from character `i` on, or the first character with no
mapping. -/
def buildNumFrom : Nat → List Byte → Except Err (List Bool)
  | _, [] => .ok []
  | i, c :: cs =>
    match numMap c with
    | none => .error (.unmappedNumericChar i c)
    | some v =>
      match buildNumFrom (i + 1) cs with
      | .error e => .error e
      | .ok bs => .ok (numCell v ++ bs)

/-- R96: seven zero bits where there is a last cell and it is not zero (D18). -/
def alphaTerminator (msg : List Byte) : List Bool :=
  match msg.getLast? with
  | none => []
  | some c => if alphaCell c = 0#32 then [] else List.replicate 7 false

/-- R96: the bit buffer of an alphanumeric message. -/
def buildAlphaBits (msg : List Byte) : List Bool :=
  msg.flatMap (fun c => bitsDown (alphaCell c) 7) ++ alphaTerminator msg

/-- The message registers after a bit buffer has been built (R95, R96). -/
def Enc.withBits (bits : List Bool) (e : Enc) : Enc := { e with mbuf := bits, maxBits := bits.length }

/-- R90. -/
def execRecodeRaw (text : List Byte) (s : State) : Host.Outcome State Fault Refusal :=
  .next ((s.setEnc { s.enc with msg := text }).setHostRet (.bytes text))

/-- R91. -/
def execRecodeLatin (text : List Byte) (s : State) : Host.Outcome State Fault Refusal :=
  .next ((s.setEnc { s.enc with msg := recodeLatin text }).setHostRet (.bytes (recodeLatin text)))

/-- R92: the alphabet table is not in the source. -/
def execRecodeCyr (_text : List Byte) (_s : State) : Host.Outcome State Fault Refusal :=
  .refused .cyrillicTableMissing

/-- R95, R186. -/
def execBuildNum (msg : List Byte) (s : State) : Host.Outcome State Fault Refusal :=
  match buildNumFrom 0 msg with
  | .error e => s.raise e
  | .ok bits => .next ((s.setEnc (Enc.withBits bits s.enc)).setHostRet (.bits bits bits.length))

/-- R96. -/
def execBuildAlpha (msg : List Byte) (s : State) : Host.Outcome State Fault Refusal :=
  let bits := buildAlphaBits msg
  .next ((s.setEnc (Enc.withBits bits s.enc)).setHostRet (.bits bits bits.length))

end Sys2Proof.Machine
end

