-- ==== Sys2Proof/Machine/Batch.lean ====
section
/-! DEFINITION. U-FRM, third stage: ENCODE, 43_batch_assembly.md rules R110 to R118. -/

namespace Sys2Proof.Machine

open Sys2Proof

/-- Why the message buffer of ENCODE is not built. -/
inductive BuildStop where
  | raised (e : Err)
  | refused (r : Refusal)
  deriving DecidableEq, Repr

/-- R112: the message registers before filling. -/
def Enc.message (msg : List Byte) (bits : List Bool) (numeric : Bool) (e : Enc) : Enc :=
  { e with
    msg := msg
    mbuf := bits
    maxBits := bits.length
    numeric := numeric
    offset := 0
    placed := false }

/-- R112: building the message buffer; a Tone message has none (R97, D17). -/
def buildMessage (type : MsgType) (charset : Charset) (text : List Byte) (e : Enc) :
    Except BuildStop Enc :=
  match type with
  | .tone => .ok (e.message e.msg [] false)
  | .numeric =>
    match buildNumFrom 0 text with
    | .error err => .error (.raised err)
    | .ok bits => .ok (e.message text bits true)
  | .alphanumeric =>
    match charset with
    | .raw => .ok (e.message text (buildAlphaBits text) false)
    | .latin => .ok (e.message (recodeLatin text) (buildAlphaBits (recodeLatin text)) false)
    | .cyrillic => .error (.refused .cyrillicTableMissing)

/-- R114, R115: the position registers before filling. -/
def Enc.positions (ric : BitVec 21) (e : Enc) : Enc :=
  let addrFrame := addrFrameOf ric
  let skip := addrBitSkipOf addrFrame
  { e with addrFrame := addrFrame, addrBitSkip := skip, batchCount := batchCountOf skip e.maxBits }

/-- R113: the preamble. -/
def Enc.preamble (e : Enc) : Enc := { e with out := List.replicate preambleLen preambleByte }

/-- R117: the codeword of the slot that `f` and `s` stand at. -/
def Enc.fillSlot (ric : BitVec 21) (function : BitVec 2) (e : Enc) : Enc :=
  if e.placed = false then
    if e.f = e.addrFrame ∧ e.s = 0 then
      Enc.emit (mkaddrWord ric function)
        { Enc.signed (addrUnsigned ric function) e with placed := true }
    else Enc.emit idleCw e
  else
    Enc.emit (mkmsgWord e.mbuf e.offset e.maxBits e.numeric)
      { Enc.mkmsgSigned e.mbuf e.offset e.maxBits e.numeric e with
        offset := mkmsgOffset e.offset e.maxBits }

/-- R117: the two slots of frame `f`. -/
def Enc.fillFrame (ric : BitVec 21) (function : BitVec 2) (e : Enc) (f : Nat) : Enc :=
  (List.range cwPerFrame).foldl (fun e s => Enc.fillSlot ric function { e with f := f, s := s }) e

/-- R117: batch `b`, its sync codeword and its eight frames. -/
def Enc.fillBatch (ric : BitVec 21) (function : BitVec 2) (e : Enc) (b : Nat) : Enc :=
  (List.range framesPerBatch).foldl (Enc.fillFrame ric function) (Enc.emit syncCw { e with b := b })

/-- R113, R117: preamble and batches. -/
def Enc.fill (ric : BitVec 21) (function : BitVec 2) (e : Enc) : Enc :=
  (List.range e.batchCount).foldl (Enc.fillBatch ric function) e.preamble

/-- R118: the results of ENCODE from the encoder registers after filling. -/
def encodeResult (rawOnly : Bool) (bps : Bps) (e : Enc) (s : State) : Host.Outcome State Fault Refusal :=
  if rawOnly then .next ((s.setEnc e).setHostRet (.stream e.out (8 * e.out.length)))
  else
    Res.outcome (do
      let e' ← fskRun e.out bps s.cfg.fskSampleRate e
      pure ((s.setEnc e').setHostRet (.audio e'.pcm e'.pcm.length)))

/-- R110, R111: the checks in their order, then the stream. -/
def execEncode (address : Nat) (type : MsgType) (text : List Byte) (bps : Bps) (charset : Charset)
    (function : BitVec 2) (rawOnly : Bool) (s : State) : Host.Outcome State Fault Refusal :=
  if ricMax < address then s.raise (.addressOutOfRange address)
  else
    match buildMessage type charset text s.enc with
    | .error (.raised e) => s.raise e
    | .error (.refused r) => .refused r
    | .ok e =>
      let ric : BitVec 21 := BitVec.ofNat 21 address
      let e := e.positions ric
      if s.cfg.maxBatches < e.batchCount then s.raise (.maxBatchesExceeded e.batchCount)
      else encodeResult rawOnly bps (e.fill ric function) s

end Sys2Proof.Machine
end

