-- ==== Sys2Proof/Machine/IqMod.lean ====
section
/-! DEFINITION. U-IQ, first stage: 46_iq_modulator.md rules R140 to R147, exactly (log 5) or in the
finite numerics that `NUM` names (log 33). -/

namespace Sys2Proof.Machine

open Sys2Proof

/-- R141. -/
def clipGain (num : Num) (localGain x : RealNum) : RealNum := clipped (num.mul x localGain)

/-- R147: the phase step for full audio, in turns: `step` is 2π times this. At rate 0, which R147 says never
stands when MODIQ runs, the quotient is a free value (log 19). -/
def stepTurns (fmDeviationKHz : RealNum) (rate : Word) : RealNum :=
  if rate = 0#32 then Config.stepAtRateZero fmDeviationKHz
  else times fmDeviationKHz (.rat (1000 / (rate.toNat : Rat)))

/-- R143: the phase after the clipped sample `a`, in turns. -/
def nextPhase (c : Cfg) (rate : Word) (p a : RealNum) : RealNum :=
  wrapped (match c.num with
    | .exact => plus p (times (stepTurns c.fmDeviationKHz rate) a)
    | .finite k => .rat (Config.finitePhase k c.fmDeviationKHz rate p a))

/-- R143: the phase after each sample, in turns. -/
def fmPhases (c : Cfg) (rate : Word) : RealNum → List RealNum → List RealNum
  | _, [] => []
  | p, x :: xs =>
    let p' := nextPhase c rate p (clipGain c.num c.localGain x)
    p' :: fmPhases c rate p' xs

/-- R142: the IQ pair of a sample in AM. -/
def amPair (c : Cfg) (x : RealNum) : List RealVal := [.num (clipGain c.num c.localGain x), .num (.rat 0)]

/-- R144: the IQ pair of a phase in FM, (I, Q) = (sin, cos). -/
def fmPair (num : Num) (p : RealNum) : List RealVal :=
  match num with
  | .exact => [.sinTurns p, .cosTurns p]
  | .finite k => [.num (.rat (Config.finiteSin k p)), .num (.rat (Config.finiteCos k p))]

/-- R140: `MODIQ`. -/
def modiqOp (s : State) : Res State :=
  if s.ibuf.length ≠ bufLen then .error (.fault .ibufHoldsNoValue)
  else if s.cfg.am then .ok { s with iq := s.ibuf.flatMap (amPair s.cfg) }
  else
    let phases := fmPhases s.cfg s.deviceSampleRate s.fmPhase s.ibuf
    .ok { s with iq := phases.flatMap (fmPair s.cfg.num), fmPhase := phases.getLastD s.fmPhase }

/-- R140: "A PROD step, called only from `PREPARE` after `INTERP`", so one of the rows First and Next (R166, R191). -/
def execModiq (s : State) : Host.Outcome State Fault Refusal := s.within [.first, .next] (modiqOp s)

end Sys2Proof.Machine
end

