-- ==== Sys2Proof/Machine/Resampler.lean ====
section
/-! DEFINITION. U-RSP: 45_resampler.md rules R130 to R135, over the exact reals (log 4) or in the finite
numerics that `NUM` names (R137, log 33). -/

namespace Sys2Proof.Machine

open Sys2Proof

/-- R130 to R133: output sample `j` of `len`, from the tail sample `last3` and the `inp.length` inputs. -/
def interpSample (num : Num) (len : Nat) (last3 : RealNum) (inp : List RealNum) (j : Nat) :
    RealNum :=
  let n := inp.length
  let pos : Rat := ((j : Rat) + 1) * ((n : Rat) / (len : Rat))
  if j + 1 = len then inp.getD (n - 1) (.rat 0)
  else
    match num with
    | .finite k => .rat (Config.finiteInterp k len last3 inp j)
    | .exact =>
      if pos < 1 then plus last3 (times (minus (inp.getD 0 (.rat 0)) last3) (.rat pos))
      else
        let i := pos.floor.toNat
        plus (inp.getD (i - 1) (.rat 0))
          (times (minus (inp.getD i (.rat 0)) (inp.getD (i - 1) (.rat 0))) (.rat (pos - (i : Rat))))

/-- R130: the interpolated sub-chunk. -/
def interpolate (num : Num) (len : Nat) (last3 : RealNum) (inp : List RealNum) : List RealNum :=
  (List.range len).map (interpSample num len last3 inp)

/-- R134, D8: one input sample shifted into the tail. -/
def Tail.push (t : Tail) (x : RealNum) : Tail := ⟨t.t1, t.t2, t.t3, x⟩

/-- R134: the tail after a sub-chunk; four samples or more replace it whole, fewer are shifted in. -/
def Tail.update (t : Tail) (inp : List RealNum) : Tail := inp.foldl Tail.push t

/-- R135, D7: the tail at the start of a chunk. -/
def Tail.fresh (x : RealNum) : Tail := ⟨x, x, x, x⟩

/-- R130: the input of the sub-chunk, `sample_count` samples from `subChunkOffset` on. -/
def subChunkInput (c : Chunk) (offset count : Nat) : List RealNum := (c.samples.drop offset).take count

/-- R130: `INTERP`. It needs a chunk and 1 to the rest of its samples (R130, R164; log 19). -/
def interpOp (s : State) : Res State :=
  match s.currentChunk with
  | none => .error (.refuse .notEnabled)
  | some c =>
    if s.sampleCount = 0 ∨ c.samples.length < s.subChunkOffset + s.sampleCount then
      .error (.refuse .notEnabled)
    else
      let inp := subChunkInput c s.subChunkOffset s.sampleCount
      .ok { s with ibuf := interpolate s.cfg.num bufLen s.last.t3 inp, last := s.last.update inp }

/-- R130: "A PROD step, called only from `PREPARE`", so one of the rows First and Next (R166, R191). -/
def execInterp (s : State) : Host.Outcome State Fault Refusal := s.within [.first, .next] (interpOp s)

end Sys2Proof.Machine
end

