-- ==== Sys2Proof/Machine/Flags.lean ====
section
/-! DEFINITION. The four control flags of 10_state.md rule R21. The block has no condition codes (R35): no
other flag exists, and none is set as a side effect of arithmetic. -/

namespace Sys2Proof.Machine

open Sys2Proof

/-- R150, D22: a publication clears `ready`. -/
def State.clearReady (s : State) : State := { s with ready := false }

/-- R152: a drain that leaves the ring empty sets `ready`; one that does not leaves it. -/
def State.readyIfEmpty (s : State) : State := { s with ready := if s.fill = 0 then true else s.ready }

/-- R161: PROD found the queue empty. -/
def State.noteQueueEmpty (s : State) : State := { s with emptyQueue := true }

/-- R160, R161, D28: a chunk was pushed, or adopted. -/
def State.noteChunk (s : State) : State := { s with emptyQueue := false }

/-- R162: `iq` holds a sub-chunk that has not been published. -/
def State.setPrepared (s : State) : State := { s with prepared := true }

/-- R150, R161, R173: no such sub-chunk. -/
def State.clearPrepared (s : State) : State := { s with prepared := false }

/-- R172. -/
def State.setStop (s : State) : State := { s with stop := true }

/-- R170: the flags as START resets them. -/
def State.startFlags (s : State) : State := { s with ready := true, stop := false, prepared := false }

end Sys2Proof.Machine
end

