-- ==== Sys2Proof/Machine/Ring.lean ====
section
/-! DEFINITION. U-IQ, second stage: the quantizer, publication and the device callback, 47_quantizer_ring.md
rules R148 to R155. -/

namespace Sys2Proof.Machine

open Sys2Proof

/-! ### The quantizer (R148) -/

/-- A rational just below π, within 10^-20 of it (log 6). -/
def piApprox : Rat := 314159265358979323846 / 100000000000000000000

/-- How far `sinNear` may be from the sine (log 6). -/
def trigErr : Rat := 1 / 1000000000000000000

/-- The Taylor sum of sin x through x^(2n+1), by Horner. -/
def sinSum (n : Nat) (x : Rat) : Rat :=
  x * ((List.range n).foldr
    (fun k acc => 1 - x * x * acc / (((2 * k + 2) * (2 * k + 3) : Nat) : Rat)) 1)

/-- The Taylor sum of cos x through x^(2n), by Horner. -/
def cosSum (n : Nat) (x : Rat) : Rat :=
  (List.range n).foldr
    (fun k acc => 1 - x * x * acc / (((2 * k + 1) * (2 * k + 2) : Nat) : Rat)) 1

/-- A rational near sin (2π u) for 0 ≤ u < 1/4. -/
def sinQuarter (u : Rat) : Rat := sinSum 13 (2 * piApprox * u)

/-- A rational near cos (2π u) for 0 ≤ u < 1/4. -/
def cosQuarter (u : Rat) : Rat := cosSum 13 (2 * piApprox * u)

/-- A rational within `trigErr` of sin (2π t), by the quarter turn `t` lies in. -/
def sinNear (t : Rat) : Rat :=
  let r := t - (t.floor : Rat)
  if r < 1 / 4 then sinQuarter r
  else if r < 1 / 2 then cosQuarter (r - 1 / 4)
  else if r < 3 / 4 then -sinQuarter (r - 1 / 2)
  else -cosQuarter (r - 3 / 4)

/-- Is `round (127 v)` at least `k`? A tie goes away from zero (D6). -/
def roundsTo (v : RealVal) (k : Int) : Bool :=
  let tie : Rat := ((k : Rat) - 1 / 2) / 127
  if 1 ≤ k then decide (cmpReal v tie ≠ .lt) else decide (cmpReal v tie = .gt)

/-- `round (127 v)` for a `v` within `trigErr` of `near`: where both ends round alike that integer, else the one
of the two that the comparison with the tie between them says. -/
def roundNear (near : Rat) (v : RealVal) : Int :=
  let lo := roundHalfAway ((near - trigErr) * 127)
  let hi := roundHalfAway ((near + trigErr) * 127)
  if lo = hi then lo else if roundsTo v hi then hi else lo

/-- `round (127 v)` for any real `v`, clamped to [-128, 127]: -128 and one more for each integer from -127 to 127
that `round (127 v)` is at least. -/
def roundAny (v : RealVal) : Int :=
  Int.ofNat ((List.range 255).countP (fun (j : Nat) => roundsTo v (Int.ofNat j - 127))) - 128

/-- R148: `round (v × 127)` in exact arithmetic, where it lies in [-128, 127]; outside, a number that the clamp
takes to the same end. -/
def roundExact (v : RealVal) : Int :=
  match v with
  | .num (.rat q) => roundHalfAway (q * 127)
  | .sinTurns (.rat t) => roundNear (sinNear t) v
  | .cosTurns (.rat t) => roundNear (sinNear (t + 1 / 4)) v
  | v => roundAny v

/-- R148: `round (v × 127)` in a finite numerics (log 33). -/
def roundFinite (k : Nat) (v : RealVal) : Int :=
  roundHalfAway (Config.finiteMul k (match v with
    | .num v => v
    | .sinTurns t => .rat (Config.finiteSin k t)
    | .cosTurns t => .rat (Config.finiteCos k t)) (.rat 127))

/-- R148: `round (v × 127)`, up to the clamp. -/
def roundReal (num : Num) (v : RealVal) : Int :=
  match num with
  | .exact => roundExact v
  | .finite k => roundFinite k v

/-- R148 `QUANT`, as a signed number. -/
def quantInt (num : Num) (v : RealVal) : Int := clampInt (roundReal num v) (-128) 127

/-- R148 `QUANT`, as the signed byte. -/
def quantByte (num : Num) (v : RealVal) : Byte := BitVec.ofInt 8 (quantInt num v)

/-- R148: a PROD step (R8), taken inside PUBLISH (R150), so one of the rows Pub0 and Pub1 (R166, R191). -/
def execQuant (v : RealVal) (s : State) : Host.Outcome State Fault Refusal :=
  s.within [.pub0, .pub1] (.ok (s.setProdRet (.sample (quantByte s.cfg.num v))))

/-! ### Publication (R149, R150) -/

/-- R149: the half `h` of the IQ array. -/
def iqHalf (h : Fin 2) (iq : List RealVal) : List RealVal := (iq.drop (h.val * bufLen)).take bufLen

/-- R150: the ring after slot `head` has been written. -/
def State.putSlot (bs : List Byte) (s : State) : State :=
  { s with
    ring := s.ring.write (slotBase s.head) bs
    head := s.head + 1#8
    fill := s.fill + 1 }

/-- R150: `PUBLISH h`. -/
def publishOp (h : Fin 2) (s : State) : Res State :=
  if s.fill = bufNum then .error (.refuse .ringFull)
  else if s.iq.length ≠ 2 * bufLen then .error (.fault .iqHoldsNoValue)
  else
    let s' := (s.putSlot ((iqHalf h s.iq).map (quantByte s.cfg.num))).clearReady
    .ok (if h = 1 then s'.clearPrepared else s')

/-! ### The device callback (R152 to R154) -/

/-- R152: the ring after slot `tail` has been taken. -/
def State.takeSlot (s : State) : State :=
  State.readyIfEmpty { s with tail := s.tail + 1#8, fill := s.fill - 1 }

/-- R152, R153: the callback has written `bs` and returns 0. -/
def State.deliver (bs : List Byte) (s : State) : State :=
  ({ s with dst := bs }).setConsRet (.callback 0#32)

/-- R152 to R154: `DRAIN`. -/
def drainOp (len : Word) (s : State) : Res State :=
  if slotCap < len.toNat then .error (.refuse .drainTooLong)
  else if s.fill = 0 then .ok (s.deliver (List.replicate len.toNat 0#8))
  else
    match s.ring.readMany (slotBase s.tail) (min len.toNat bufLen) with
    | none => .error (.fault .slotHoldsNoValue)
    | some bs =>
      let extra := len.toNat - bufLen
      .ok (((s.deliver (bs ++ s.freeBytes extra)).drew extra).takeSlot)

/-- R152. -/
def execDrain (len : Word) (s : State) : Host.Outcome State Fault Refusal := Res.outcome (drainOp len s)

end Sys2Proof.Machine
end

