-- ==== Sys2Proof/Machine/Sequencer.lean ====
section
/-! DEFINITION. The streaming sequencer: 48_sequencer.md rules R160 to R178. A row of the table of R166 is
one function; ADOPT, PREPARE and PUBLISH are the rows that hold them (log 12), PROCESS is the row that PROD
stands at (log 13). -/

namespace Sys2Proof.Machine

open Sys2Proof

/-! ### The queue and the chunk -/

/-- R160. -/
def execPush (c : Chunk) (s : State) : Host.Outcome State Fault Refusal :=
  .next (({ s with txQueue := s.txQueue ++ [c] }).noteChunk.setHostRet .none)

/-- R161: the chunk `c` becomes the current one; an empty chunk is dropped (D28). -/
def State.adoptChunk (c : Chunk) (s : State) : State :=
  match c.samples with
  | [] => { s with currentChunk := none, subChunkOffset := 0, fmPhase := .rat 0, prepared := false }
  | x :: _ =>
    { s with
      currentChunk := some c
      subChunkOffset := 0
      fmPhase := .rat 0
      prepared := false
      last := Tail.fresh x }

/-- R161 `ADOPT`; the result says whether a chunk was taken from the queue. -/
def adoptOp (s : State) : State :=
  match s.txQueue with
  | [] => s.noteQueueEmpty.setProdRet (.bool false)
  | c :: q => (State.adoptChunk c ({ s with txQueue := q }).noteChunk).setProdRet (.bool true)

/-! ### Prepare-next -/

/-- R163: the device rate of a sub-chunk of `count` samples, as an exact rational rounded once (C12, D9). -/
def deviceRate (pcmRate count : Nat) : Int :=
  roundHalfAway (((pcmRate * bufLen : Nat) : Rat) / (count : Rat))

/-- R163: the rate is set on the device when it changes. -/
def setDeviceRate (new : Int) (s : State) : Res State :=
  if 4294967295 < new then .error (.refuse .deviceRateOverflow)
  else
    let w : Word := BitVec.ofInt 32 new
    if w = s.deviceSampleRate then .ok s
    else .ok (({ s with deviceSampleRate := w }).tell (.setSampleRate w bbFilterHz))

/-- R162 `PREPARE`, with its result. It needs a current chunk. -/
def prepareOp (s : State) : Res (Bool × State) :=
  match s.currentChunk with
  | none => .error (.refuse .notEnabled)
  | some c =>
    if c.samples.length ≤ s.subChunkOffset then .ok (false, s.setProdRet (.bool false))
    else do
      let count := min s.cfg.subChunkSamples (c.samples.length - s.subChunkOffset)
      let s1 ← setDeviceRate (deviceRate c.pcmRate count) { s with sampleCount := count }
      let s2 ← interpOp s1
      let s3 ← modiqOp s2
      pure (true, ({ s3 with subChunkOffset := s3.subChunkOffset + count }).setPrepared.setProdRet
        (.bool true))

/-! ### The rows of the producer (R166) -/

/-- PROD moves to a position. -/
def State.goto (p : Ppos) (s : State) : State := { s with ppos := p }

/-- Row `Boot`, R171. A row that is not enabled is a spin that changes nothing (R166). -/
def rowBoot (s : State) : State :=
  if s.runState = .starting then
    let ok := s.answer
    let s' := s.ask .startTx
    if ok then
      ({ s' with devRunning := true, runState := .running }).goto .top |>.setHostRet (.bool true)
    else ({ s' with runState := .idle }).goto .off |>.setHostRet (.bool false)
  else s

/-- Row `Top` once PROD adopts: R161, R166. -/
def rowAdopt (s : State) : State :=
  let s' := adoptOp s
  if s'.currentChunk = none then s' else s'.goto .first

/-- Row `Top`. The worker enters row Exit at its first step. -/
def State.toExit (s : State) : State := ({ s with exitSecond := false }).goto .exit

/-- Row `Top`, R166. -/
def rowTop (s : State) : State :=
  if s.stop then s.toExit
  else if s.currentChunk ≠ none then s.goto .wait
  else rowAdopt s

/-- Row `First`, R166. -/
def rowFirst (s : State) : Res State := do
  let r ← prepareOp s
  pure (r.2.goto .wait)

/-- Row `Wait`, R166, R167; `IsRunning` answers `devRunning` (R196, R197). -/
def rowWait (s : State) : State :=
  if s.stop then s.toExit
  else if s.ready then
    let asked := s.tell .isRunning
    if s.devRunning then asked.goto .pub0
    else
      let ok := asked.answer
      let s' := asked.ask .startTx
      (if ok then { s' with devRunning := true } else s').goto .pub0
  else s

/-- Rows `Pub0` and `Pub1`, R166. -/
def rowPub (h : Fin 2) (s : State) : Res State := do
  let s' ← publishOp h s
  pure (s'.goto (if h = 0 then .pub1 else .next))

/-- Row `Next`, R165, R166. -/
def rowNext (s : State) : Res State := do
  let r ← prepareOp s
  if r.1 then pure (r.2.goto .wait)
  else
    pure (({ r.2 with currentChunk := none }).goto
      (if s.cfg.turnOffTxWhenIdle ∧ s.txQueue = [] then .endWait else .top))

/-- Row `EndWait`, R165, D40. -/
def rowEndWait (s : State) : State :=
  if s.stop then s.toExit
  else if s.ready then
    let ok := s.answer
    let s' := s.ask .stopTx
    (if ok then { s' with devRunning := false } else s').goto .top
  else s

/-- R173: with the device halted nothing will drain the ring, so it is flushed. -/
def State.flushRing (s : State) : State := { s with tail := s.head, fill := 0, ready := true }

/-- R173: the worker's end; STOP returns `r`. -/
def State.workerEnds (r : Bool) (s : State) : State :=
  (({ s with runState := .idle, exitSecond := false }).goto .off).setHostRet (.bool r)

/-- Row `Exit`, R173: its first step, then its second, which waits for an empty ring. -/
def rowExit (s : State) : State :=
  if s.exitSecond = false then
    let s' := ({ s with currentChunk := none, exitSecond := true }).clearPrepared
    if s'.devRunning then s' else s'.flushRing
  else if s.fill = 0 then
    if s.devRunning then
      let r := s.answer
      let s' := s.ask .stopTx
      State.workerEnds r (if r then { s' with devRunning := false } else s')
    else s.workerEnds true
  else s

/-- R166: one PROD step, the row that `ppos` stands at; at `Off` there is no worker and nothing happens. -/
def prodRow (s : State) : Res State :=
  match s.ppos with
  | .off => .ok s
  | .boot => .ok (rowBoot s)
  | .top => .ok (rowTop s)
  | .first => rowFirst s
  | .wait => .ok (rowWait s)
  | .pub0 => rowPub 0 s
  | .pub1 => rowPub 1 s
  | .next => rowNext s
  | .endWait => .ok (rowEndWait s)
  | .exit => .ok (rowExit s)

/-- R161, R166: ADOPT is a PROD step "taken only at `ppos = Top` with `currentChunk = none`", and not once
`stop` is seen (log 12). -/
def execAdopt (s : State) : Host.Outcome State Fault Refusal :=
  if s.ppos = .top ∧ s.stop = false ∧ s.currentChunk = none then .next (rowAdopt s)
  else .refused .notEnabled

/-- R162, R166: PREPARE is the PROD step of rows First and Next (log 12). -/
def execPrepare (s : State) : Host.Outcome State Fault Refusal :=
  if s.ppos = .first then Res.outcome (rowFirst s)
  else if s.ppos = .next then Res.outcome (rowNext s)
  else .refused .notEnabled

/-- R150, R166: PUBLISH 0 is the PROD step of row Pub0, PUBLISH 1 that of row Pub1 (log 12). -/
def execPublish (h : Fin 2) (s : State) : Host.Outcome State Fault Refusal :=
  if s.ppos = (if h = 0 then .pub0 else .pub1) then Res.outcome (rowPub h s)
  else .refused .notEnabled

/-- R166: PROCESS is the PROD step at `ppos` (log 13). -/
def execProcess (s : State) : Host.Outcome State Fault Refusal := Res.outcome (prodRow s)

/-! ### Start and stop -/

/-- R170: the HOST part of START; the answer comes with row Boot. -/
def execStart (s : State) : Host.Outcome State Fault Refusal :=
  if s.runState = .idle then
    .next ((({ s with fmPhase := .rat 0, runState := .starting }).startFlags.goto .boot).setHostRet .pending)
  else .next (s.setHostRet (.bool false))

/-- R172: STOP of a running block, until the worker resolves it. -/
def State.beginStop (s : State) : State := ({ s with runState := .stopping }).setStop.setHostRet .pending

/-- R172: the HOST part of STOP; the answer comes with row Exit. -/
def execStop (s : State) : Host.Outcome State Fault Refusal :=
  if s.runState = .running then .next s.beginStop
  else .next (s.setHostRet (.bool true))

/-! ### Configuration, idle, waiting -/

/-- R17, R175: the encoder's registers are not gated by `RunState`. -/
def cfgGated : CfgReg → Bool
  | .fskSampleRate => false
  | .maxBatches => false
  | .localGain => true
  | .subChunkSamples => true
  | .fmDeviationKHz => true
  | .am => true
  | .turnOffTxWhenIdle => true
  | .frequency => true
  | .gain => true
  | .amp => true

/-- R17, R18, R19: the legal values (D27). -/
def cfgLegal : CfgWrite → Bool
  | .subChunkSamples v => decide (1 ≤ v ∧ v ≤ (bufLen : Int))
  | .fmDeviationKHz v => decide (cmpReal (.num v) 0 ≠ .lt)
  | .fskSampleRate v => decide (2400 ≤ v)
  | .maxBatches v => decide (1 ≤ v)
  | .localGain _ => true
  | .am _ => true
  | .turnOffTxWhenIdle _ => true
  | .frequency _ => true
  | .gain _ => true
  | .amp _ => true

/-- R175: the register takes the value. -/
def Cfg.set (w : CfgWrite) (c : Cfg) : Cfg :=
  match w with
  | .localGain v => { c with localGain := v }
  | .subChunkSamples v => { c with subChunkSamples := v.toNat }
  | .fmDeviationKHz v => { c with fmDeviationKHz := v }
  | .am v => { c with am := v }
  | .turnOffTxWhenIdle v => { c with turnOffTxWhenIdle := v }
  | .frequency v => { c with frequency := v }
  | .gain v => { c with gain := v }
  | .amp v => { c with amp := v }
  | .fskSampleRate v => { c with fskSampleRate := v.toNat }
  | .maxBatches v => { c with maxBatches := v.toNat }

/-- R19, R175, R197: the device command of a forwarded register. -/
def cfgCommand : CfgWrite → Option DevCmd
  | .frequency v => some (.setFrequency v)
  | .gain v => some (.setGain v)
  | .amp v => some (.setAmp v)
  | .localGain _ => none
  | .subChunkSamples _ => none
  | .fmDeviationKHz _ => none
  | .am _ => none
  | .turnOffTxWhenIdle _ => none
  | .fskSampleRate _ => none
  | .maxBatches _ => none

/-- A device command, if there is one. -/
def State.tellSome (c : Option DevCmd) (s : State) : State :=
  match c with
  | none => s
  | some c => s.tell c

/-- R175, R187: the run state is checked before the value. -/
def execSetcfg (w : CfgWrite) (s : State) : Host.Outcome State Fault Refusal :=
  if cfgGated w.reg ∧ s.runState = .running then s.raise (.configWhileRunning w.reg)
  else if cfgLegal w = false then .refused .configValueOutOfRange
  else .next ((({ s with cfg := s.cfg.set w }).tellSome (cfgCommand w)).setHostRet .none)

/-- R176. -/
def State.isIdle (s : State) : Bool :=
  decide (s.runState = .running ∧ s.txQueue = [] ∧ s.currentChunk = none)

/-- R176. -/
def execIsidle (s : State) : Host.Outcome State Fault Refusal := .next (s.setHostRet (.bool s.isIdle))

/-- R177: the step at which the call resolves, true in Idle, false (the timeout) otherwise (log 15). -/
def execWaitend (_timeout : Nat) (s : State) : Host.Outcome State Fault Refusal :=
  .next (s.setHostRet (.bool (decide (s.runState = .idle))))

/-- R178: the step at which the call resolves, true where ISIDLE holds, false (the timeout) otherwise
(log 15). -/
def execWaitidle (_timeout : Nat) (s : State) : Host.Outcome State Fault Refusal :=
  .next (s.setHostRet (.bool s.isIdle))

end Sys2Proof.Machine
end

