-- ==== Sys2Proof/Machine/Dispatch.lean ====
section
/-! DEFINITION. One arm per operation: 30_encoding.md rules R62 and R76. -/

namespace Sys2Proof.Machine

open Sys2Proof

def exec (i : Instr) (s : State) : Host.Outcome State Fault Refusal :=
  match i with
  | .sync => Sys2Proof.Machine.execSyncCw s
  | .idle => Sys2Proof.Machine.execIdleCw s
  | .message data bch parity => Sys2Proof.Machine.execMessageCw data bch parity s
  | .address addr function bch parity => Sys2Proof.Machine.execAddressCw addr function bch parity s
  | .revbits x n => Sys2Proof.Machine.execRevbits x n s
  | .bchrem w => Sys2Proof.Machine.execBchrem w s
  | .parity v => Sys2Proof.Machine.execParity v s
  | .sign w => Sys2Proof.Machine.execSign w s
  | .emit32le buf w => Sys2Proof.Machine.execEmit32le buf w s
  | .read32le buf a => Sys2Proof.Machine.execRead32le buf a s
  | .recodeRaw text => Sys2Proof.Machine.execRecodeRaw text s
  | .recodeLatin text => Sys2Proof.Machine.execRecodeLatin text s
  | .recodeCyr text => Sys2Proof.Machine.execRecodeCyr text s
  | .buildNum msg => Sys2Proof.Machine.execBuildNum msg s
  | .buildAlpha msg => Sys2Proof.Machine.execBuildAlpha msg s
  | .mkaddr ric function => Sys2Proof.Machine.execMkaddr ric function s
  | .mkmsg mbuf offset maxBits numeric => Sys2Proof.Machine.execMkmsg mbuf offset maxBits numeric s
  | .mkidle => Sys2Proof.Machine.execMkidle s
  | .mksync => Sys2Proof.Machine.execMksync s
  | .encode address type text bps charset function rawOnly => Sys2Proof.Machine.execEncode address type text bps charset function rawOnly s
  | .fskmod framed bps => Sys2Proof.Machine.execFskmod framed bps s
  | .interp => Sys2Proof.Machine.execInterp s
  | .modiq => Sys2Proof.Machine.execModiq s
  | .quant v => Sys2Proof.Machine.execQuant v s
  | .publish h => Sys2Proof.Machine.execPublish h s
  | .drain len => Sys2Proof.Machine.execDrain len s
  | .push c => Sys2Proof.Machine.execPush c s
  | .adopt => Sys2Proof.Machine.execAdopt s
  | .prepare => Sys2Proof.Machine.execPrepare s
  | .process => Sys2Proof.Machine.execProcess s
  | .start => Sys2Proof.Machine.execStart s
  | .stop => Sys2Proof.Machine.execStop s
  | .setcfg w => Sys2Proof.Machine.execSetcfg w s
  | .isidle => Sys2Proof.Machine.execIsidle s
  | .waitend timeout => Sys2Proof.Machine.execWaitend timeout s
  | .waitidle timeout => Sys2Proof.Machine.execWaitidle timeout s

end Sys2Proof.Machine
end

