-- ==== Sys2Proof/Machine/Fetch.lean ====
section
/-! DEFINITION. The command port (log 1): what stands at it, and taking the oldest operation from it. The
block has no program counter and fetches nothing (10_state.md rule R36); each operation is a step of the
agent that issues it (00_scope.md rule R8). -/

namespace Sys2Proof.Machine

open Sys2Proof

/-- What `step` finds at the command port. -/
inductive Fetched where
  /-- Nothing: the block waits for an operation (R200). -/
  | nothing
  /-- An operation, and the state with it taken from the port. -/
  | op (i : Instr) (s : State)
  /-- R199: power-off, and the state with it taken from the port. -/
  | powerOff (s : State)
  /-- Something that names no operation. -/
  | undecodable (why : DecodeError)

/-- What stands oldest at the command port. -/
def fetch (s : State) : Fetched :=
  match s.port with
  | [] => .nothing
  | .powerOff :: rest => .powerOff { s with port := rest }
  | .issue t :: rest =>
    match decode t with
    | .error e => .undecodable e
    | .ok i => .op i { s with port := rest }

end Sys2Proof.Machine
end

