-- ==== Sys2Proof/Machine/Power.lean ====
section
/-! DEFINITION. Power-off: 60_exceptions.md rule R199, 70_reset_and_hazards.md rule R202 (log 31). -/

namespace Sys2Proof.Machine

open Sys2Proof

/-- R199: the state after `Close`: nothing of the block survives. What is not the block's stays: the device's
buffer and the commands it has seen, the answers it is about to give, and what stands at the port (log 31). -/
def State.closed (s : State) : State :=
  { State.reset with
    power := .off
    devLog := s.devLog ++ [.close]
    dst := s.dst
    port := s.port
    devAnswers := s.devAnswers
    draws := s.draws }

/-- R199: power-off begins, in any run state; the steps that follow are `State.powerStep`. -/
def powerOff (s : State) : Host.Outcome State Fault Refusal :=
  if s.power = .off then .refused .poweredOff else .next { s with power := .closing }

/-- R199: the step that power-off, once begun, takes by itself: a running block is stopped (R172), and an Idle one
is closed, for the destructor "must first transition to Idle". While Starting or Stopping it waits for the
worker. -/
def State.powerStep (s : State) : Option State :=
  if s.power = .closing then
    match s.runState with
    | .idle => some s.closed
    | .running => some s.beginStop
    | .starting => none
    | .stopping => none
  else none

end Sys2Proof.Machine
end

