-- ==== Sys2Proof/Machine/Step.lean ====
section
/-! DEFINITION. One step of the block: the oldest operation at the command port is taken and run. -/

namespace Sys2Proof.Machine

open Sys2Proof

/-- One step (log 1): what power-off, once begun, does by itself (R199); else the operation at the head of the
port, power-off where that stands there, or a wait where there is nothing (R200). Once powered off the block runs
no operation. -/
def step (s : State) : Host.Outcome State Fault Refusal :=
  match s.powerStep with
  | some t => .next t
  | none =>
    match fetch s with
    | .nothing => .next s
    | .undecodable why => .refused (.undecodable why)
    | .powerOff s' => powerOff s'
    | .op i s' => if s.power = .off then .refused .poweredOff else exec i s'

/-- The state with the operation of these bits as the next one at the command port. -/
def State.withFetchWord (s : State) (nbits w : Nat) : State :=
  { s with port := .issue (tableTransfer nbits w) :: s.port }

end Sys2Proof.Machine
end

