-- ==== Sys2Proof/Safety.lean ====
section
/-! DEFINITION. What the statements are said in: the invariant of the block (10_state.md rules R31, R38, R39;
48_sequencer.md rules R166 to R174; 70_reset_and_hazards.md rule R203), words read as polynomials (40_bit_utilities.md rule R81), and the tables and formulas of the spec that the
meanings are held against. -/

namespace Sys2Proof.Machine

open Sys2Proof

/-! ### The invariant -/

/-- R17, R18: every configuration register has a legal value. -/
structure Cfg.Legal (c : Cfg) : Prop where
  fskSampleRate : 2400 ≤ c.fskSampleRate
  maxBatches : 1 ≤ c.maxBatches
  subChunkSamples : 1 ≤ c.subChunkSamples ∧ c.subChunkSamples ≤ bufLen
  fmDeviationKHz : 0 ≤ c.fmDeviationKHz.real

/-- R166: the positions at which PROD works on a chunk. -/
def Ppos.inChunk (p : Ppos) : Prop := p = .first ∨ p = .wait ∨ p = .pub0 ∨ p = .pub1 ∨ p = .next

/-- R166: the positions at which a sub-chunk stands prepared and not wholly published. -/
def Ppos.holdsSubChunk (p : Ppos) : Prop := p = .wait ∨ p = .pub0 ∨ p = .pub1

/-- What every step of the block keeps. -/
structure State.Inv (s : State) : Prop where
  /-- The ring memory has its canonical form. -/
  ringForm : Memory.wf s.ring
  /-- R48: nothing is held outside the 256 slots. -/
  ringRange : ∀ c ∈ s.ring, c.1 < bufNum * slotCap
  /-- R30, R33: the first `BUF_LEN` bytes of every published slot hold values. -/
  slotsWritten : ∀ k, k < s.fill → ∀ a, a < bufLen →
    (Memory.read s.ring (slotBase (s.tail + BitVec.ofNat 8 k) + a)).isSome
  /-- R38. -/
  fillLe : s.fill ≤ 2
  /-- R31. -/
  headEq : s.head = s.tail + BitVec.ofNat 8 s.fill
  /-- R39. -/
  readyIff : s.ready = true ↔ s.fill = 0
  /-- R168. -/
  pub0Empty : s.ppos = .pub0 → s.fill = 0
  /-- R168. -/
  pub1One : s.ppos = .pub1 → s.fill ≤ 1
  /-- R203. -/
  idleEmpty : s.runState = .idle ∨ s.runState = .starting → s.fill = 0
  /-- R170, R171, R173: a worker exists exactly while `RunState` is not Idle. -/
  offIff : s.ppos = .off ↔ s.runState = .idle
  /-- R170, R171. -/
  bootIff : s.ppos = .boot ↔ s.runState = .starting
  /-- R170, R172: `stop` is clear while Starting or Running. -/
  stopClear : s.runState = .starting ∨ s.runState = .running → s.stop = false
  /-- R172. -/
  stopSet : s.runState = .stopping → s.stop = true
  /-- R166. -/
  exitStopping : s.ppos = .exit → s.runState = .stopping
  /-- R173: the second step of row Exit stands after the first. -/
  exitSecond : s.exitSecond = true → s.ppos = .exit ∧ s.currentChunk = none ∧ s.prepared = false
  /-- R165, R166, R173: where a current chunk may be. -/
  chunkPos : s.currentChunk ≠ none → s.ppos.inChunk ∨ s.ppos = .exit
  /-- R166: PROD works on a chunk only where there is one. -/
  posChunk : s.ppos.inChunk → s.currentChunk ≠ none
  /-- R161, R162, R23: the current chunk is not empty, and the offset stays in it. -/
  chunkOk : ∀ c, s.currentChunk = some c →
    c.samples ≠ [] ∧ s.subChunkOffset ≤ c.samples.length ∧ 0 < c.pcmRate
  /-- R24: the rate of every queued chunk is positive. -/
  queueOk : ∀ c ∈ s.txQueue, 0 < c.pcmRate
  /-- R161, R166. -/
  firstOffset : s.ppos = .first → s.subChunkOffset = 0
  /-- R166, R169. -/
  preparedAt : s.ppos.holdsSubChunk → s.prepared = true
  /-- R29, R147: `prepared` says that `iq` holds a sub-chunk, and then a device rate has been set. -/
  preparedHolds : s.prepared = true → s.iq.length = 2 * bufLen ∧ s.deviceSampleRate ≠ 0#32
  /-- R28, R33. -/
  ibufLen : s.ibuf = [] ∨ s.ibuf.length = bufLen
  /-- R29, R33. -/
  iqLen : s.iq = [] ∨ s.iq.length = 2 * bufLen
  /-- R145: in exact arithmetic the magnitude of every IQ value is at most 1. -/
  iqRange : s.cfg.num = .exact → ∀ v ∈ s.iq, |v.real| ≤ 1
  /-- R27, R143: the phase lies in (-π, π]. -/
  phaseRange : -(1 / 2) < s.fmPhase.real ∧ s.fmPhase.real ≤ 1 / 2
  /-- R23. -/
  sampleCountLe : s.sampleCount ≤ bufLen
  /-- R176: the flag `emptyQueue` tells the truth when it is set. -/
  emptyQueueTrue : s.emptyQueue = true → s.txQueue = [] ∧ s.currentChunk = none
  /-- R17, R18. -/
  cfgLegal : s.cfg.Legal

/-! ### The command port -/

/-- R199, log 31: the next step looks at the command port: power-off has not begun, or has and waits for the
worker. -/
def State.looksAtPort (s : State) : Prop :=
  s.power ≠ .closing ∨ s.runState = .starting ∨ s.runState = .stopping

/-! ### Words as sets of bits and as polynomials -/

/-- How many bits of a word are set (R9 `popcount`). -/
def setBits (w : Word) : Nat := ∑ i : Fin 32, (w.getLsbD i.val).toNat

/-- R81: bits 31:1 of a word as a polynomial over GF(2), bit 31 the coefficient of x^30. -/
noncomputable def codePoly (w : Word) : Polynomial (ZMod 2) :=
  ∑ i : Fin 31, if w.getLsbD (i.val + 1) then Polynomial.X ^ i.val else 0

/-- R81: the generator polynomial. -/
noncomputable def genPoly : Polynomial (ZMod 2) :=
  Polynomial.X ^ 10 + Polynomial.X ^ 9 + Polynomial.X ^ 8 + Polynomial.X ^ 6 + Polynomial.X ^ 5
    + Polynomial.X ^ 3 + 1

/-! ### Tables and formulas of the spec -/

/-- R67: the numeric characters, byte by byte as the table lists them, with their values. -/
def numericTable : List (Byte × Nat) :=
  [(0x30#8, 0), (0x31#8, 1), (0x32#8, 2), (0x33#8, 3), (0x34#8, 4), (0x35#8, 5), (0x36#8, 6), (0x37#8, 7),
   (0x38#8, 8), (0x39#8, 9), (0x2A#8, 0xA), (0x55#8, 0xB), (0x75#8, 0xB), (0x20#8, 0xC), (0x0A#8, 0xC),
   (0x2D#8, 0xD), (0x29#8, 0xE), (0x5D#8, 0xE), (0x28#8, 0xF), (0x5B#8, 0xF)]

/-- R96: the length of an alphanumeric bit buffer, with its terminator. -/
def alphaLength (msg : List Byte) : Nat :=
  7 * msg.length
    + (match msg.getLast? with
      | none => 0
      | some c => if c &&& 0x7F#8 = 0#8 then 0 else 7)

/-- R95 to R98, R112: the length of the bit buffer ENCODE builds, none where it builds none. -/
def messageLength (type : MsgType) (charset : Charset) (text : List Byte) : Option Nat :=
  match type with
  | .tone => some 0
  | .numeric =>
    if text.all (fun c => (numericTable.lookup c).isSome) then some (4 * text.length) else none
  | .alphanumeric =>
    match charset with
    | .raw => some (alphaLength text)
    | .latin => some (alphaLength (recodeLatin text))
    | .cyrillic => none

/-- R114, R115: the number of batches of a message of `m` bits to `address`. -/
def batchesFor (address : Nat) (m : Nat) : Nat :=
  let totalBits := address % 8 * 40 + 20 + m
  let lastSlot := (totalBits + 19) / 20 - 1
  (totalBits + 319) / 320 + if lastSlot % 16 / 2 = 7 then 1 else 0

/-- What an operation of HOST or ENC delivers to its caller, without the state it leaves. -/
def delivered (o : Host.Outcome State Fault Refusal) : Host.Outcome Ret Fault Refusal :=
  match o with
  | .next t => .next t.hostRet
  | .fault f => .fault f
  | .refused r => .refused r

/-- `n` callbacks of length `len` in a row: what each of them wrote, and the state after them; none where one of
them stops. -/
def callbacks (len : Word) : Nat → State → Option (List (List Byte) × State)
  | 0, s => some ([], s)
  | n + 1, s =>
    match exec (.drain len) s with
    | .next t => (callbacks len n t).map (fun r => (t.dst :: r.1, r.2))
    | .fault _ => none
    | .refused _ => none

/-- R8, R62: the operations of the encoder datapath (agent ENC, and ENCODE and FSKMOD of HOST), and the
codeword rows of R76. -/
def isEncoderOp : Instr → Bool
  | .sync => true
  | .idle => true
  | .message _ _ _ => true
  | .address _ _ _ _ => true
  | .revbits _ _ => true
  | .bchrem _ => true
  | .parity _ => true
  | .sign _ => true
  | .emit32le _ _ => true
  | .read32le _ _ => true
  | .recodeRaw _ => true
  | .recodeLatin _ => true
  | .recodeCyr _ => true
  | .buildNum _ => true
  | .buildAlpha _ => true
  | .mkaddr _ _ => true
  | .mkmsg _ _ _ _ => true
  | .mkidle => true
  | .mksync => true
  | .encode _ _ _ _ _ _ _ => true
  | .fskmod _ _ => true
  | .interp => false
  | .modiq => false
  | .quant _ => false
  | .publish _ => false
  | .drain _ => false
  | .push _ => false
  | .adopt => false
  | .prepare => false
  | .process => false
  | .start => false
  | .stop => false
  | .setcfg _ => false
  | .isidle => false
  | .waitend _ => false
  | .waitidle _ => false

end Sys2Proof.Machine
end

