-- ==== Sys2Proof/Certificates/Slice0/Obligations.lean ====
section
/-! DEFINITION. The statements for the provers, each with the rule of spec/ it formalises. -/

open Sys2Proof Sys2Proof.Machine

/-! ### The command port, the decoder and the encoder -/

/-- Log 1: a step takes the oldest transfer from the command port and runs the operation it decodes to; with
nothing at the port the block waits (R200); what cannot be decoded is refused by name (log 2); and a word that
`withFetchWord` places is the next operation. R199, log 31: power-off may come in any run state; once it has
begun, a running block is stopped (R172) and an Idle one is closed, by steps that need nothing at the port, and
while Starting or Stopping the port goes on; the closed block's state is lost, and no operation after it is a
step. -/
def Obligations.StepRunsTheOperationAtThePort : Prop :=
  (∀ (s : State) (tr : Transfer) (rest : List PortEvent) (i : Instr), s.looksAtPort →
    s.port = .issue tr :: rest → decode tr = .ok i →
    step s = if s.power = .off then .refused .poweredOff else exec i { s with port := rest }) ∧
  (∀ s : State, s.looksAtPort → s.port = [] → step s = .next s) ∧
  (∀ (s : State) (tr : Transfer) (rest : List PortEvent) (e : DecodeError), s.looksAtPort →
    s.port = .issue tr :: rest → decode tr = .error e → step s = .refused (.undecodable e)) ∧
  (∀ (s : State) (nbits w : Nat) (i : Instr), s.power = .on → decodeTableWord nbits w = some i →
    step (s.withFetchWord nbits w) = exec i s) ∧
  (∀ (s : State) (rest : List PortEvent), s.looksAtPort → s.port = .powerOff :: rest →
    step s = if s.power = .off then .refused .poweredOff
      else .next { s with port := rest, power := .closing }) ∧
  (∀ s : State, s.power = .closing →
    (s.runState = .idle → step s = .next { State.reset with
      power := .off
      devLog := s.devLog ++ [.close]
      dst := s.dst
      port := s.port
      devAnswers := s.devAnswers
      draws := s.draws }) ∧
    (s.runState = .running →
      step s = .next { s with stop := true, runState := .stopping, hostRet := .pending }))

/-- R62, R63 to R66, R76: one word for each of the 36 rows decodes to that row. The four codewords and the
selector bytes are written out from the spec's tables, bit by bit; the operand bytes behind a selector are in
the model's layout (DESIGN CHOICE, log 2). -/
def Obligations.WrittenWordsDecode : Prop :=
  decodeTableWord 32 0x7CD215D8 = some .sync ∧
  decodeTableWord 32 0x7A89C197 = some .idle ∧
  decodeTableWord 32 0b10001001101000100110001101001101 =
    some (.message 0b00010011010001001100#20 0b0110100110#10 1#1) ∧
  decodeTableWord 32 0b01001011010110100001101000100101 =
    some (.address 0b100101101011010000#18 0b11#2 0b0100010010#10 1#1) ∧
  decode (.op [0x01#8, 0x78#8, 0x56#8, 0x34#8, 0x12#8, 16#8]) = .ok (.revbits 0x12345678#32 16) ∧
  decode (.op [0x02#8, 0x00#8, 0x20#8, 0x00#8, 0x00#8]) = .ok (.bchrem 0x2000#32) ∧
  decode (.op [0x03#8, 0xD2#8, 0x0E#8, 0x00#8, 0x00#8]) = .ok (.parity 0xED2#32) ∧
  decode (.op [0x04#8, 0x00#8, 0x10#8, 0xD2#8, 0x7C#8]) = .ok (.sign 0x7CD21000#32) ∧
  decode (.op [0x05#8, 1#8, 0xAA#8, 0x78#8, 0x56#8, 0x34#8, 0x12#8]) = .ok (.emit32le [0xAA#8] 0x12345678#32) ∧
  decode (.op [0x06#8, 4#8, 0x97#8, 0xC1#8, 0x89#8, 0x7A#8, 0#8]) =
    .ok (.read32le [0x97#8, 0xC1#8, 0x89#8, 0x7A#8] 0) ∧
  decode (.op [0x08#8, 2#8, 0x41#8, 0x0D#8]) = .ok (.recodeRaw [0x41#8, 0x0D#8]) ∧
  decode (.op [0x09#8, 1#8, 0x55#8]) = .ok (.recodeLatin [0x55#8]) ∧
  decode (.op [0x0A#8, 0#8]) = .ok (.recodeCyr []) ∧
  decode (.op [0x0B#8, 1#8, 0x31#8]) = .ok (.buildNum [0x31#8]) ∧
  decode (.op [0x0C#8, 1#8, 0x41#8]) = .ok (.buildAlpha [0x41#8]) ∧
  decode (.op [0x10#8, 0x87#8, 0xD6#8, 0x12#8, 0x00#8, 3#8]) = .ok (.mkaddr 1234567#21 3#2) ∧
  decode (.op [0x11#8, 2#8, 1#8, 0#8, 20#8, 2#8, 1#8]) = .ok (.mkmsg [true, false] 20 2 true) ∧
  decodeTableWord 8 0x12 = some .mkidle ∧
  decodeTableWord 8 0x13 = some .mksync ∧
  decode (.op [0x18#8, 100#8, 2#8, 1#8, 0x41#8, 1#8, 1#8, 3#8, 0#8]) =
    .ok (.encode 100 .alphanumeric [0x41#8] .b1200 .latin 3#2 true) ∧
  decode (.op [0x20#8, 1#8, 0xAA#8, 2#8]) = .ok (.fskmod [0xAA#8] .b2400) ∧
  decodeTableWord 8 0x28 = some .interp ∧
  decodeTableWord 8 0x30 = some .modiq ∧
  decode (.op [0x38#8, 1#8, 0#8, 1#8, 3#8, 7#8]) = .ok (.quant (.sinTurns (.rat (-3 / 8)))) ∧
  decode (.op [0x38#8, 0#8, 1#8, 7#8]) = .ok (.quant (.num (.named 7))) ∧
  decode (.op [0x39#8, 1#8]) = .ok (.publish 1) ∧
  decode (.op [0x3A#8, 0x00#8, 0x00#8, 0x04#8, 0x00#8]) = .ok (.drain 262144#32) ∧
  decode (.op [0x40#8, 3#8, 0#8, 0#8, 1#8, 1#8, 0#8, 1#8, 3#8, 1#8, 1#8, 7#8, 0xBF#8, 0x3E#8]) =
    .ok (.push ⟨[.rat (1 / 2), .rat (-3 / 2), .named 7], 8000⟩) ∧
  decodeTableWord 8 0x41 = some .adopt ∧
  decodeTableWord 8 0x42 = some .prepare ∧
  decodeTableWord 8 0x43 = some .process ∧
  decodeTableWord 8 0x44 = some .start ∧
  decodeTableWord 8 0x45 = some .stop ∧
  decode (.op [0x46#8, 5#8, 0x00#8, 0x18#8, 0xDD#8, 0x19#8, 0x00#8, 0x00#8, 0x00#8, 0x00#8]) =
    .ok (.setcfg (.frequency 433920000#64)) ∧
  decodeTableWord 8 0x47 = some .isidle ∧
  decode (.op [0x48#8, 0x90#8, 0x4E#8]) = .ok (.waitend 10000) ∧
  decode (.op [0x49#8, 5#8]) = .ok (.waitidle 5)

/-- R62: "Every other `sel` value names no operation; a model with a selector decoder refuses it." -/
def Obligations.UnlistedSelectorsRefused : Prop :=
  ∀ (sel : Byte) (operands : List Byte),
    sel.toNat ∉ [0x01, 0x02, 0x03, 0x04, 0x05, 0x06, 0x08, 0x09, 0x0A, 0x0B, 0x0C, 0x10, 0x11, 0x12, 0x13,
      0x18, 0x20, 0x28, 0x30, 0x38, 0x39, 0x3A, 0x40, 0x41, 0x42, 0x43, 0x44, 0x45, 0x46, 0x47, 0x48, 0x49] →
    decode (.op (sel :: operands)) = .error .unknownSelector

/-- Decode and encode agree on every well-formed operation, with every operand at every value: no bit of an
encoding is dropped. The operand layout is the model's (log 2). -/
def Obligations.DecodeOfEncode : Prop :=
  ∀ i : Instr, i.wellFormed = true → decode (encode i) = .ok i

/-- R24, R66, R80, R102: the decoder answers with well-formed operations only: REVBITS with `n` up to 32, MKMSG with
`maxBits` the length of its buffer, PUSH of a chunk with a positive rate, no ADDRESS row that is the sync or the idle
codeword. That the decoder refuses the other operands, of which the spec only says that they cannot be expressed or
do not occur, is the model's choice (DESIGN CHOICE, logs 2 and 22); so are the forms that a real operand may have
(DESIGN CHOICE, log 4). -/
def Obligations.DecodedIsWellFormed : Prop :=
  ∀ (tr : Transfer) (i : Instr), decode tr = .ok i → i.wellFormed = true

/-- R66: telling codewords apart, on all 2^32 words, and no bit of a word is lost (R41 gives the byte order). -/
def Obligations.CodewordsAreToldApart : Prop :=
  ∀ w : Word, ∃ i : Instr,
    decode (.codeword [w.extractLsb' 0 8, w.extractLsb' 8 8, w.extractLsb' 16 8, w.extractLsb' 24 8])
      = .ok i ∧
    encode i = .codeword [w.extractLsb' 0 8, w.extractLsb' 8 8, w.extractLsb' 16 8, w.extractLsb' 24 8] ∧
    (i = .sync ↔ w = 0x7CD215D8#32) ∧ (i = .idle ↔ w = 0x7A89C197#32) ∧
    ((∃ d b p, i = .message d b p) ↔ w.getLsbD 31 = true) ∧
    ((∃ a f b p, i = .address a f b p) ↔
      w.getLsbD 31 = false ∧ w ≠ 0x7CD215D8#32 ∧ w ≠ 0x7A89C197#32)

/-! ### Reset and the invariant -/

/-- R33, R200: the state after reset, whatever the launch parameters are. The three defaults are those of
R33; a memory that holds no value lists nothing (log 9). -/
def Obligations.ResetState : Prop :=
  (∀ c : Cfg,
    let s := State.launch c
    s.cfg = c ∧ s.runState = .idle ∧ s.ppos = .off ∧ s.ready = true ∧ s.stop = false ∧
    s.emptyQueue = false ∧ s.prepared = false ∧ s.txQueue = [] ∧ s.currentChunk = none ∧
    s.subChunkOffset = 0 ∧ s.sampleCount = 0 ∧ s.deviceSampleRate = 0#32 ∧ s.last = ⟨.rat 0, .rat 0, .rat 0, .rat 0⟩ ∧
    s.fmPhase = .rat 0 ∧ s.ibuf = [] ∧ s.iq = [] ∧ (∀ a, Memory.read s.ring a = none) ∧
    s.head = 0#8 ∧ s.tail = 0#8 ∧ s.fill = 0 ∧ s.devRunning = false) ∧
  (∃ c : Cfg, State.reset = State.launch c ∧ c.subChunkSamples = 2048 ∧ c.fmDeviationKHz = .rat 75 ∧
    c.fskSampleRate = 44100)

/-- Reset, with any legal launch parameters, meets the invariant. -/
def Obligations.ResetMeetsInvariant : Prop := ∀ c : Cfg, c.Legal → (State.launch c).Inv

/-- Every step keeps the invariant: R31, R38, R39, R143, R145, R168, R203; power-off included (R199, log 31). -/
def Obligations.StepKeepsInvariant : Prop :=
  ∀ s t : State, s.Inv → step s = .next t → t.Inv

/-- R33, R155, R209: from a state that meets the invariant the producer and the callback never read
what holds no value and never overrun the ring; the only refusals are the named ones. That PROCESS answers a next
state at Off and at a row that is not enabled is log 13, and that PREPARE is refused as notEnabled where PROD does
not stand at it is log 12 (both DEDUCED). -/
def Obligations.ProducerAndCallbackNeverFault : Prop :=
  ∀ s : State, s.Inv →
    ((∃ t, exec .process s = .next t) ∨ exec .process s = .refused .deviceRateOverflow) ∧
    ((∃ t, exec .prepare s = .next t) ∨ exec .prepare s = .refused .deviceRateOverflow ∨
      (exec .prepare s = .refused .notEnabled ∧ s.ppos ≠ .first ∧ s.ppos ≠ .next)) ∧
    (s.ppos = .pub0 → ∃ t, exec (.publish 0) s = .next t) ∧
    (s.ppos = .pub1 → ∃ t, exec (.publish 1) s = .next t) ∧
    (∀ len : Word, len.toNat ≤ 524288 → ∃ t, exec (.drain len) s = .next t)

/-- R174: `RunState` changes only as the table says: "No other transition exists." That the rows Boot and Exit are
steps of PROCESS is log 13 (DEDUCED); power-off is no operation (log 31). -/
def Obligations.RunStateTransitions : Prop :=
  ∀ (i : Instr) (s t : State), s.Inv → exec i s = .next t → t.runState ≠ s.runState →
    (s.runState = .idle ∧ t.runState = .starting ∧ i = .start) ∨
    (s.runState = .starting ∧ t.runState = .running ∧ i = .process ∧ s.ppos = .boot ∧ s.answer = true) ∨
    (s.runState = .starting ∧ t.runState = .idle ∧ i = .process ∧ s.ppos = .boot ∧ s.answer = false) ∨
    (s.runState = .running ∧ t.runState = .stopping ∧ i = .stop) ∨
    (s.runState = .stopping ∧ t.runState = .idle ∧ i = .process ∧ s.ppos = .exit)

/-- R18, R55, R206: only SETCFG writes a configuration register, and while Running only the two of the
encoder. -/
def Obligations.ConfigurationFrozenWhileRunning : Prop :=
  ∀ (i : Instr) (s t : State), exec i s = .next t →
    ((∀ w, i ≠ .setcfg w) → t.cfg = s.cfg) ∧
    (s.runState = .running →
      t.cfg = { s.cfg with fskSampleRate := t.cfg.fskSampleRate, maxBatches := t.cfg.maxBatches })

/-- R146, R191: the phase is reset by ADOPT (at row Top) and START only; besides them only MODIQ (alone or inside
PREPARE) writes it, where PROD stands at First or Next (log 12), so never in Idle. The rows Top, First and Next are
steps of PROCESS (log 13). -/
def Obligations.PhaseResetOnlyAtAdoptAndStart : Prop :=
  ∀ (i : Instr) (s t : State), exec i s = .next t → t.fmPhase ≠ s.fmPhase →
    (t.fmPhase = .rat 0 ∧ (i = .start ∨ i = .adopt ∨ (i = .process ∧ s.ppos = .top))) ∨
    ((i = .modiq ∨ i = .prepare ∨ i = .process) ∧ (s.ppos = .first ∨ s.ppos = .next) ∧ s.cfg.am = false)

/-- R34, R191, R194: an operation of the encoder leaves everything but the encoder's own registers and its
answer as it was; every byte of the ring, every flag and every register of the other agents included. -/
def Obligations.EncoderTouchesOnlyItsRegisters : Prop :=
  ∀ (i : Instr) (s t : State), isEncoderOp i = true → exec i s = .next t →
    t = { s with enc := t.enc, hostRet := t.hostRet }

/-- R13, R212: what an encoder operation answers is a function of its operands, `fskSampleRate` and
`MAX_BATCHES`: no two operations communicate through the encoder's registers, and nothing else of the state is
read. -/
def Obligations.EncoderAnswersDependOnOperandsAlone : Prop :=
  ∀ (i : Instr) (s1 s2 : State), isEncoderOp i = true →
    s1.cfg.fskSampleRate = s2.cfg.fskSampleRate → s1.cfg.maxBatches = s2.cfg.maxBatches →
    delivered (exec i s1) = delivered (exec i s2)

/-! ### U-BCH -/

/-- R80: `REVBITS`, bit by bit, and its involution. -/
def Obligations.RevbitsReversesBits : Prop :=
  ∀ (x : Word) (n : Nat) (s : State), n ≤ 32 → ∃ r : Word,
    exec (.revbits x n) s = .next { s with hostRet := .word r } ∧
    (∀ i, i < 32 → r.getLsbD i = (decide (i < n) && x.getLsbD (n - 1 - i))) ∧
    ∃ r2 : Word, exec (.revbits r n) s = .next { s with hostRet := .word r2 } ∧
      ∀ i, i < 32 → r2.getLsbD i = (decide (i < n) && x.getLsbD i)

/-- R81, R82: on a word whose bits 10:0 are 0 the result of `BCHREM` is the remainder of division by the
generator polynomial, in bits 10:1. That it runs the 21 steps on every other word too is the model's choice
(DESIGN CHOICE, log 20); so is that `gen`, `mask` and `k` stay as the last step left them, where R33 says that the
registers hold no value after the operation (DESIGN CHOICE, log 8). -/
def Obligations.BchremIsTheRemainder : Prop :=
  ∀ (w : Word) (s : State), ∃ r : Word,
    exec (.bchrem w) s = .next { s with
      enc := { s.enc with bch := ⟨r, bchGen >>> 21, 0x80000000#32 >>> 21, 20#5⟩ }
      hostRet := .word r } ∧
    (w &&& 0x7FF#32 = 0#32 →
      r >>> 11 = 0#32 ∧ r.getLsbD 0 = false ∧ codePoly r = codePoly w %ₘ genPoly)

/-- R82, R85 (d): `BCHREM` and `SIGN` are linear over GF(2). For BCHREM the statement takes in words whose
bits 10:0 are not 0, on which it runs by the model's choice (log 20). -/
def Obligations.BchremAndSignAreLinear : Prop :=
  ∀ (a b : Word) (s : State), ∃ x y : Word,
    delivered (exec (.bchrem a) s) = .next (.word x) ∧
    delivered (exec (.bchrem b) s) = .next (.word y) ∧
    delivered (exec (.bchrem (a ^^^ b)) s) = .next (.word (x ^^^ y)) ∧
    (a &&& 0x7FF#32 = 0#32 → b &&& 0x7FF#32 = 0#32 → ∃ u v : Word,
      delivered (exec (.sign a) s) = .next (.word u) ∧
      delivered (exec (.sign b) s) = .next (.word v) ∧
      delivered (exec (.sign (a ^^^ b)) s) = .next (.word (u ^^^ v)))

/-- R83: `PARITY` makes the number of set bits even by bit 0 alone, where bit 0 of the operand is 0. On a word
whose bit 0 is already 1 the pseudocode runs as written, by the model's choice (log 20): it returns the word. -/
def Obligations.ParityMakesBitsEven : Prop :=
  ∀ (v : Word) (s : State), ∃ r : Word,
    exec (.parity v) s = .next { s with hostRet := .word r } ∧
    (∀ i, 1 ≤ i → r.getLsbD i = v.getLsbD i) ∧
    (v.getLsbD 0 = false → setBits r % 2 = 0 ∧ r.getLsbD 0 = decide (setBits v % 2 = 1)) ∧
    (v.getLsbD 0 = true → r = v)

/-- R84, R85 (a), (b), (c), (e): `SIGN` keeps the data, makes the parity even, makes bits 31:1 a multiple of
the generator polynomial, and signs the data part of its own result to that result. -/
def Obligations.SignGivesACodeword : Prop :=
  ∀ (w : Word) (s : State), w &&& 0x7FF#32 = 0#32 → ∃ (c : Word) (r : BchRegs),
    exec (.sign w) s = .next { s with enc := { s.enc with bch := r }, hostRet := .word c } ∧
    c.extractLsb' 11 21 = w.extractLsb' 11 21 ∧ setBits c % 2 = 0 ∧ genPoly ∣ codePoly c ∧
    delivered (exec (.sign (c &&& 0xFFFFF800#32)) s) = .next (.word c)

/-- R84, R188: `SIGN` refuses a word whose low eleven bits are not 0. -/
def Obligations.SignRefusesLowBits : Prop :=
  ∀ (w : Word) (s : State), w &&& 0x7FF#32 ≠ 0#32 → exec (.sign w) s = .refused .signLowBitsSet

/-- R86: `EMIT32LE` appends the four bytes, the lowest first. That `buf` is an operand by value, and the
register `out` only written, is the model's choice (log 32). -/
def Obligations.Emit32leAppends : Prop :=
  ∀ (buf : List Byte) (w : Word) (s : State), ∃ out : List Byte,
    out = buf ++ [w.extractLsb' 0 8, w.extractLsb' 8 8, w.extractLsb' 16 8, w.extractLsb' 24 8] ∧
    out.length = buf.length + 4 ∧
    exec (.emit32le buf w) s = .next { s with enc := { s.enc with out := out }, hostRet := .bytes out }

/-- R87: `READ32LE` assembles the word; with fewer than four bytes left it stops by name (log 22). -/
def Obligations.Read32leAssembles : Prop :=
  ∀ (buf : List Byte) (a : Nat) (s : State),
    (a + 3 < buf.length → ∃ (b0 b1 b2 b3 : Byte) (w : Word),
      buf[a]? = some b0 ∧ buf[a + 1]? = some b1 ∧ buf[a + 2]? = some b2 ∧ buf[a + 3]? = some b3 ∧
      w = b0.setWidth 32 ||| (b1.setWidth 32 <<< 8) ||| (b2.setWidth 32 <<< 16) |||
        (b3.setWidth 32 <<< 24) ∧
      exec (.read32le buf a) s = .next { s with hostRet := .word w }) ∧
    (buf.length ≤ a + 3 → exec (.read32le buf a) s = .fault .streamReadPastEnd)

/-- R42, R87: `READ32LE` after `EMIT32LE` at the same offset returns the word that was emitted. -/
def Obligations.ReadAfterEmit : Prop :=
  ∀ (buf tl : List Byte) (w : Word) (s : State), ∃ t : State,
    exec (.emit32le buf w) s = .next t ∧
    exec (.read32le (t.enc.out ++ tl) buf.length) t = .next { t with hostRet := .word w }

/-! ### U-FRM: re-encoding and bit buffers -/

/-- R90: bytes pass through unchanged. -/
def Obligations.RecodeRawPassesThrough : Prop :=
  ∀ (text : List Byte) (s : State),
    exec (.recodeRaw text) s = .next { s with enc := { s.enc with msg := text }, hostRet := .bytes text }

/-- R91: carriage returns are dropped; three characters are substituted; what lies in the range, and a line
feed, stays; everything else becomes a question mark. The byte values of the characters are from general knowledge
(PRESUMED, log 27), and that a carriage return is dropped before the range is looked at is the spec's own decision
D36. -/
def Obligations.RecodeLatinSubstitutes : Prop :=
  ∀ (text : List Byte) (s : State), ∃ m : List Byte,
    exec (.recodeLatin text) s = .next { s with enc := { s.enc with msg := m }, hostRet := .bytes m } ∧
    m = (text.filter (fun c => decide (c ≠ 0x0D#8))).map (fun c =>
      if c = 0x5D#8 then 0x1E#8
      else if c = 0x5B#8 then 0x1F#8
      else if c = 0x55#8 then 0x1B#8
      else if c = 0x0A#8 then 0x0A#8
      else if c.toNat < 0x1A ∨ 0x7E < c.toNat then 0x3F#8
      else c) ∧
    ∀ b ∈ m, b = 0x0A#8 ∨ 0x1A ≤ b.toNat ∧ b.toNat ≤ 0x7E

/-- R92: the operation is `refuse(CyrillicTableMissing)`. -/
def Obligations.RecodeCyrStops : Prop :=
  ∀ (text : List Byte) (s : State), exec (.recodeCyr text) s = .refused .cyrillicTableMissing

/-- R67, R95: the numeric bit buffer, four bits a character, each value's lowest bit first. -/
def Obligations.BuildNumPlacesCells : Prop :=
  ∀ (msg : List Byte) (s : State), (∀ c ∈ msg, (numericTable.lookup c).isSome) → ∃ bits : List Bool,
    exec (.buildNum msg) s = .next { s with
      enc := { s.enc with mbuf := bits, maxBits := 4 * msg.length }
      hostRet := .bits bits (4 * msg.length) } ∧
    bits.length = 4 * msg.length ∧
    ∀ i k, i < msg.length → k < 4 → ∃ c v, msg[i]? = some c ∧ numericTable.lookup c = some v ∧
      bits[4 * i + k]? = some (v.testBit k)

/-- R95, R182, R186: the first unmapped character is raised with its index, and nothing changes. That the mapped
bytes are the 20 the table lists, ASCII, where R94 counts 22, is log 27 (PRESUMED). -/
def Obligations.BuildNumRaises : Prop :=
  ∀ (pre post : List Byte) (c : Byte) (s : State), (∀ x ∈ pre, (numericTable.lookup x).isSome) →
    numericTable.lookup c = none →
    exec (.buildNum (pre ++ c :: post)) s
      = .next { s with hostRet := .raised (.unmappedNumericChar pre.length c) }

/-- R68, R96: the alphanumeric bit buffer, seven bits a byte, the lowest bit first, and the terminator. -/
def Obligations.BuildAlphaPlacesCells : Prop :=
  ∀ (msg : List Byte) (s : State), ∃ bits : List Bool,
    exec (.buildAlpha msg) s = .next { s with
      enc := { s.enc with mbuf := bits, maxBits := bits.length }
      hostRet := .bits bits bits.length } ∧
    bits.length = 7 * msg.length +
      (if msg = [] ∨ msg.getLast? = some 0x00#8 ∨ msg.getLast? = some 0x80#8 then 0 else 7) ∧
    (∀ i k, i < msg.length → k < 7 → ∃ c, msg[i]? = some c ∧ bits[7 * i + k]? = some (c.getLsbD k)) ∧
    (∀ j, 7 * msg.length ≤ j → j < bits.length → bits[j]? = some false)

/-! ### U-FRM: codewords -/

/-- R64, R100: `MKADDR` signs the word whose fields are type 0, `ric[20:3]`, `function` and eleven zeros. -/
def Obligations.MkaddrSignsItsFields : Prop :=
  ∀ (ric : BitVec 21) (function : BitVec 2) (s : State), ∃ (w cw : Word) (r : BchRegs),
    w.getLsbD 31 = false ∧ w.extractLsb' 13 18 = ric.extractLsb' 3 18 ∧
    w.extractLsb' 11 2 = function ∧ w.extractLsb' 0 11 = 0#11 ∧
    exec (.mkaddr ric function) s = .next { s with enc := { s.enc with bch := r }, hostRet := .word cw } ∧
    exec (.sign w) s = exec (.mkaddr ric function) s

/-- R66, R85, R101: exactly sixteen pairs of address and function give the idle or the sync codeword: R101 has
that they do, and that no others do follows from R85. -/
def Obligations.MkaddrCoincidences : Prop :=
  ∀ (ric : BitVec 21) (function : BitVec 2) (s : State),
    (delivered (exec (.mkaddr ric function) s) = .next (.word 0x7A89C197#32) ↔
      function = 0#2 ∧ 2007664 ≤ ric.toNat ∧ ric.toNat ≤ 2007671) ∧
    (delivered (exec (.mkaddr ric function) s) = .next (.word 0x7CD215D8#32) ↔
      function = 2#2 ∧ 2045056 ≤ ric.toNat ∧ ric.toNat ≤ 2045063)

/-- R65, R102, R103: `MKMSG` past the last bit is idle and leaves the offset; before it, it signs the word
whose bit 30 - k is buffer bit `offset + k`, or a pad bit past the end, and the offset advances by 20. A
`maxBits` past the end of the buffer stops by name (log 22). -/
def Obligations.MkmsgTakesTwentyBits : Prop :=
  ∀ (mbuf : List Bool) (offset maxBits : Nat) (numeric : Bool) (s : State),
    (maxBits ≤ mbuf.length → maxBits ≤ offset →
      exec (.mkmsg mbuf offset maxBits numeric) s = .next { s with
        enc := { s.enc with offset := offset }
        hostRet := .codeword 0x7A89C197#32 offset }) ∧
    (maxBits ≤ mbuf.length → offset < maxBits → ∃ (w cw : Word) (r : BchRegs),
      exec (.mkmsg mbuf offset maxBits numeric) s = .next { s with
        enc := { s.enc with bch := r, offset := offset + 20 }
        hostRet := .codeword cw (offset + 20) } ∧
      delivered (exec (.sign w) s) = .next (.word cw) ∧
      w.getLsbD 31 = true ∧ w.extractLsb' 0 11 = 0#11 ∧
      ∀ k, k < 20 → w.getLsbD (30 - k) =
        if offset + k < maxBits then mbuf.getD (offset + k) false
        else numeric && decide ((offset + k - maxBits) % 4 ≥ 2)) ∧
    (mbuf.length < maxBits → exec (.mkmsg mbuf offset maxBits numeric) s = .fault .mbufReadPastEnd)

/-- R63, R104, R105: the idle and the sync codeword, verbatim. -/
def Obligations.MkidleAndMksync : Prop :=
  ∀ s : State,
    exec .mkidle s = .next { s with hostRet := .word 0x7A89C197#32 } ∧
    exec .mksync s = .next { s with hostRet := .word 0x7CD215D8#32 }

/-- Log 3 (DESIGN CHOICE: the spec gives the codeword rows no effect of their own): a codeword row writes that
codeword to STREAM, little-endian (R41), and reads no register; the check bits of a message or address row are
those SIGN gives. -/
def Obligations.CodewordRowsAreEmitted : Prop :=
  ∀ s : State,
    exec .sync s = .next { s with
      enc := { s.enc with out := [0xD8#8, 0x15#8, 0xD2#8, 0x7C#8] }
      hostRet := .word 0x7CD215D8#32 } ∧
    exec .idle s = .next { s with
      enc := { s.enc with out := [0x97#8, 0xC1#8, 0x89#8, 0x7A#8] }
      hostRet := .word 0x7A89C197#32 } ∧
    (∀ (data : BitVec 20) (bch : BitVec 10) (parity : BitVec 1), ∃ (cw : Word) (r : BchRegs),
      exec (.message data bch parity) s = .next { s with
        enc := { s.enc with bch := r, out := wordBytes cw }, hostRet := .word cw } ∧
      cw.getLsbD 31 = true ∧ cw.extractLsb' 11 20 = data ∧ setBits cw % 2 = 0 ∧
      genPoly ∣ codePoly cw) ∧
    (∀ (addr : BitVec 18) (function : BitVec 2) (bch : BitVec 10) (parity : BitVec 1),
      ∃ (cw : Word) (r : BchRegs),
      exec (.address addr function bch parity) s = .next { s with
        enc := { s.enc with bch := r, out := wordBytes cw }, hostRet := .word cw } ∧
      cw.getLsbD 31 = false ∧ cw.extractLsb' 13 18 = addr ∧ cw.extractLsb' 11 2 = function ∧
      setBits cw % 2 = 0 ∧ genPoly ∣ codePoly cw)

/-! ### ENCODE -/

/-- R111, R115, R116, R118: an ENCODE that passes its checks delivers the stream and its number of bits; the
stream has 72 + 68 × `batchCount` bytes. The batch count and the number of bits are those of the readings that
the spec marks as its own (D16, D34). -/
def Obligations.EncodeDeliversTheStream : Prop :=
  ∀ (address : Nat) (type : MsgType) (text : List Byte) (bps : Bps) (charset : Charset)
    (function : BitVec 2) (s : State) (m : Nat),
    address ≤ 2097151 → messageLength type charset text = some m →
    batchesFor address m ≤ s.cfg.maxBatches → ∃ e : Enc,
      exec (.encode address type text bps charset function true) s
        = .next { s with enc := e, hostRet := .stream e.out (8 * e.out.length) } ∧
      e.out.length = 72 + batchesFor address m * 68 ∧
      8 * e.out.length = 576 + 544 * batchesFor address m ∧ e.batchCount = batchesFor address m

/-- R47, R112, R113, R117: where everything stands in the stream: the preamble, the sync codeword of every
batch, idle slots before the address slot, the address codeword, then the message codewords in order, which are
idle once the message bits are exhausted. The message bits are those BUILD_NUM or BUILD_ALPHA gives. -/
def Obligations.EncodeStreamLayout : Prop :=
  ∀ (address : Nat) (type : MsgType) (text : List Byte) (bps : Bps) (charset : Charset)
    (function : BitVec 2) (s t : State) (out : List Byte) (n : Nat),
    exec (.encode address type text bps charset function true) s = .next t →
    t.hostRet = .stream out n →
    (∀ i, i < 72 → out[i]? = some 0xAA#8) ∧
    (type = .tone → t.enc.mbuf = []) ∧
    (type = .numeric →
      delivered (exec (.buildNum text) s) = .next (.bits t.enc.mbuf t.enc.mbuf.length)) ∧
    (type = .alphanumeric → ∃ msg,
      delivered (exec (if charset = .raw then .recodeRaw text else .recodeLatin text) s)
        = .next (.bytes msg) ∧
      delivered (exec (.buildAlpha msg) s) = .next (.bits t.enc.mbuf t.enc.mbuf.length)) ∧
    (∀ b, b < t.enc.batchCount →
      (out.drop (72 + 68 * b)).take 4 = [0xD8#8, 0x15#8, 0xD2#8, 0x7C#8]) ∧
    (∀ k, k < 16 * t.enc.batchCount →
      (out.drop (72 + 68 * (k / 16) + 4 + 4 * (k % 16))).take 4 = wordBytes
        (if k < 2 * (address % 8) then 0x7A89C197#32
         else if k = 2 * (address % 8) then mkaddrWord (BitVec.ofNat 21 address) function
         else mkmsgWord t.enc.mbuf (20 * (k - 2 * (address % 8) - 1)) t.enc.mbuf.length
           (decide (type = .numeric))))

/-- R92, R110, R111, R181 to R183, R186, R187: the errors of ENCODE in their order, for every natural number as
the address; each leaves every state of the block as it was and is delivered in place of the result. A Cyrillic
text is refused. Which characters are unmapped is log 27 (PRESUMED): every byte but the 20 of the table, where R94
counts 22. -/
def Obligations.EncodeErrorsInOrder : Prop :=
  ∀ (address : Nat) (type : MsgType) (text : List Byte) (bps : Bps) (charset : Charset)
    (function : BitVec 2) (rawOnly : Bool) (s : State),
    (2097151 < address →
      exec (.encode address type text bps charset function rawOnly) s
        = .next { s with hostRet := .raised (.addressOutOfRange address) }) ∧
    (∀ (pre post : List Byte) (c : Byte), address ≤ 2097151 → type = .numeric →
      text = pre ++ c :: post → (∀ x ∈ pre, (numericTable.lookup x).isSome) →
      numericTable.lookup c = none →
      exec (.encode address type text bps charset function rawOnly) s
        = .next { s with hostRet := .raised (.unmappedNumericChar pre.length c) }) ∧
    (address ≤ 2097151 → type = .alphanumeric → charset = .cyrillic →
      exec (.encode address type text bps charset function rawOnly) s = .refused .cyrillicTableMissing) ∧
    (∀ m, address ≤ 2097151 → messageLength type charset text = some m →
      s.cfg.maxBatches < batchesFor address m →
      exec (.encode address type text bps charset function rawOnly) s
        = .next { s with hostRet := .raised (.maxBatchesExceeded (batchesFor address m)) })

/-- R110, R118: with `rawOnly` false ENCODE delivers what FSKMOD makes of the stream that it delivers with
`rawOnly` true; where the sample rate is below the bit rate it is refused (R121). -/
def Obligations.EncodeDeliversTheAudio : Prop :=
  ∀ (address : Nat) (type : MsgType) (text : List Byte) (bps : Bps) (charset : Charset)
    (function : BitVec 2) (s : State) (m : Nat),
    address ≤ 2097151 → messageLength type charset text = some m →
    batchesFor address m ≤ s.cfg.maxBatches → ∃ out : List Byte,
      delivered (exec (.encode address type text bps charset function true) s)
        = .next (.stream out (8 * out.length)) ∧
      (bpsRate bps ≤ s.cfg.fskSampleRate → ∃ (e : Enc) (pcm : List (BitVec 16)),
        exec (.encode address type text bps charset function false) s
          = .next { s with enc := e, hostRet := .audio pcm pcm.length } ∧
        delivered (exec (.fskmod out bps) s) = .next (.audio pcm pcm.length) ∧
        pcm.length = 2 * (s.cfg.fskSampleRate / 2)
          + 8 * (72 + 68 * batchesFor address m) * (s.cfg.fskSampleRate / bpsRate bps)) ∧
      (s.cfg.fskSampleRate < bpsRate bps →
        exec (.encode address type text bps charset function false) s = .refused .fskRateTooLow)

/-! ### U-FSK -/

/-- R120 to R127: the length of the sample sequence and the sample at every index: silence at both ends, and
between them stream bit `q`, which is bit `q mod 8` of byte `q div 8`, held for `samplesPerBit` samples, at
plus or minus the amplitude, whatever the two open parameters are. -/
def Obligations.FskmodSendsTheStream : Prop :=
  ∀ (framed : List Byte) (bps : Bps) (s : State), 72 ≤ framed.length → (framed.length - 72) % 4 = 0 →
    bpsRate bps ≤ s.cfg.fskSampleRate → ∃ (e : Enc) (pcm : List (BitVec 16)),
      exec (.fskmod framed bps) s = .next { s with enc := e, hostRet := .audio pcm pcm.length } ∧
      e.pcm = pcm ∧
      pcm.length = 2 * (s.cfg.fskSampleRate / 2)
        + 8 * framed.length * (s.cfg.fskSampleRate / bpsRate bps) ∧
      (∀ n, n < s.cfg.fskSampleRate / 2 ∨
          s.cfg.fskSampleRate / 2 + 8 * framed.length * (s.cfg.fskSampleRate / bpsRate bps) ≤ n →
        n < pcm.length → pcm[n]? = some 0#16) ∧
      (∀ n, s.cfg.fskSampleRate / 2 ≤ n →
        n < s.cfg.fskSampleRate / 2 + 8 * framed.length * (s.cfg.fskSampleRate / bpsRate bps) →
        ∃ byte : Byte,
          framed[(n - s.cfg.fskSampleRate / 2) / (s.cfg.fskSampleRate / bpsRate bps) / 8]? = some byte ∧
          pcm[n]? = some (if byte.getLsbD
                ((n - s.cfg.fskSampleRate / 2) / (s.cfg.fskSampleRate / bpsRate bps) % 8)
              = Config.fskOneIsPositive
            then BitVec.ofInt 16 Config.fskAmplitude else BitVec.ofInt 16 (-(Config.fskAmplitude : Int))))

/-- R120, R121, R188: the two refusals of FSKMOD, the length first. -/
def Obligations.FskmodRefuses : Prop :=
  ∀ (framed : List Byte) (bps : Bps) (s : State),
    (framed.length < 72 ∨ (framed.length - 72) % 4 ≠ 0 →
      exec (.fskmod framed bps) s = .refused .fskBadLength) ∧
    (72 ≤ framed.length → (framed.length - 72) % 4 = 0 → s.cfg.fskSampleRate < bpsRate bps →
      exec (.fskmod framed bps) s = .refused .fskRateTooLow)

/-! ### U-RSP -/

/-- R130 to R134: INTERP writes 262,144 samples and the tail; in exact arithmetic (D5) each sample is as its
segment says, and in any finite numerics (log 33) the last one is (R133). It needs a current chunk and 1 to the
rest of its samples (log 19), and is a step of PROD only where it stands at First or Next, the rows that hold
PREPARE (R130, R191, log 12). -/
def Obligations.InterpInterpolates : Prop :=
  (∀ (s : State) (c : Chunk) (inp : Nat → RealNum), s.ppos = .first ∨ s.ppos = .next →
    s.currentChunk = some c → 0 < s.sampleCount →
    s.subChunkOffset + s.sampleCount ≤ c.samples.length →
    (∀ k, k < s.sampleCount → c.samples[s.subChunkOffset + k]? = some (inp k)) →
    ∃ (ib : List RealNum) (l : Tail),
      exec .interp s = .next { s with ibuf := ib, last := l } ∧ ib.length = 262144 ∧
      ib[262143]? = some (inp (s.sampleCount - 1)) ∧
      (s.cfg.num = .exact → ∀ j, j < 262143 → (j + 1) * s.sampleCount < 262144 →
        ∃ y, ib[j]? = some y ∧ y.real = s.last.t3.real
          + ((inp 0).real - s.last.t3.real) * (((j : ℝ) + 1) * ((s.sampleCount : ℝ) / 262144))) ∧
      (s.cfg.num = .exact → ∀ j i, j < 262143 → i = (j + 1) * s.sampleCount / 262144 → 1 ≤ i →
        i < s.sampleCount ∧ ∃ y, ib[j]? = some y ∧ y.real = (inp (i - 1)).real
          + ((inp i).real - (inp (i - 1)).real)
            * (((j : ℝ) + 1) * ((s.sampleCount : ℝ) / 262144) - (i : ℝ))) ∧
      l.t3 = inp (s.sampleCount - 1) ∧
      (4 ≤ s.sampleCount → l = ⟨inp (s.sampleCount - 4), inp (s.sampleCount - 3), inp (s.sampleCount - 2),
        inp (s.sampleCount - 1)⟩) ∧
      (s.sampleCount = 3 → l = ⟨s.last.t3, inp 0, inp 1, inp 2⟩) ∧
      (s.sampleCount = 2 → l = ⟨s.last.t2, s.last.t3, inp 0, inp 1⟩) ∧
      (s.sampleCount = 1 → l = ⟨s.last.t1, s.last.t2, s.last.t3, inp 0⟩)) ∧
  (∀ s : State, (s.ppos ≠ .first ∧ s.ppos ≠ .next) ∨ (∀ c, s.currentChunk = some c →
      s.sampleCount = 0 ∨ c.samples.length < s.subChunkOffset + s.sampleCount) →
    exec .interp s = .refused .notEnabled)

/-- R136 (b), (c): in exact arithmetic (D5) every output sample lies between any bounds of the tail sample and
the input samples; with equal bounds, a constant input gives a constant output. -/
def Obligations.InterpStaysBetween : Prop :=
  ∀ (s t : State) (c : Chunk) (lo hi : ℝ), s.cfg.num = .exact → exec .interp s = .next t →
    s.currentChunk = some c → lo ≤ s.last.t3.real → s.last.t3.real ≤ hi →
    (∀ x ∈ (c.samples.drop s.subChunkOffset).take s.sampleCount, lo ≤ x.real ∧ x.real ≤ hi) →
    ∀ y ∈ t.ibuf, lo ≤ y.real ∧ y.real ≤ hi

/-! ### U-IQ -/

/-- R140 to R142: MODIQ in AM: the clipped audio, whose product with the gain is exact where `NUM` is (D5; any
value in [-1, 1] in a finite numerics, log 33); the phase is neither read nor written. With no sub-chunk in
`ibuf` it faults (R33). In either mode, where PROD stands at neither First nor Next, in Idle above all, it is not a
step (R140, R191, log 12). -/
def Obligations.ModiqAm : Prop :=
  ∀ s : State,
    (s.ppos = .first ∨ s.ppos = .next → s.ibuf.length = 262144 → s.cfg.am = true → ∃ iq : List RealVal,
      exec .modiq s = .next { s with iq := iq } ∧ iq.length = 524288 ∧
      ∀ k, k < 262144 → ∃ x a : RealNum, s.ibuf[k]? = some x ∧
        -1 ≤ a.real ∧ a.real ≤ 1 ∧
        (s.cfg.num = .exact → a.real = max (-1) (min 1 (x.real * s.cfg.localGain.real))) ∧
        iq[2 * k]? = some (.num a) ∧ iq[2 * k + 1]? = some (.num (.rat 0))) ∧
    (s.ppos = .first ∨ s.ppos = .next → s.ibuf.length ≠ 262144 → exec .modiq s = .fault .ibufHoldsNoValue) ∧
    (s.ppos ≠ .first → s.ppos ≠ .next → exec .modiq s = .refused .notEnabled)

/-- R140, R141, R143, R144, R147: MODIQ in FM. `phase k` is the phase, in turns of 2π, after `k` samples: each
is the one before it plus the step times the clipped audio, brought into (-1/2, 1/2]; the pair of a sample is
the sine and the cosine of the phase after it. At device rate 0, which R147 rules out, the step is any value
(log 19). That is exact arithmetic (D5); in any finite numerics (log 33) it completes too, and the phase stays
in the interval. It is a step where PROD stands at First or Next (R191, log 12; elsewhere ModiqAm). -/
def Obligations.ModiqFm : Prop :=
  (∀ s : State, s.ppos = .first ∨ s.ppos = .next → s.ibuf.length = 262144 → s.cfg.am = false →
    s.cfg.num = .exact →
    ∃ (iq : List RealVal) (phase : Nat → RealNum) (step : ℝ),
      (s.deviceSampleRate ≠ 0#32 →
        step = s.cfg.fmDeviationKHz.real * 1000 / (s.deviceSampleRate.toNat : ℝ)) ∧
      exec .modiq s = .next { s with iq := iq, fmPhase := phase 262144 } ∧ iq.length = 524288 ∧
      phase 0 = s.fmPhase ∧
      ∀ k, k < 262144 → ∃ (x : RealNum) (i q : RealVal), s.ibuf[k]? = some x ∧
        -(1 / 2) < (phase (k + 1)).real ∧ (phase (k + 1)).real ≤ 1 / 2 ∧
        (∃ z : Int, (phase (k + 1)).real = (phase k).real
          + step * max (-1) (min 1 (x.real * s.cfg.localGain.real)) + (z : ℝ)) ∧
        iq[2 * k]? = some i ∧ iq[2 * k + 1]? = some q ∧
        i.real = Real.sin (2 * Real.pi * (phase (k + 1)).real) ∧
        q.real = Real.cos (2 * Real.pi * (phase (k + 1)).real)) ∧
  (∀ s : State, s.ppos = .first ∨ s.ppos = .next → s.ibuf.length = 262144 → s.cfg.am = false →
    ∃ (iq : List RealVal) (phase : RealNum),
    exec .modiq s = .next { s with iq := iq, fmPhase := phase } ∧ iq.length = 524288 ∧
    -(1 / 2) < phase.real ∧ phase.real ≤ 1 / 2)

/-- R10, R148: QUANT of a rational: the nearest integer to 127 v, ties away from zero, clamped. In a finite
numerics the product is any value (log 33). QUANT is a step of PROD inside PUBLISH, so where PROD stands at Pub0 or
Pub1; elsewhere no operand makes it one (R8, R150, R191, log 12). -/
def Obligations.QuantOfRational : Prop :=
  (∀ (q : Rat) (s : State), s.ppos = .pub0 ∨ s.ppos = .pub1 → ∃ (b : Byte) (z : Int),
    exec (.quant (.num (.rat q))) s = .next { s with prodRet := .sample b } ∧
    (s.cfg.num = .exact →
      |(z : Rat) - q * 127| < 1 / 2 ∨ |(z : Rat) - q * 127| = 1 / 2 ∧ |q * 127| < |(z : Rat)|) ∧
    b.toInt = max (-128) (min 127 z)) ∧
  (∀ (v : RealVal) (s : State), s.ppos ≠ .pub0 → s.ppos ≠ .pub1 →
    exec (.quant v) s = .refused .notEnabled)

/-- R10, R145, R148: QUANT of any real, the sines and cosines of FM and the reals under a name (log 4) included: in
exact arithmetic (D5) the byte is the nearest integer to 127 v, ties away from zero, clamped; so for a magnitude of
at most 1 it lies in [-127, 127]. Where PROD stands at Pub0 or Pub1 (log 12) QUANT completes on every operand and in
every numerics (log 33). -/
def Obligations.QuantIsNearest : Prop :=
  ∀ (v : RealVal) (s : State), s.ppos = .pub0 ∨ s.ppos = .pub1 → ∃ b : Byte,
    exec (.quant v) s = .next { s with prodRet := .sample b } ∧
    (s.cfg.num = .exact →
      (∃ z : Int, (|(z : ℝ) - v.real * 127| < 1 / 2 ∨ |(z : ℝ) - v.real * 127| = 1 / 2 ∧ |v.real * 127| < |(z : ℝ)|) ∧
        b.toInt = max (-128) (min 127 z)) ∧
      (|v.real| ≤ 1 → -127 ≤ b.toInt))

/-! ### The ring -/

/-- R30, R46, R48 to R50, R150: a publication writes the quantized half of `iq` to the first 262,144 bytes of
slot `head` and nowhere else. Its stops: a full ring (R155), no sub-chunk in `iq` (R33), and a PROD that does
not stand at it (log 12). -/
def Obligations.PublishWritesTheSlot : Prop :=
  ∀ (h : Fin 2) (s : State),
    (s.ppos = (if h = 0 then .pub0 else .pub1) → s.fill ≠ 256 → s.iq.length = 524288 → ∃ ring : Memory,
      exec (.publish h) s = .next { s with
        ring := ring
        head := s.head + 1#8
        fill := s.fill + 1
        ready := false
        prepared := if h = 1 then false else s.prepared
        ppos := if h = 0 then .pub1 else .next } ∧
      (∀ i, i < 262144 → ∃ v, s.iq[h.val * 262144 + i]? = some v ∧
        Memory.read ring (s.head.toNat * 524288 + i) = some (quantByte s.cfg.num v)) ∧
      (∀ a, a < s.head.toNat * 524288 ∨ s.head.toNat * 524288 + 262144 ≤ a →
        Memory.read ring a = Memory.read s.ring a) ∧
      (Memory.wf s.ring → Memory.wf ring)) ∧
    (s.ppos = (if h = 0 then .pub0 else .pub1) → s.fill = 256 →
      exec (.publish h) s = .refused .ringFull) ∧
    (s.ppos = (if h = 0 then .pub0 else .pub1) → s.fill ≠ 256 → s.iq.length ≠ 524288 →
      exec (.publish h) s = .fault .iqHoldsNoValue) ∧
    (s.ppos ≠ (if h = 0 then .pub0 else .pub1) → exec (.publish h) s = .refused .notEnabled)

/-- R152, R154, R189: a DRAIN of a ring that is not empty copies the slot at `tail`, of which the first
262,144 bytes are what was published, and consumes it; past them the bytes are any value (log 10). Nothing but
`dst`, `tail`, `fill` and `ready` changes, beside the answer and the count of free values drawn. A slot that
does not hold its bytes faults (R33). -/
def Obligations.DrainTakesTheSlot : Prop :=
  ∀ (len : Word) (s : State), len.toNat ≤ 524288 → s.fill ≠ 0 →
    ((∀ i, i < min len.toNat 262144 → (Memory.read s.ring (s.tail.toNat * 524288 + i)).isSome) →
      ∃ dst : List Byte,
        exec (.drain len) s = .next { s with
          dst := dst
          consRet := .callback 0#32
          draws := s.draws + (len.toNat - 262144)
          tail := s.tail + 1#8
          fill := s.fill - 1
          ready := if s.fill = 1 then true else s.ready } ∧
        dst.length = len.toNat ∧
        ∀ i, i < min len.toNat 262144 → dst[i]? = Memory.read s.ring (s.tail.toNat * 524288 + i)) ∧
    ((∃ i, i < min len.toNat 262144 ∧ Memory.read s.ring (s.tail.toNat * 524288 + i) = none) →
      exec (.drain len) s = .fault .slotHoldsNoValue)

/-- R153, R154 (whose refusal the spec marks as its own reading, D23): a DRAIN of an empty ring writes exactly
`len` zero bytes and returns 0; a `len` above the slot capacity is refused, whatever the ring holds. -/
def Obligations.DrainOfEmptyRingIsSilence : Prop :=
  ∀ (len : Word) (s : State),
    (len.toNat ≤ 524288 → s.fill = 0 →
      exec (.drain len) s
        = .next { s with dst := List.replicate len.toNat 0#8, consRet := .callback 0#32 }) ∧
    (524288 < len.toNat → exec (.drain len) s = .refused .drainTooLong)

/-- R52, R149, R151, R153, R156, R168: a prepared sub-chunk that PROD publishes reaches the device as two
buffers in order, whenever the callbacks come: `a` of them before the first publication, `b` between the two and
`c` after, enough to take both (one after the second, and two in all), of any length up to a publication's
262,144 bytes. Every other callback is given silence; `ready` is clear from a publication until all that is
published is drained. -/
def Obligations.SubChunkReachesTheDevice : Prop :=
  ∀ (s : State) (len : Word) (a b c : Nat), s.ppos = .pub0 → s.fill = 0 → s.ready = true →
    s.head = s.tail → s.iq.length = 524288 → len.toNat ≤ 262144 → 1 ≤ c → 2 ≤ b + c →
    ∃ (s0 p1 s1 p2 s2 : State) (d0 d1 d2 : List (List Byte)) (half0 half1 silence : List Byte),
      half0 = ((s.iq.take 262144).map (quantByte s.cfg.num)).take len.toNat ∧
      half1 = ((s.iq.drop 262144).map (quantByte s.cfg.num)).take len.toNat ∧
      silence = List.replicate len.toNat 0#8 ∧
      callbacks len a s = some (d0, s0) ∧ exec (.publish 0) s0 = .next p1 ∧
      callbacks len b p1 = some (d1, s1) ∧ exec (.publish 1) s1 = .next p2 ∧
      callbacks len c p2 = some (d2, s2) ∧
      d0 = List.replicate a silence ∧
      (1 ≤ b → d1 = half0 :: List.replicate (b - 1) silence ∧
        d2 = half1 :: List.replicate (c - 1) silence) ∧
      (b = 0 → d1 = [] ∧ d2 = half0 :: half1 :: List.replicate (c - 2) silence) ∧
      p1.ready = false ∧ s1.ready = decide (1 ≤ b) ∧ p2.ready = false ∧
      s2.ready = true ∧ s2.fill = 0 ∧ s2.head = s2.tail

/-! ### The sequencer -/

/-- R160: PUSH appends at the back of the queue and clears `emptyQueue`; everything else unchanged. -/
def Obligations.PushAppends : Prop :=
  ∀ (c : Chunk) (s : State),
    exec (.push c) s
      = .next { s with txQueue := s.txQueue ++ [c], emptyQueue := false, hostRet := .none }

/-- R135, R161, R166: ADOPT, taken only at Top with no current chunk: an empty queue, an empty chunk, and a
chunk that becomes the current one. Elsewhere it is not a step (log 12). -/
def Obligations.AdoptTakesTheFront : Prop :=
  ∀ s : State,
    (s.ppos = .top → s.stop = false → s.currentChunk = none →
      (s.txQueue = [] →
        exec .adopt s = .next { s with emptyQueue := true, prodRet := .bool false }) ∧
      (∀ (r : Nat) (q : List Chunk), s.txQueue = ⟨[], r⟩ :: q →
        exec .adopt s = .next { s with
          txQueue := q
          emptyQueue := false
          currentChunk := none
          subChunkOffset := 0
          fmPhase := .rat 0
          prepared := false
          prodRet := .bool true }) ∧
      (∀ (x : RealNum) (xs : List RealNum) (r : Nat) (q : List Chunk), s.txQueue = ⟨x :: xs, r⟩ :: q →
        exec .adopt s = .next { s with
          txQueue := q
          emptyQueue := false
          currentChunk := some ⟨x :: xs, r⟩
          subChunkOffset := 0
          fmPhase := .rat 0
          prepared := false
          last := ⟨x, x, x, x⟩
          prodRet := .bool true
          ppos := .first })) ∧
    (s.ppos ≠ .top ∨ s.stop = true ∨ s.currentChunk ≠ none → exec .adopt s = .refused .notEnabled)

/-- R162 to R166: PREPARE at First or Next: the sub-chunk's length, the device rate as the rounded exact
rational, the device told only when the rate changes, then INTERP and MODIQ; a rate above 32 bits is refused;
at Next with the chunk used up it ends the chunk; elsewhere it is not a step (log 12). -/
def Obligations.PreparePreparesTheSubChunk : Prop :=
  ∀ s : State,
    (∀ (c : Chunk) (count rate : Nat), s.ppos = .first ∨ s.ppos = .next → s.currentChunk = some c →
      s.subChunkOffset < c.samples.length → 0 < c.pcmRate →
      1 ≤ s.cfg.subChunkSamples → s.cfg.subChunkSamples ≤ 262144 →
      count = min s.cfg.subChunkSamples (c.samples.length - s.subChunkOffset) →
      rate = (2 * c.pcmRate * 262144 + count) / (2 * count) →
      (rate ≤ 4294967295 → ∃ s1 s2 : State,
        exec .interp { s with sampleCount := count, deviceSampleRate := BitVec.ofNat 32 rate } = .next s1 ∧
        exec .modiq s1 = .next s2 ∧
        exec .prepare s = .next { s2 with
          devLog := if s.deviceSampleRate = BitVec.ofNat 32 rate then s.devLog
            else s.devLog ++ [.setSampleRate (BitVec.ofNat 32 rate) 1750000]
          subChunkOffset := s.subChunkOffset + count
          prepared := true
          prodRet := .bool true
          ppos := .wait }) ∧
      (4294967295 < rate → exec .prepare s = .refused .deviceRateOverflow)) ∧
    (∀ c : Chunk, s.ppos = .next → s.currentChunk = some c → c.samples.length ≤ s.subChunkOffset →
      exec .prepare s = .next { s with
        prodRet := .bool false
        currentChunk := none
        ppos := if s.cfg.turnOffTxWhenIdle = true ∧ s.txQueue = [] then .endWait else .top }) ∧
    ((s.ppos ≠ .first ∧ s.ppos ≠ .next) ∨ s.currentChunk = none →
      exec .prepare s = .refused .notEnabled)

/-- R166: PROCESS takes the row that `ppos` stands at: ADOPT, PREPARE and PUBLISH where the rows hold them; to
Exit where `stop` is seen. R166 gives the name to one pass of the rows Wait, Pub0, Pub1, Next; that one PROCESS
is the one row `ppos` stands at, and that at Off and at a waiting row that is not enabled nothing changes, is
the model's (DEDUCED, log 13). -/
def Obligations.ProcessTakesTheRow : Prop :=
  ∀ s : State,
    (s.ppos = .off → exec .process s = .next s) ∧
    (s.ppos = .top ∨ s.ppos = .wait ∨ s.ppos = .endWait → s.stop = true →
      exec .process s = .next { s with ppos := .exit, exitSecond := false }) ∧
    (s.ppos = .top → s.stop = false → s.currentChunk ≠ none →
      exec .process s = .next { s with ppos := .wait }) ∧
    (s.ppos = .top → s.stop = false → s.currentChunk = none → exec .process s = exec .adopt s) ∧
    (s.ppos = .first ∨ s.ppos = .next → exec .process s = exec .prepare s) ∧
    (s.ppos = .pub0 → exec .process s = exec (.publish 0) s) ∧
    (s.ppos = .pub1 → exec .process s = exec (.publish 1) s) ∧
    (s.ppos = .wait ∨ s.ppos = .endWait → s.stop = false → s.ready = false →
      exec .process s = .next s)

/-- R165, R167, R171, R196, R197: the rows that command the device, for either answer: Boot, the restart in
Wait, which asks IsRunning first, and EndWait. With a device that runs, Wait commands nothing else. That PROCESS
is the step of these rows is log 13, the answers taken from `devAnswers` log 11, the list `devLog` log 17, and
START's answer in `hostRet` log 14. -/
def Obligations.ProcessCommandsTheDevice : Prop :=
  ∀ s : State,
    (s.ppos = .boot → s.runState = .starting → s.answer = true →
      exec .process s = .next { s.ask .startTx with
        devRunning := true, runState := .running, ppos := .top, hostRet := .bool true }) ∧
    (s.ppos = .boot → s.runState = .starting → s.answer = false →
      exec .process s = .next { s.ask .startTx with
        runState := .idle, ppos := .off, hostRet := .bool false }) ∧
    (s.ppos = .wait → s.stop = false → s.ready = true → s.devRunning = true →
      exec .process s = .next { s with devLog := s.devLog ++ [.isRunning], ppos := .pub0 }) ∧
    (s.ppos = .wait → s.stop = false → s.ready = true → s.devRunning = false →
      exec .process s = .next { s.ask .startTx with
        devLog := s.devLog ++ [.isRunning, .startTx], devRunning := s.answer, ppos := .pub0 }) ∧
    (s.ppos = .endWait → s.stop = false → s.ready = true →
      exec .process s = .next { s.ask .stopTx with
        devRunning := s.devRunning && !s.answer, ppos := .top }) ∧
    (∀ c : DevCmd, (s.ask c).devLog = s.devLog ++ [c] ∧
      ∀ a rest, s.devAnswers = a :: rest → s.answer = a ∧ (s.ask c).devAnswers = rest)

/-- R173: the worker's exit: the chunk in progress is abandoned and, where the device is not running, the ring
is flushed; then, once the ring is empty, the device is stopped and STOP returns its answer. That PROCESS is
the step of row Exit, and changes nothing while the ring is not empty, is log 13; the bit `exitSecond` is log 18
(both DEDUCED). -/
def Obligations.ProcessExits : Prop :=
  ∀ s : State, s.ppos = .exit →
    (s.exitSecond = false → s.devRunning = true →
      exec .process s = .next { s with currentChunk := none, prepared := false, exitSecond := true }) ∧
    (s.exitSecond = false → s.devRunning = false →
      exec .process s = .next { s with
        currentChunk := none
        prepared := false
        exitSecond := true
        tail := s.head
        fill := 0
        ready := true }) ∧
    (s.exitSecond = true → s.fill ≠ 0 → exec .process s = .next s) ∧
    (s.exitSecond = true → s.fill = 0 → s.devRunning = true →
      exec .process s = .next { s.ask .stopTx with
        devRunning := !s.answer
        runState := .idle
        ppos := .off
        exitSecond := false
        hostRet := .bool s.answer }) ∧
    (s.exitSecond = true → s.fill = 0 → s.devRunning = false →
      exec .process s = .next { s with
        runState := .idle, ppos := .off, exitSecond := false, hostRet := .bool true })

/-- R170, R172, R185: the HOST parts of START and STOP: where they begin, the call has not returned yet (log
14); START while not Idle returns false and STOP while not Running returns true, and nothing changes. -/
def Obligations.StartAndStop : Prop :=
  ∀ s : State,
    (s.runState = .idle →
      exec .start s = .next { s with
        ready := true
        stop := false
        fmPhase := .rat 0
        prepared := false
        runState := .starting
        ppos := .boot
        hostRet := .pending }) ∧
    (s.runState ≠ .idle → exec .start s = .next { s with hostRet := .bool false }) ∧
    (s.runState = .running →
      exec .stop s = .next { s with stop := true, runState := .stopping, hostRet := .pending }) ∧
    (s.runState ≠ .running → exec .stop s = .next { s with hostRet := .bool true })

/-- R17 to R19, R175, R184, R187, R188; that a written frequency, gain and amp is also kept in a register is the
model's choice (log 23), and the ranges refused for the encoder's two registers are log 29 (DEDUCED). SETCFG:
while Running the eight registers of the modulator and the
device raise, whatever the value, and nothing changes; an illegal value is refused; a legal one is written, and
a forwarded register is a device command. The two registers of the encoder are written in any run state. -/
def Obligations.SetcfgWritesOrRaises : Prop :=
  ∀ s : State,
    (∀ w : CfgWrite, s.runState = .running → w.reg ≠ .fskSampleRate → w.reg ≠ .maxBatches →
      exec (.setcfg w) s = .next { s with hostRet := .raised (.configWhileRunning w.reg) }) ∧
    (∀ v : Int, 2400 ≤ v → exec (.setcfg (.fskSampleRate v)) s
      = .next { s with cfg := { s.cfg with fskSampleRate := v.toNat }, hostRet := .none }) ∧
    (∀ v : Int, v < 2400 → exec (.setcfg (.fskSampleRate v)) s = .refused .configValueOutOfRange) ∧
    (∀ v : Int, 1 ≤ v → exec (.setcfg (.maxBatches v)) s
      = .next { s with cfg := { s.cfg with maxBatches := v.toNat }, hostRet := .none }) ∧
    (∀ v : Int, v < 1 → exec (.setcfg (.maxBatches v)) s = .refused .configValueOutOfRange) ∧
    (s.runState ≠ .running →
      (∀ v : RealNum, exec (.setcfg (.localGain v)) s
        = .next { s with cfg := { s.cfg with localGain := v }, hostRet := .none }) ∧
      (∀ v : Int, 1 ≤ v → v ≤ 262144 → exec (.setcfg (.subChunkSamples v)) s
        = .next { s with cfg := { s.cfg with subChunkSamples := v.toNat }, hostRet := .none }) ∧
      (∀ v : Int, v < 1 ∨ 262144 < v →
        exec (.setcfg (.subChunkSamples v)) s = .refused .configValueOutOfRange) ∧
      (∀ v : RealNum, 0 ≤ v.real → exec (.setcfg (.fmDeviationKHz v)) s
        = .next { s with cfg := { s.cfg with fmDeviationKHz := v }, hostRet := .none }) ∧
      (∀ v : RealNum, v.real < 0 → exec (.setcfg (.fmDeviationKHz v)) s = .refused .configValueOutOfRange) ∧
      (∀ v : Bool, exec (.setcfg (.am v)) s
        = .next { s with cfg := { s.cfg with am := v }, hostRet := .none }) ∧
      (∀ v : Bool, exec (.setcfg (.turnOffTxWhenIdle v)) s
        = .next { s with cfg := { s.cfg with turnOffTxWhenIdle := v }, hostRet := .none }) ∧
      (∀ v : BitVec 64, exec (.setcfg (.frequency v)) s
        = .next { s with
            cfg := { s.cfg with frequency := v }
            devLog := s.devLog ++ [.setFrequency v]
            hostRet := .none }) ∧
      (∀ v : RealNum, exec (.setcfg (.gain v)) s
        = .next { s with
            cfg := { s.cfg with gain := v }, devLog := s.devLog ++ [.setGain v], hostRet := .none }) ∧
      (∀ v : Bool, exec (.setcfg (.amp v)) s
        = .next { s with
            cfg := { s.cfg with amp := v }, devLog := s.devLog ++ [.setAmp v], hostRet := .none }))

/-- R176 to R178: ISIDLE reads the run state, the queue and the current chunk; WAITEND and WAITIDLE, at the
step at which they return, answer whether Idle, or ISIDLE, holds (log 15); nothing else changes. -/
def Obligations.IdleQueriesReadOnly : Prop :=
  ∀ (s : State) (timeout : Nat), ∃ b : Bool,
    (b = true ↔ s.runState = .running ∧ s.txQueue = [] ∧ s.currentChunk = none) ∧
    exec .isidle s = .next { s with hostRet := .bool b } ∧
    exec (.waitidle timeout) s = .next { s with hostRet := .bool b } ∧
    exec (.waitend timeout) s = .next { s with hostRet := .bool (decide (s.runState = .idle)) }
end

