-- ==== Sys2Proof/Laws/Codec.lean ====
section
/-! SUPPORT. One lemma for each operand parser: it reads back what its encoder wrote and leaves the rest
(log 2). -/

namespace Sys2Proof

/-- `p` reads `bs` as `x` and leaves what follows. -/
def Reads {α : Type} (p : Parser α) (bs : List Byte) (x : α) : Prop :=
  ∀ rest, p (bs ++ rest) = .ok (x, rest)

theorem reads_pure {α : Type} (x : α) : Reads (pure x) [] x := fun _ => rfl

theorem reads_bind {α β : Type} {p : Parser α} {f : α → Parser β} {bs cs : List Byte} {x : α} {y : β}
    (h1 : Reads p bs x) (h2 : Reads (f x) cs y) : Reads (p >>= f) (bs ++ cs) y := by
  intro rest
  show (p (bs ++ cs ++ rest) >>= fun r => f r.1 r.2) = _
  rw [List.append_assoc, h1]
  exact h2 rest

/-- The last parser of a chain. -/
theorem reads_map {α β : Type} {p : Parser α} {f : α → β} {bs : List Byte} {x : α} (h : Reads p bs x) :
    Reads (p >>= fun a => pure (f a)) bs (f x) := by
  have := reads_bind (f := fun a => pure (f a)) h (reads_pure (f x))
  rwa [List.append_nil] at this

theorem reads_byte (b : Byte) : Reads getByte [b] b := fun _ => rfl

theorem leBytes_length (n w : Nat) : (leBytes n w).length = n := by
  induction n generalizing w with
  | zero => rfl
  | succ n ih => simp [leBytes, ih]

theorem leNat_leBytes (n : Nat) : ∀ w, leNat (leBytes n w) = w % 256 ^ n := by
  induction n with
  | zero => intro w; simp [leBytes, leNat, Nat.mod_one]
  | succ n ih =>
    intro w
    simp only [leBytes, leNat, ih, BitVec.toNat_ofNat]
    rw [show 256 ^ (n + 1) = 256 * 256 ^ n by ring, Nat.mod_mul]

theorem reads_le (n w : Nat) (h : w < 256 ^ n) : Reads (getLe n) (leBytes n w) w := by
  intro rest
  unfold getLe
  rw [if_neg (by simp [leBytes_length]), List.take_left' (leBytes_length n w),
    List.drop_left' (leBytes_length n w), leNat_leBytes, Nat.mod_eq_of_lt h]

theorem reads_bits {n : Nat} (k : Nat) (v : BitVec n) (h : 2 ^ n ≤ 256 ^ k) :
    Reads (getBits n k) (putBits k v) v := by
  have h1 := reads_le k v.toNat (lt_of_lt_of_le v.isLt h)
  have h2 : Reads (if v.toNat < 2 ^ n then pure (BitVec.ofNat n v.toNat)
      else throw DecodeError.operandOutOfRange : Parser (BitVec n)) [] v := by
    rw [if_pos v.isLt, BitVec.ofNat_toNat, BitVec.setWidth_eq]
    exact reads_pure v
  have := reads_bind (f := fun u => (if u < 2 ^ n then pure (BitVec.ofNat n u)
      else throw DecodeError.operandOutOfRange : Parser (BitVec n))) h1 h2
  rwa [List.append_nil] at this

theorem natFrom_natBytesFuel (fuel : Nat) : ∀ n, n < 128 ^ (fuel + 1) → ∀ rest,
    natFrom (natBytesFuel fuel n ++ rest) = .ok (n, rest) := by
  induction fuel with
  | zero =>
    intro n h rest
    simp only [Nat.zero_add, pow_one] at h
    simp only [natBytesFuel, List.cons_append, List.nil_append, natFrom, BitVec.toNat_ofNat]
    rw [Nat.mod_eq_of_lt (by omega : n < 2 ^ 8), if_pos h]
  | succ fuel ih =>
    intro n h rest
    simp only [natBytesFuel]
    split
    · rename_i hn
      simp only [List.cons_append, List.nil_append, natFrom, BitVec.toNat_ofNat]
      rw [Nat.mod_eq_of_lt (by omega : n < 2 ^ 8), if_pos hn]
    · simp only [List.cons_append, natFrom, BitVec.toNat_ofNat]
      rw [Nat.mod_eq_of_lt (by omega : n % 128 + 128 < 2 ^ 8), if_neg (by omega),
        ih (n / 128) (by
          rw [Nat.div_lt_iff_lt_mul (by norm_num)]
          rw [pow_succ] at h
          exact h)]
      simp only [Except.ok.injEq, Prod.mk.injEq, and_true]
      omega

theorem reads_nat (n : Nat) : Reads getNat (putNat n) n := by
  intro rest
  refine natFrom_natBytesFuel n n ?_ rest
  calc n < 2 ^ n := Nat.lt_two_pow_self
    _ ≤ 128 ^ n := Nat.pow_le_pow_left (by norm_num) n
    _ ≤ 128 ^ (n + 1) := Nat.pow_le_pow_right (by norm_num) (Nat.le_succ n)

theorem reads_bool (b : Bool) : Reads getBool (putBool b) b := by
  intro rest
  cases b <;> rfl

theorem reads_many {α : Type} {p : Parser α} {q : α → List Byte} (xs : List α)
    (h : ∀ x ∈ xs, Reads p (q x) x) : Reads (getMany p xs.length) (xs.flatMap q) xs := by
  induction xs with
  | nil => exact reads_pure []
  | cons x xs ih =>
    rw [List.flatMap_cons]
    exact reads_bind (h x (by simp)) (reads_map (f := fun ys => x :: ys)
      (ih (fun y hy => h y (by simp [hy]))))

theorem reads_seq {α : Type} {p : Parser α} {q : α → List Byte} (xs : List α)
    (h : ∀ x ∈ xs, Reads p (q x) x) : Reads (getSeq p) (putSeq q xs) xs :=
  reads_bind (reads_nat xs.length) (reads_many xs h)

theorem reads_bytes (xs : List Byte) : Reads (getSeq getByte) (putSeq putByte xs) xs :=
  reads_seq xs (fun x _ => reads_byte x)

theorem reads_int (v : Int) : Reads getInt (putInt v) v := by
  have h := reads_bind (f := fun neg => getNat >>= fun m =>
      (pure (if neg then -(m : Int) else (m : Int)) : Parser Int))
    (reads_bool (decide (v < 0)))
    (reads_map (f := fun m : Nat => if decide (v < 0) = true then -(m : Int) else (m : Int))
      (reads_nat v.natAbs))
  have hv : (if decide (v < 0) = true then -((v.natAbs : Nat) : Int) else ((v.natAbs : Nat) : Int)) = v := by
    by_cases hn : v < 0
    · simp only [hn, decide_true, if_true]; omega
    · simp only [hn, decide_false, Bool.false_eq_true, if_false]; omega
  rw [hv] at h
  exact h

theorem reads_rat (q : Rat) : Reads getRat (putRat q) q := by
  have h := reads_bind (f := fun n => getNat >>= fun d => (pure (mkRat n (d + 1)) : Parser Rat))
    (reads_int q.num) (reads_map (f := fun d => mkRat q.num (d + 1)) (reads_nat (q.den - 1)))
  have hq : mkRat q.num (q.den - 1 + 1) = q := by
    rw [Nat.sub_add_cancel (Nat.one_le_iff_ne_zero.mpr q.den_nz)]
    exact Rat.mkRat_self q
  rw [hq] at h
  exact h

/-- A parser that reads a tag byte and goes on with `q`. -/
theorem reads_tag {α : Type} {p q : Parser α} {tag : Byte} {bs : List Byte} {x : α}
    (ht : ∀ r, p (tag :: r) = q r) (h : Reads q bs x) : Reads p (tag :: bs) x := by
  intro rest
  rw [List.cons_append, ht]
  exact h rest

theorem reads_num (v : RealNum) (h : v.isOperand = true) : Reads getNum (putNum v) v := by
  cases v with
  | rat q => exact reads_tag (fun _ => rfl) (reads_map (f := RealNum.rat) (reads_rat q))
  | named k => exact reads_tag (fun _ => rfl) (reads_map (f := RealNum.named) (reads_nat k))
  | add a b => cases h
  | mul a b => cases h
  | clip a => cases h
  | wrap a => cases h

theorem reads_msgType (t : MsgType) : Reads getMsgType (putMsgType t) t := by
  intro rest
  cases t <;> rfl

theorem reads_bps (b : Bps) : Reads getBps (putBps b) b := by
  intro rest
  cases b <;> rfl

theorem reads_charset (c : Charset) : Reads getCharset (putCharset c) c := by
  intro rest
  cases c <;> rfl

theorem reads_chunk (c : Chunk) (h : 0 < c.pcmRate) (hs : c.samples.all RealNum.isOperand = true) :
    Reads getChunk (putChunk c) c := by
  have hr := reads_bind (f := fun samples => getNat >>= fun r => (pure (Chunk.mk samples (r + 1)) : Parser Chunk))
    (reads_seq c.samples (fun x hx => reads_num x (List.all_eq_true.mp hs x hx)))
    (reads_map (f := fun r => Chunk.mk c.samples (r + 1)) (reads_nat (c.pcmRate - 1)))
  have hc : Chunk.mk c.samples (c.pcmRate - 1 + 1) = c := by
    rw [Nat.sub_add_cancel h]
  rw [hc] at hr
  exact hr

theorem reads_real (v : RealVal) (h : v.isOperand = true) : Reads getReal (putReal v) v := by
  cases v with
  | num v => exact reads_tag (fun _ => rfl) (reads_map (f := RealVal.num) (reads_num v h))
  | sinTurns t => exact reads_tag (fun _ => rfl) (reads_map (f := RealVal.sinTurns) (reads_num t h))
  | cosTurns t => exact reads_tag (fun _ => rfl) (reads_map (f := RealVal.cosTurns) (reads_num t h))

theorem reads_cfgWrite (w : CfgWrite) (h : w.isOperand = true) : Reads getCfgWrite (putCfgWrite w) w := by
  cases w with
  | localGain v => exact reads_tag (fun _ => rfl) (reads_map (f := CfgWrite.localGain) (reads_num v h))
  | subChunkSamples v =>
    exact reads_tag (fun _ => rfl) (reads_map (f := CfgWrite.subChunkSamples) (reads_int v))
  | fmDeviationKHz v =>
    exact reads_tag (fun _ => rfl) (reads_map (f := CfgWrite.fmDeviationKHz) (reads_num v h))
  | am v => exact reads_tag (fun _ => rfl) (reads_map (f := CfgWrite.am) (reads_bool v))
  | turnOffTxWhenIdle v =>
    exact reads_tag (fun _ => rfl) (reads_map (f := CfgWrite.turnOffTxWhenIdle) (reads_bool v))
  | frequency v =>
    exact reads_tag (fun _ => rfl) (reads_map (f := CfgWrite.frequency) (reads_bits 8 v (by norm_num)))
  | gain v => exact reads_tag (fun _ => rfl) (reads_map (f := CfgWrite.gain) (reads_num v h))
  | amp v => exact reads_tag (fun _ => rfl) (reads_map (f := CfgWrite.amp) (reads_bool v))
  | fskSampleRate v =>
    exact reads_tag (fun _ => rfl) (reads_map (f := CfgWrite.fskSampleRate) (reads_int v))
  | maxBatches v => exact reads_tag (fun _ => rfl) (reads_map (f := CfgWrite.maxBatches) (reads_int v))

/-- An operation whose operand parser reads all its bytes decodes. -/
theorem decode_of_reads {sel : Byte} {bs : List Byte} {i : Instr}
    (h : Reads (getOperation sel.toNat) bs i) : decode (.op (sel :: bs)) = .ok i := by
  show finish (getOperation sel.toNat bs) = _
  have := h []
  rw [List.append_nil] at this
  rw [this]
  rfl

/-- The four bytes of a word, read as a codeword. -/
theorem decode_putCodeword (w : Word) : decode (putCodeword w) = .ok (decodeCodeword w) := by
  unfold putCodeword decode
  have hl := leBytes_length 4 w.toNat
  simp only
  rw [if_neg (by omega), List.take_of_length_le (by omega), List.drop_of_length_le (by omega),
    leNat_leBytes, Nat.mod_eq_of_lt (by have := w.isLt; norm_num at *; omega),
    BitVec.ofNat_toNat, BitVec.setWidth_eq]
  rfl

end Sys2Proof
end

