-- ==== Sys2Proof/Laws/Encoder.lean ====
section
/-! SUPPORT. What each shared operation of the encoder can do, said once: bit order (40_bit_utilities.md rule R80),
the division of U-BCH (R82), parity (R83), byte order (R41, R86, R87), the message buffer (41_message_buffer.md
rules R95 and R96) and the sample sequence (44_fsk_modulator.md rule R126). -/

namespace Sys2Proof.Machine

open Sys2Proof

/-! ### Bit order -/

theorem revBits_foldl_getLsbD (x : Word) (n m j : Nat) (hj : j < 32) :
    ((List.range m).foldl (fun r i => if x.getLsbD (n - 1 - i) then r ||| (1#32 <<< i) else r)
      0#32).getLsbD j = (decide (j < m) && x.getLsbD (n - 1 - j)) := by
  induction m with
  | zero => simp
  | succ m ih =>
    rw [List.range_succ, List.foldl_append]
    simp only [List.foldl_cons, List.foldl_nil]
    split
    · rename_i hx
      rw [BitVec.getLsbD_or, ih]
      rcases Nat.lt_trichotomy j m with h | h | h
      · simp [h, Nat.lt_succ_of_lt h, BitVec.getLsbD_shiftLeft]
      · subst h; simp [hx, hj]
      · simp [BitVec.getLsbD_shiftLeft, show ¬ j < m by omega, show ¬ j < m + 1 by omega,
          show j - m ≠ 0 by omega]
    · rename_i hx
      rw [ih]
      rcases Nat.lt_trichotomy j m with h | h | h
      · simp [h, Nat.lt_succ_of_lt h]
      · subst h; simpa using hx
      · simp [show ¬ j < m by omega, show ¬ j < m + 1 by omega]

theorem revBits_getLsbD (x : Word) (n j : Nat) (hj : j < 32) :
    (revBits x n).getLsbD j = (decide (j < n) && x.getLsbD (n - 1 - j)) :=
  revBits_foldl_getLsbD x n n j hj

@[simp] theorem bitsDown_length (w : Word) (n : Nat) : (bitsDown w n).length = n := by simp [bitsDown]

theorem bitsDown_getElem? {w : Word} {n i : Nat} (h : i < n) :
    (bitsDown w n)[i]? = some (w.getLsbD (n - 1 - i)) := by simp [bitsDown, h]

/-- A word reversed and then read from its highest bit down gives its bits from the lowest up. -/
theorem bitsDown_revBits {w : Word} {n i : Nat} (hn : n ≤ 32) (h : i < n) :
    (bitsDown (revBits w n) n)[i]? = some (w.getLsbD i) := by
  rw [bitsDown_getElem? h, revBits_getLsbD _ _ _ (by omega)]
  simp [show n - 1 - i < n by omega, show n - 1 - (n - 1 - i) = i by omega]

/-! ### The division of U-BCH -/

/-- Step `k` of the division, on the register alone. -/
def bchReg (r : Word) (k : Nat) : Word := if r.getLsbD (31 - k) then r ^^^ (bchGen >>> k) else r

theorem bchStep_mask (r : Word) {k : Nat} (hk : k < 32) :
    r &&& (0x80000000#32 >>> k) ≠ 0#32 ↔ r.getLsbD (31 - k) = true := by
  have hm : ∀ j, j < 32 → (0x80000000#32 >>> k).getLsbD j = decide (j = 31 - k) := by
    intro j hj
    rw [BitVec.getLsbD_ushiftRight]
    have h31 : ∀ i, (0x80000000#32).getLsbD i = decide (i = 31) := by
      intro i
      by_cases hi : i < 32
      · interval_cases i <;> decide
      · rw [BitVec.getLsbD_of_ge _ _ (by omega)]; simp; omega
    rw [h31]; simp; omega
  constructor
  · intro h
    by_contra hc
    apply h
    apply BitVec.eq_of_getLsbD_eq
    intro j hj
    rw [BitVec.getLsbD_and, hm j hj]
    by_cases hjk : j = 31 - k
    · subst hjk; simp_all
    · simp [hjk]
  · intro h hc
    have := congrArg (fun w => w.getLsbD (31 - k)) hc
    simp [BitVec.getLsbD_and, hm _ (show 31 - k < 32 by omega), h] at this

/-- The registers of U-BCH after `n` steps. -/
theorem bchStep_foldl (w : Word) {n : Nat} (hn : n ≤ 31) :
    (List.range n).foldl bchStep (bchInit w) =
      ⟨(List.range n).foldl bchReg w, bchGen >>> n, 0x80000000#32 >>> n, BitVec.ofNat 5 (n - 1)⟩ := by
  induction n with
  | zero => rfl
  | succ n ih =>
    rw [List.range_succ, List.foldl_append, List.foldl_append, ih (by omega)]
    simp only [List.foldl_cons, List.foldl_nil, bchStep, bchReg, bchStep_mask _ (show n < 32 by omega),
      BitVec.shiftRight_add, Nat.add_sub_cancel]

/-- R82: the registers of U-BCH as the division leaves them. -/
theorem bchLoop_eq (w : Word) :
    bchLoop w = ⟨bchRem w, bchGen >>> 21, 0x80000000#32 >>> 21, 20#5⟩ := by
  rw [bchRem, bchLoop, bchStep_foldl w (by omega)]

theorem bchRem_eq (w : Word) : bchRem w = (List.range 21).foldl bchReg w := by
  rw [bchRem, bchLoop, bchStep_foldl w (by omega)]

theorem bchGen_shift_getLsbD (k j : Nat) :
    (bchGen >>> k).getLsbD j = decide (k + j ∈ [21, 24, 26, 27, 29, 30, 31]) := by
  rw [BitVec.getLsbD_ushiftRight]
  by_cases h : k + j < 32
  · generalize k + j = i at h
    interval_cases i <;> decide
  · rw [BitVec.getLsbD_of_ge _ _ (by omega)]
    simp; omega

/-- R82: after `n` steps the top `n` bits are clear. -/
theorem bchReg_foldl_top (w : Word) {n j : Nat} (hj : j < 32) (h : 32 ≤ n + j) (hn : n ≤ 31) :
    ((List.range n).foldl bchReg w).getLsbD j = false := by
  induction n with
  | zero => omega
  | succ n ih =>
    rw [List.range_succ, List.foldl_append]
    simp only [List.foldl_cons, List.foldl_nil, bchReg]
    rcases Nat.lt_or_ge (31 - n) j with hlt | hge
    · have h0 := ih (by omega) (by omega)
      split
      · rw [BitVec.getLsbD_xor, h0, bchGen_shift_getLsbD]; simp; omega
      · exact h0
    · have hjn : j = 31 - n := by omega
      split
      · rename_i hb
        rw [BitVec.getLsbD_xor, bchGen_shift_getLsbD, hjn, hb]
        simp; omega
      · rename_i hb; rw [hjn]; simpa using hb

/-- R82: bit 0 is never changed. -/
theorem bchReg_foldl_zero (w : Word) {n : Nat} (hn : n ≤ 21) :
    ((List.range n).foldl bchReg w).getLsbD 0 = w.getLsbD 0 := by
  induction n with
  | zero => rfl
  | succ n ih =>
    rw [List.range_succ, List.foldl_append]
    simp only [List.foldl_cons, List.foldl_nil, bchReg]
    split
    · rw [BitVec.getLsbD_xor, ih (by omega), bchGen_shift_getLsbD]
      simp only [List.mem_cons, List.not_mem_nil, or_false]
      rw [decide_eq_false (by omega), Bool.xor_false]
    · exact ih (by omega)

/-- R82: the remainder lies in bits 10:0, and bit 0 is that of the operand. -/
theorem bchRem_getLsbD_top (w : Word) {j : Nat} (h : 11 ≤ j) : (bchRem w).getLsbD j = false := by
  by_cases hj : j < 32
  · rw [bchRem_eq, bchReg_foldl_top w hj (by omega) (by omega)]
  · exact BitVec.getLsbD_of_ge _ _ (by omega)

theorem bchRem_getLsbD_zero (w : Word) : (bchRem w).getLsbD 0 = w.getLsbD 0 := by
  rw [bchRem_eq, bchReg_foldl_zero w (by omega)]

theorem low_bits_zero {w : Word} (h : w &&& 0x7FF#32 = 0#32) {j : Nat} (hj : j < 11) :
    w.getLsbD j = false := by
  have := congrArg (fun v => v.getLsbD j) h
  simp only [BitVec.getLsbD_and, BitVec.getLsbD_zero] at this
  rwa [show (0x7FF#32).getLsbD j = true by interval_cases j <;> rfl, Bool.and_true] at this

/-! ### Parity -/

theorem countP_range (p : Nat → Bool) (n : Nat) :
    (List.range n).countP p = ∑ i : Fin n, (p i.val).toNat := by
  induction n with
  | zero => rfl
  | succ n ih =>
    rw [List.range_succ, List.countP_append, ih, Fin.sum_univ_castSucc]
    cases h : p n <;> simp [h]

theorem popcount_eq (w : Word) : popcount w = setBits w := countP_range _ _

theorem parityWord_getLsbD (v : Word) {i : Nat} (h : 1 ≤ i) :
    (parityWord v).getLsbD i = v.getLsbD i := by
  unfold parityWord
  split
  · rw [BitVec.getLsbD_or]
    have : (1#32).getLsbD i = false := by simp; omega
    rw [this, Bool.or_false]
  · rfl

theorem parityWord_getLsbD_zero (v : Word) (h : v.getLsbD 0 = false) :
    (parityWord v).getLsbD 0 = decide (setBits v % 2 = 1) := by
  unfold parityWord
  rw [popcount_eq]
  split <;> simp_all

/-- R83: a word whose bit 0 is clear comes out with an even number of ones. -/
theorem setBits_parityWord (v : Word) (h : v.getLsbD 0 = false) : setBits (parityWord v) % 2 = 0 := by
  have h0 := parityWord_getLsbD_zero v h
  have e : ∀ w : Word, setBits w = (w.getLsbD 0).toNat + ∑ i : Fin 31, (w.getLsbD (i.val + 1)).toNat := by
    intro w; rw [setBits, Fin.sum_univ_succ]; rfl
  have hv := e v
  rw [e, h0, Finset.sum_congr rfl (fun i _ => by rw [parityWord_getLsbD v (Nat.le_add_left 1 i.val)])]
  rw [h] at hv
  simp only [Bool.toNat_false, Nat.zero_add] at hv
  rw [← hv]
  rcases Nat.mod_two_eq_zero_or_one (setBits v) with h2 | h2 <;> (simp [h2]; try omega)

/-- R84: the data bits of a signed word. -/
theorem signWord_getLsbD (w : Word) {j : Nat} (h : 11 ≤ j) : (signWord w).getLsbD j = w.getLsbD j := by
  rw [signWord, parityWord_getLsbD _ (by omega), BitVec.getLsbD_or, bchRem_getLsbD_top w h, Bool.or_false]

/-! ### Byte order -/

@[simp] theorem wordBytes_length (w : Word) : (wordBytes w).length = 4 := rfl

theorem leNat_wordBytes (w : Word) : BitVec.ofNat 32 (leNat (wordBytes w)) = w := by
  apply BitVec.eq_of_toNat_eq
  have := w.isLt
  simp only [wordBytes, leNat, BitVec.toNat_ofNat, BitVec.extractLsb'_toNat, Nat.shiftRight_eq_div_pow]
  omega

/-- R42: a word read where it was emitted. -/
theorem wordAt_append (buf tl : List Byte) (w : Word) :
    wordAt (buf ++ (wordBytes w ++ tl)) buf.length = w := by
  rw [wordAt, List.drop_left, show (4 : Nat) = (wordBytes w).length from rfl, List.take_left,
    leNat_wordBytes]

/-! ### The message buffer -/

/-- R67: NUMMAP is the table. -/
theorem numMap_eq (c : Byte) : numMap c = numericTable.lookup c := by
  revert c; decide +kernel

/-- R95: the buffer of a text all of whose characters are mapped. -/
theorem buildNumFrom_ok (i : Nat) (msg : List Byte) (vs : List Nat)
    (h : msg.map numMap = vs.map some) : buildNumFrom i msg = .ok (vs.flatMap numCell) := by
  induction msg generalizing i vs with
  | nil =>
    cases vs with
    | nil => rfl
    | cons => simp at h
  | cons c cs ih =>
    cases vs with
    | nil => simp at h
    | cons v vs =>
      simp only [List.map_cons, List.cons.injEq] at h
      simp [buildNumFrom, h.1, ih (i + 1) vs h.2]

/-- R95: the first unmapped character. -/
theorem buildNumFrom_error (i : Nat) (pre post : List Byte) (c : Byte)
    (hp : ∀ x ∈ pre, (numMap x).isSome) (hc : numMap c = none) :
    buildNumFrom i (pre ++ c :: post) = .error (.unmappedNumericChar (i + pre.length) c) := by
  induction pre generalizing i with
  | nil => simp [buildNumFrom, hc]
  | cons x xs ih =>
    obtain ⟨v, hv⟩ := Option.isSome_iff_exists.mp (hp x (by simp))
    simp only [List.cons_append, buildNumFrom, hv, ih (i + 1) (fun y hy => hp y (by simp [hy]))]
    simp; omega

theorem flatMap_cells_length {α β : Type} {f : α → List β} {n : Nat} (hf : ∀ a, (f a).length = n)
    (xs : List α) : (xs.flatMap f).length = n * xs.length := by
  simp [List.length_flatMap, hf, Nat.mul_comm]

/-- Element `k` of cell `i` where every cell has `n` elements. -/
theorem flatMap_cells_getElem? {α β : Type} {f : α → List β} {n : Nat} (hf : ∀ a, (f a).length = n)
    (xs : List α) {i k : Nat} (hk : k < n) :
    (xs.flatMap f)[n * i + k]? = xs[i]?.bind (fun a => (f a)[k]?) := by
  induction xs generalizing i with
  | nil => simp
  | cons x xs ih =>
    cases i with
    | zero => simp [List.getElem?_append_left, hf, hk]
    | succ i =>
      rw [List.flatMap_cons, List.getElem?_append_right (by rw [hf]; nlinarith), hf,
        show n * (i + 1) + k - n = n * i + k by rw [Nat.mul_succ]; omega, ih]
      simp

theorem numCell_length (v : Nat) : (numCell v).length = 4 := bitsDown_length _ _

theorem numCell_getElem? (v : Nat) {k : Nat} (h : k < 4) : (numCell v)[k]? = some (v.testBit k) := by
  rw [numCell, bitsDown_revBits (by omega) h, BitVec.getLsbD_ofNat]
  simp; omega

theorem alphaCell_getElem? (c : Byte) {k : Nat} (h : k < 7) :
    (bitsDown (alphaCell c) 7)[k]? = some (c.getLsbD k) := by
  rw [alphaCell, bitsDown_revBits (by omega) h, BitVec.getLsbD_setWidth, BitVec.getLsbD_and]
  have : (0x7F#8).getLsbD k = true := by interval_cases k <;> rfl
  rw [this]; simp; omega

/-! ### The sample sequence -/

/-- R123, R124: the bits of the stream, each byte from bit 0 up. -/
theorem preambleBits_getElem? (b : Byte) {k : Nat} (h : k < 8) :
    (preambleBits b)[k]? = some (b.getLsbD k) := by
  rw [preambleBits, bitsDown_revBits (by omega) h, BitVec.getLsbD_setWidth]
  simp; omega

theorem bodyBits_getElem? (w : Word) {k : Nat} (h : k < 32) : (bodyBits w)[k]? = some (w.getLsbD k) := by
  rw [bodyBits, bitsDown_revBits (by omega) h]

@[simp] theorem sendBit_length (n : Nat) (v : Bool) : (sendBit n v).length = n := by simp [sendBit]

/-- FSKMOD, when it answers: both checks have passed, and the samples are those of `fskPcm`. -/
theorem fskRun_spec {framed : List Byte} {bps : Bps} {rate : Nat} {e e' : Enc}
    (h : fskRun framed bps rate e = .ok e') :
    72 ≤ framed.length ∧ (framed.length - 72) % 4 = 0 ∧ 0 < rate / bpsRate bps ∧
      e' = e.fskDone (rate / bpsRate bps) framed (fskPcm rate (rate / bpsRate bps) framed) := by
  unfold fskRun at h
  dsimp only at h
  split at h
  · cases h
  · rename_i hl
    split at h
    · cases h
    · rename_i hr
      simp only [preambleLen] at hl
      simp only [Except.ok.injEq] at h
      exact ⟨by omega, by omega, Nat.pos_of_ne_zero hr, h.symm⟩

/-! ### ENCODE -/

/-- R112: the message buffer that ENCODE builds, when it builds one. -/
theorem buildMessage_spec {type : MsgType} {charset : Charset} {text : List Byte} {e e' : Enc}
    (h : buildMessage type charset text e = .ok e') :
    ∃ msg bits, e' = e.message msg bits (decide (type = .numeric)) ∧
      (type = .tone → bits = []) ∧
      (type = .numeric → msg = text ∧ buildNumFrom 0 text = .ok bits) ∧
      (type = .alphanumeric → msg = (if charset = .raw then text else recodeLatin text) ∧
        charset ≠ .cyrillic ∧ bits = buildAlphaBits msg) := by
  unfold buildMessage at h
  split at h
  · exact ⟨_, _, (Except.ok.inj h).symm, by simp, by simp, by simp⟩
  · split at h
    · cases h
    · rename_i hb
      exact ⟨_, _, (Except.ok.inj h).symm, by simp, fun _ => ⟨rfl, hb⟩, by simp⟩
  · split at h
    · exact ⟨_, _, (Except.ok.inj h).symm, by simp, by simp, by simp⟩
    · exact ⟨_, _, (Except.ok.inj h).symm, by simp, by simp, by simp⟩
    · cases h

/-- R117: the codeword that the slot at `f`, `s` takes. -/
def Enc.slotWord (ric : BitVec 21) (function : BitVec 2) (e : Enc) : Word :=
  if e.placed = false then
    if e.f = e.addrFrame ∧ e.s = 0 then mkaddrWord ric function else idleCw
  else mkmsgWord e.mbuf e.offset e.maxBits e.numeric

/-- R117: a slot adds one codeword to the stream. -/
theorem Enc.fillSlot_out (ric : BitVec 21) (function : BitVec 2) (e : Enc) :
    (Enc.fillSlot ric function e).out = e.out ++ wordBytes (Enc.slotWord ric function e) := by
  unfold Enc.fillSlot Enc.slotWord
  split
  · split <;> rfl
  · unfold Enc.mkmsgSigned
    split <;> simp_all [Enc.emit, Enc.signed]

/-- R117: what a slot leaves as it is, and the two registers by which it goes on. -/
theorem Enc.fillSlot_frame (ric : BitVec 21) (function : BitVec 2) (e : Enc) :
    (Enc.fillSlot ric function e).mbuf = e.mbuf ∧
    (Enc.fillSlot ric function e).maxBits = e.maxBits ∧
    (Enc.fillSlot ric function e).numeric = e.numeric ∧
    (Enc.fillSlot ric function e).addrFrame = e.addrFrame ∧
    (Enc.fillSlot ric function e).batchCount = e.batchCount ∧
    (Enc.fillSlot ric function e).placed = (e.placed || decide (e.f = e.addrFrame ∧ e.s = 0)) ∧
    (Enc.fillSlot ric function e).offset =
      (if e.placed = false then e.offset else mkmsgOffset e.offset e.maxBits) := by
  unfold Enc.fillSlot
  split
  · split <;> simp_all [Enc.emit, Enc.signed]
  · unfold Enc.mkmsgSigned
    split <;> simp_all [Enc.emit, Enc.signed]

end Sys2Proof.Machine
end

