-- ==== Sys2Proof/Laws/Memory.lean ====
section
/-! SUPPORT. The laws of the ring memory: what a write keeps (the canonical form, every other address) and
what reading it back gives. -/

namespace Sys2Proof.Machine

open Sys2Proof

theorem Memory.cells_length (base : Nat) (bs : List Byte) :
    (Memory.cells base bs).length = bs.length := by
  induction bs generalizing base with
  | nil => rfl
  | cons b bs ih => simp [Memory.cells, ih]

theorem Memory.mem_cells {c : Host.Cell} {bs : List Byte} :
    ∀ {base : Nat}, c ∈ Memory.cells base bs → base ≤ c.1 ∧ c.1 < base + bs.length := by
  induction bs with
  | nil => intro base h; simp [Memory.cells] at h
  | cons b bs ih =>
    intro base h
    simp only [Memory.cells, List.mem_cons] at h
    rcases h with rfl | h
    · simp
    · have := ih h
      simp only [List.length_cons]
      omega

theorem Memory.wf_cells (bs : List Byte) : ∀ base : Nat, Memory.wf (Memory.cells base bs) := by
  induction bs with
  | nil => intro base; exact List.Pairwise.nil
  | cons b bs ih =>
    intro base
    refine List.Pairwise.cons ?_ (ih (base + 1))
    intro c hc
    have := Memory.mem_cells hc
    simp only
    omega

/-- A write keeps the canonical form. -/
theorem Memory.wf_write {m : Memory} (h : Memory.wf m) (base : Nat) (bs : List Byte) :
    Memory.wf (Memory.write m base bs) := by
  unfold Memory.write
  simp only [Memory.wf, List.pairwise_append]
  refine ⟨⟨h.filter _, Memory.wf_cells bs base, ?_⟩, h.filter _, ?_⟩
  · intro a ha c hc
    have h1 := (List.mem_filter.mp ha).2
    have h2 := Memory.mem_cells hc
    simp only [decide_eq_true_eq] at h1
    omega
  · intro a ha c hc
    have h2 := (List.mem_filter.mp hc).2
    simp only [decide_eq_true_eq] at h2
    rcases List.mem_append.mp ha with ha | ha
    · have h1 := (List.mem_filter.mp ha).2
      simp only [decide_eq_true_eq] at h1
      omega
    · have h1 := Memory.mem_cells ha
      omega

/-- Where the addresses after a write may be. -/
theorem Memory.mem_write {m : Memory} {base : Nat} {bs : List Byte} {c : Host.Cell}
    (h : c ∈ Memory.write m base bs) : c ∈ m ∨ base ≤ c.1 ∧ c.1 < base + bs.length := by
  unfold Memory.write at h
  simp only [List.mem_append] at h
  rcases h with (h | h) | h
  · exact .inl (List.mem_filter.mp h).1
  · exact .inr (Memory.mem_cells h)
  · exact .inl (List.mem_filter.mp h).1

theorem Memory.lookup_filter_of {p : Host.Cell → Bool} {a : Nat} (m : Memory)
    (h : ∀ b, p (a, b) = true) : (m.filter p).lookup a = m.lookup a := by
  induction m with
  | nil => rfl
  | cons c m ih =>
    obtain ⟨x, b⟩ := c
    by_cases hx : a = x
    · subst hx
      simp [h b]
    · have hx' : (a == x) = false := by simpa using hx
      rw [List.filter_cons]
      split
      · simp [List.lookup_cons, hx', ih]
      · simp [List.lookup_cons, hx', ih]

theorem Memory.lookup_filter_none {p : Host.Cell → Bool} {a : Nat} (m : Memory)
    (h : ∀ b, p (a, b) = false) : (m.filter p).lookup a = none := by
  induction m with
  | nil => rfl
  | cons c m ih =>
    obtain ⟨x, b⟩ := c
    rw [List.filter_cons]
    split
    · rename_i hp
      have hx : (a == x) = false := by
        simp only [beq_eq_false_iff_ne, ne_eq]
        rintro rfl
        rw [h b] at hp
        cases hp
      simp [List.lookup_cons, hx, ih]
    · exact ih

theorem Memory.lookup_cells (bs : List Byte) : ∀ base a : Nat,
    (Memory.cells base bs).lookup a = if base ≤ a then bs[a - base]? else none := by
  induction bs with
  | nil => intro base a; simp [Memory.cells]
  | cons b bs ih =>
    intro base a
    simp only [Memory.cells, List.lookup_cons]
    by_cases h : a = base
    · subst h; simp
    · have hb : (a == base) = false := by simpa using h
      rw [hb, ih]
      simp only
      by_cases h1 : base ≤ a
      · rw [if_pos h1, if_pos (by omega)]
        obtain ⟨k, rfl⟩ : ∃ k, a = base + 1 + k := ⟨a - base - 1, by omega⟩
        rw [show base + 1 + k - (base + 1) = k by omega, show base + 1 + k - base = k + 1 by omega]
        simp
      · rw [if_neg h1, if_neg (by omega)]

theorem Memory.lookup_append (m n : Memory) (a : Nat) :
    (m ++ n).lookup a = (m.lookup a).or (n.lookup a) := by
  induction m with
  | nil => simp
  | cons c m ih =>
    obtain ⟨x, b⟩ := c
    simp only [List.cons_append, List.lookup_cons]
    split
    · simp
    · exact ih

/-- Reading after a write: the byte written, or what was there before. -/
theorem Memory.read_write (m : Memory) (base : Nat) (bs : List Byte) (a : Nat) :
    Memory.read (Memory.write m base bs) a
      = if base ≤ a ∧ a < base + bs.length then bs[a - base]? else Memory.read m a := by
  unfold Memory.read Memory.write
  simp only
  rw [Memory.lookup_append, Memory.lookup_append, Memory.lookup_cells]
  by_cases h1 : a < base
  · rw [Memory.lookup_filter_of m (fun _ => by simpa using h1),
      Memory.lookup_filter_none m (fun _ => by simp; omega), if_neg (by omega), if_neg (by omega)]
    cases m.lookup a <;> rfl
  · rw [Memory.lookup_filter_none m (fun _ => by simp; omega)]
    by_cases h2 : a < base + bs.length
    · rw [Memory.lookup_filter_none m (fun _ => by simp; omega), if_pos (by omega), if_pos (by omega)]
      cases bs[a - base]? <;> rfl
    · rw [Memory.lookup_filter_of m (fun _ => by simp; omega), if_pos (by omega), if_neg (by omega),
        List.getElem?_eq_none (by omega)]
      simp

theorem Memory.read_write_of_lt {m : Memory} {base a : Nat} {bs : List Byte} (h : a < base) :
    Memory.read (Memory.write m base bs) a = Memory.read m a := by
  rw [Memory.read_write, if_neg (by omega)]

theorem Memory.read_write_of_ge {m : Memory} {base a : Nat} {bs : List Byte}
    (h : base + bs.length ≤ a) : Memory.read (Memory.write m base bs) a = Memory.read m a := by
  rw [Memory.read_write, if_neg (by omega)]

/-- What is held stays held after a write. -/
theorem Memory.read_write_isSome {m : Memory} {base a : Nat} {bs : List Byte}
    (h : (Memory.read m a).isSome) : (Memory.read (Memory.write m base bs) a).isSome := by
  rw [Memory.read_write]
  split
  · rw [List.getElem?_eq_getElem (by omega)]; rfl
  · exact h

/-- Reading `n` bytes gives them, each at its address. -/
theorem Memory.readMany_some {m : Memory} : ∀ {n base : Nat} {bs : List Byte},
    Memory.readMany m base n = some bs →
      bs.length = n ∧ ∀ i, i < n → Memory.read m (base + i) = bs[i]? := by
  intro n
  induction n with
  | zero => intro base bs h; simp [Memory.readMany] at h; subst h; simp
  | succ n ih =>
    intro base bs h
    rw [Memory.readMany] at h
    split at h
    · rename_i b bs' h1 h2
      simp only [Option.some.injEq] at h
      subst h
      have h3 := ih h2
      refine ⟨by simp [h3.1], ?_⟩
      intro i hi
      rcases i with _ | i
      · simpa using h1
      · rw [show base + (i + 1) = base + 1 + i by omega, h3.2 i (by omega)]
        simp
    · cases h

/-- `n` bytes that all hold a value can be read. -/
theorem Memory.readMany_isSome {m : Memory} : ∀ {n base : Nat},
    (∀ i, i < n → (Memory.read m (base + i)).isSome) → ∃ bs, Memory.readMany m base n = some bs := by
  intro n
  induction n with
  | zero => intro base _; exact ⟨[], rfl⟩
  | succ n ih =>
    intro base h
    obtain ⟨bs, hbs⟩ := ih (base := base + 1) (fun i hi => by
      rw [show base + 1 + i = base + (i + 1) by omega]; exact h (i + 1) (by omega))
    obtain ⟨b, hb⟩ := Option.isSome_iff_exists.mp (h 0 (by omega))
    rw [Nat.add_zero] at hb
    exact ⟨b :: bs, by rw [Memory.readMany, hb, hbs]⟩

/-- The bytes read are the bytes held. -/
theorem Memory.readMany_eq {m : Memory} {base : Nat} {bs : List Byte}
    (h : ∀ i, i < bs.length → Memory.read m (base + i) = bs[i]?) :
    Memory.readMany m base bs.length = some bs := by
  induction bs generalizing base with
  | nil => rfl
  | cons b bs ih =>
    rw [List.length_cons, Memory.readMany]
    have h0 := h 0 (by simp)
    rw [Nat.add_zero] at h0
    rw [h0, ih (fun i hi => by
      have := h (i + 1) (by simpa using hi)
      rw [show base + 1 + i = base + (i + 1) by omega, this]
      simp)]
    simp

/-- The slots are disjoint: R48. -/
theorem slotBase_lt (i : BitVec 8) {a : Nat} (h : a < slotCap) : slotBase i + a < bufNum * slotCap := by
  have := i.isLt
  unfold slotBase
  simp only [bufNum, slotCap] at *
  omega

end Sys2Proof.Machine
end

