-- ==== Sys2Proof/Laws/PerInstr.lean ====
section
/-! SUPPORT. The family SelectorByte: every operation is encoded with the selector that 30_encoding.md rule R62
gives it, and every codeword row as the four bytes of a codeword with the type bit of rules R63 to R66. -/

namespace Sys2Proof.Laws

open Sys2Proof

/-- R62: the selector of an operation; none for the codeword rows of R76. -/
def selectorOf : Instr → Option Byte
  | .sync => none
  | .idle => none
  | .message _ _ _ => none
  | .address _ _ _ _ => none
  | .revbits _ _ => some 0x01#8
  | .bchrem _ => some 0x02#8
  | .parity _ => some 0x03#8
  | .sign _ => some 0x04#8
  | .emit32le _ _ => some 0x05#8
  | .read32le _ _ => some 0x06#8
  | .recodeRaw _ => some 0x08#8
  | .recodeLatin _ => some 0x09#8
  | .recodeCyr _ => some 0x0A#8
  | .buildNum _ => some 0x0B#8
  | .buildAlpha _ => some 0x0C#8
  | .mkaddr _ _ => some 0x10#8
  | .mkmsg _ _ _ _ => some 0x11#8
  | .mkidle => some 0x12#8
  | .mksync => some 0x13#8
  | .encode _ _ _ _ _ _ _ => some 0x18#8
  | .fskmod _ _ => some 0x20#8
  | .interp => some 0x28#8
  | .modiq => some 0x30#8
  | .quant _ => some 0x38#8
  | .publish _ => some 0x39#8
  | .drain _ => some 0x3A#8
  | .push _ => some 0x40#8
  | .adopt => some 0x41#8
  | .prepare => some 0x42#8
  | .process => some 0x43#8
  | .start => some 0x44#8
  | .stop => some 0x45#8
  | .setcfg _ => some 0x46#8
  | .isidle => some 0x47#8
  | .waitend _ => some 0x48#8
  | .waitidle _ => some 0x49#8

/-- R63 to R65: the codeword of a codeword row; the operations have none. -/
def codewordOf : Instr → Option Word
  | .sync => some 0x7CD215D8#32
  | .idle => some 0x7A89C197#32
  | .message d b p => some (1#1 ++ d ++ b ++ p)
  | .address a f b p => some (0#1 ++ a ++ f ++ b ++ p)
  | .revbits _ _ => none
  | .bchrem _ => none
  | .parity _ => none
  | .sign _ => none
  | .emit32le _ _ => none
  | .read32le _ _ => none
  | .recodeRaw _ => none
  | .recodeLatin _ => none
  | .recodeCyr _ => none
  | .buildNum _ => none
  | .buildAlpha _ => none
  | .mkaddr _ _ => none
  | .mkmsg _ _ _ _ => none
  | .mkidle => none
  | .mksync => none
  | .encode _ _ _ _ _ _ _ => none
  | .fskmod _ _ => none
  | .interp => none
  | .modiq => none
  | .quant _ => none
  | .publish _ => none
  | .drain _ => none
  | .push _ => none
  | .adopt => none
  | .prepare => none
  | .process => none
  | .start => none
  | .stop => none
  | .setcfg _ => none
  | .isidle => none
  | .waitend _ => none
  | .waitidle _ => none

/-- R41, R62, R76: the first byte of an operation's transfer is its selector, and a codeword row's transfer is
its codeword, least significant byte first. -/
def SelectorByte.Statement (i : Instr) : Prop :=
  (∀ b, selectorOf i = some b → ∃ operands, encode i = .op (b :: operands)) ∧
  (∀ w, codewordOf i = some w → encode i = .codeword
    [w.extractLsb' 0 8, w.extractLsb' 8 8, w.extractLsb' 16 8, w.extractLsb' 24 8]) ∧
  ((selectorOf i).isSome ↔ (codewordOf i).isNone)

theorem leBytes_word (w : Word) :
    leBytes 4 w.toNat = [w.extractLsb' 0 8, w.extractLsb' 8 8, w.extractLsb' 16 8, w.extractLsb' 24 8] := by
  have h := w.isLt
  simp only [leBytes, List.cons.injEq, and_true]
  refine ⟨?_, ?_, ?_, ?_⟩ <;> apply BitVec.eq_of_toNat_eq <;>
    simp only [BitVec.toNat_ofNat, BitVec.extractLsb'_toNat, Nat.shiftRight_eq_div_pow] <;> omega

theorem selectorByte_op {i : Instr} {b : Byte} {operands : List Byte} (hs : selectorOf i = some b)
    (hc : codewordOf i = none) (he : encode i = .op (b :: operands)) : SelectorByte.Statement i := by
  refine ⟨fun b' h => ⟨operands, ?_⟩, fun w h => ?_, ?_⟩
  · rw [hs] at h; cases h; exact he
  · rw [hc] at h; cases h
  · simp [hs, hc]

theorem selectorByte_codeword {i : Instr} {w : Word} (hs : selectorOf i = none)
    (hc : codewordOf i = some w) (he : encode i = putCodeword w) : SelectorByte.Statement i := by
  refine ⟨fun b h => ?_, fun w' h => ?_, ?_⟩
  · rw [hs] at h; cases h
  · rw [hc] at h; cases h; rw [he, putCodeword, leBytes_word]
  · simp [hs, hc]

theorem SelectorByte.sync :
    SelectorByte.Statement .sync := selectorByte_codeword rfl rfl rfl

theorem SelectorByte.idle :
    SelectorByte.Statement .idle := selectorByte_codeword rfl rfl rfl

theorem SelectorByte.message (data : BitVec 20) (bch : BitVec 10) (parity : BitVec 1) :
    SelectorByte.Statement (.message data bch parity) := selectorByte_codeword rfl rfl rfl

theorem SelectorByte.address (addr : BitVec 18) (function : BitVec 2) (bch : BitVec 10) (parity : BitVec 1) :
    SelectorByte.Statement (.address addr function bch parity) := selectorByte_codeword rfl rfl rfl

theorem SelectorByte.revbits (x : Word) (n : Nat) :
    SelectorByte.Statement (.revbits x n) := selectorByte_op rfl rfl rfl

theorem SelectorByte.bchrem (w : Word) :
    SelectorByte.Statement (.bchrem w) := selectorByte_op rfl rfl rfl

theorem SelectorByte.parity (v : Word) :
    SelectorByte.Statement (.parity v) := selectorByte_op rfl rfl rfl

theorem SelectorByte.sign (w : Word) :
    SelectorByte.Statement (.sign w) := selectorByte_op rfl rfl rfl

theorem SelectorByte.emit32le (buf : List Byte) (w : Word) :
    SelectorByte.Statement (.emit32le buf w) := selectorByte_op rfl rfl rfl

theorem SelectorByte.read32le (buf : List Byte) (a : Nat) :
    SelectorByte.Statement (.read32le buf a) := selectorByte_op rfl rfl rfl

theorem SelectorByte.recodeRaw (text : List Byte) :
    SelectorByte.Statement (.recodeRaw text) := selectorByte_op rfl rfl rfl

theorem SelectorByte.recodeLatin (text : List Byte) :
    SelectorByte.Statement (.recodeLatin text) := selectorByte_op rfl rfl rfl

theorem SelectorByte.recodeCyr (text : List Byte) :
    SelectorByte.Statement (.recodeCyr text) := selectorByte_op rfl rfl rfl

theorem SelectorByte.buildNum (msg : List Byte) :
    SelectorByte.Statement (.buildNum msg) := selectorByte_op rfl rfl rfl

theorem SelectorByte.buildAlpha (msg : List Byte) :
    SelectorByte.Statement (.buildAlpha msg) := selectorByte_op rfl rfl rfl

theorem SelectorByte.mkaddr (ric : BitVec 21) (function : BitVec 2) :
    SelectorByte.Statement (.mkaddr ric function) := selectorByte_op rfl rfl rfl

theorem SelectorByte.mkmsg (mbuf : List Bool) (offset : Nat) (maxBits : Nat) (numeric : Bool) :
    SelectorByte.Statement (.mkmsg mbuf offset maxBits numeric) := selectorByte_op rfl rfl rfl

theorem SelectorByte.mkidle :
    SelectorByte.Statement .mkidle := selectorByte_op rfl rfl rfl

theorem SelectorByte.mksync :
    SelectorByte.Statement .mksync := selectorByte_op rfl rfl rfl

theorem SelectorByte.encode (address : Nat) (type : MsgType) (text : List Byte) (bps : Bps) (charset : Charset) (function : BitVec 2) (rawOnly : Bool) :
    SelectorByte.Statement (.encode address type text bps charset function rawOnly) := selectorByte_op rfl rfl rfl

theorem SelectorByte.fskmod (framed : List Byte) (bps : Bps) :
    SelectorByte.Statement (.fskmod framed bps) := selectorByte_op rfl rfl rfl

theorem SelectorByte.interp :
    SelectorByte.Statement .interp := selectorByte_op rfl rfl rfl

theorem SelectorByte.modiq :
    SelectorByte.Statement .modiq := selectorByte_op rfl rfl rfl

theorem SelectorByte.quant (v : RealVal) :
    SelectorByte.Statement (.quant v) := selectorByte_op rfl rfl rfl

theorem SelectorByte.publish (h : Fin 2) :
    SelectorByte.Statement (.publish h) := selectorByte_op rfl rfl rfl

theorem SelectorByte.drain (len : Word) :
    SelectorByte.Statement (.drain len) := selectorByte_op rfl rfl rfl

theorem SelectorByte.push (c : Chunk) :
    SelectorByte.Statement (.push c) := selectorByte_op rfl rfl rfl

theorem SelectorByte.adopt :
    SelectorByte.Statement .adopt := selectorByte_op rfl rfl rfl

theorem SelectorByte.prepare :
    SelectorByte.Statement .prepare := selectorByte_op rfl rfl rfl

theorem SelectorByte.process :
    SelectorByte.Statement .process := selectorByte_op rfl rfl rfl

theorem SelectorByte.start :
    SelectorByte.Statement .start := selectorByte_op rfl rfl rfl

theorem SelectorByte.stop :
    SelectorByte.Statement .stop := selectorByte_op rfl rfl rfl

theorem SelectorByte.setcfg (w : CfgWrite) :
    SelectorByte.Statement (.setcfg w) := selectorByte_op rfl rfl rfl

theorem SelectorByte.isidle :
    SelectorByte.Statement .isidle := selectorByte_op rfl rfl rfl

theorem SelectorByte.waitend (timeout : Nat) :
    SelectorByte.Statement (.waitend timeout) := selectorByte_op rfl rfl rfl

theorem SelectorByte.waitidle (timeout : Nat) :
    SelectorByte.Statement (.waitidle timeout) := selectorByte_op rfl rfl rfl

end Sys2Proof.Laws
end

