-- ==== Sys2Proof/Laws/Reals.lean ====
section
/-! SUPPORT. What the operations on real numbers do to the real numbers they stand for (00_scope.md rule R10,
log 4), and that the names stand for any reals at all. -/

namespace Sys2Proof

/-- Comparisons with every rational tell a real. -/
theorem Reals.names_of_compares {r : Reals} {names : Nat → ℝ} (h : ComparesAs r.cmp names) : r.names = names := by
  funext k
  have hr := r.cmp_right
  by_contra hne
  rcases lt_or_gt_of_ne hne with hl | hl
  · obtain ⟨q, h1, h2⟩ := exists_rat_btwn hl
    exact lt_asymm h2 ((h (.num (.named k)) q).1.mp ((hr (.num (.named k)) q).1.mpr h1))
  · obtain ⟨q, h1, h2⟩ := exists_rat_btwn hl
    exact lt_asymm h1 ((h (.num (.named k)) q).2.mp ((hr (.num (.named k)) q).2.mpr h2))

/-- Nothing is fixed about the names: every choice of reals for them is that of some `Reals`. -/
theorem Reals.names_any (names : Nat → ℝ) : ∃ r : Reals, r.names = names := by
  classical
  have h : ComparesAs (fun v c => if v.value names < c then .lt else if (c : ℝ) < v.value names then .gt else .eq)
      names := by
    intro v c
    rcases lt_trichotomy (v.value names) (c : ℝ) with h | h | h
    · simp [h, h.le]
    · simp [h]
    · simp [h, h.le]
  exact ⟨⟨⟨_, names, h⟩⟩, Reals.names_of_compares h⟩

@[simp] theorem RealNum.real_rat (q : Rat) : (RealNum.rat q).real = q := rfl

@[simp] theorem RealNum.real_named (k : Nat) : (RealNum.named k).real = Config.namedReal k := rfl

@[simp] theorem RealVal.real_num (v : RealNum) : (RealVal.num v).real = v.real := rfl

@[simp] theorem RealVal.real_sinTurns (t : RealNum) :
    (RealVal.sinTurns t).real = Real.sin (2 * Real.pi * t.real) := rfl

@[simp] theorem RealVal.real_cosTurns (t : RealNum) :
    (RealVal.cosTurns t).real = Real.cos (2 * Real.pi * t.real) := rfl

namespace Machine

@[simp] theorem plus_real (a b : RealNum) : (plus a b).real = a.real + b.real := by
  unfold plus
  split
  · simp
  · rfl

@[simp] theorem times_real (a b : RealNum) : (times a b).real = a.real * b.real := by
  unfold times
  split
  · simp
  · rfl

@[simp] theorem minus_real (a b : RealNum) : (minus a b).real = a.real - b.real := by
  simp [minus, sub_eq_add_neg]

@[simp] theorem clipped_real (v : RealNum) : (clipped v).real = max (-1) (min 1 v.real) := by
  unfold clipped
  split
  · simp
  · rfl

theorem clipped_range (v : RealNum) : -1 ≤ (clipped v).real ∧ (clipped v).real ≤ 1 := by
  rw [clipped_real]
  exact ⟨le_max_left _ _, max_le (by norm_num) (min_le_left _ _)⟩

theorem wrapped_real (v : RealNum) : (wrapped v).real = v.real + (⌊1 / 2 - v.real⌋ : ℝ) := by
  unfold wrapped
  split
  · rename_i q
    have h : ((1 / 2 : ℝ) - (q : ℝ)) = ((1 / 2 - q : Rat) : ℝ) := by push_cast; ring
    simp only [RealNum.real_rat, h, Rat.floor_cast]
    push_cast
    rfl
  · rfl

theorem wrapped_range (v : RealNum) : -(1 / 2) < (wrapped v).real ∧ (wrapped v).real ≤ 1 / 2 := by
  rw [wrapped_real]
  have h1 := Int.floor_le (1 / 2 - v.real)
  have h2 := Int.lt_floor_add_one (1 / 2 - v.real)
  constructor <;> linarith

theorem wrapped_congr (v : RealNum) : ∃ z : Int, (wrapped v).real = v.real + z := ⟨_, wrapped_real v⟩

/-- `cmpReal` tells the truth. -/
theorem cmpReal_spec (v : RealVal) (c : Rat) :
    (cmpReal v c = .lt ↔ v.real < c) ∧ (cmpReal v c = .gt ↔ (c : ℝ) < v.real) := by
  unfold cmpReal
  split
  · exact ratCmp_spec _ _
  · exact cosCmp_sinTurns _ _
  · exact cosCmp_cosTurns _ _
  · exact Config.reals.cmp_right _ _

theorem cmpReal_ne_lt (v : RealVal) (c : Rat) : cmpReal v c ≠ .lt ↔ (c : ℝ) ≤ v.real := by
  rw [Ne, (cmpReal_spec v c).1, not_lt]

end Machine

end Sys2Proof
end

