-- ==== Sys2Proof/Laws/Sine.lean ====
section
/-! SUPPORT. The enclosure that QUANT uses for the sine and cosine of a rational number of turns
(47_quantizer_ring.md rule R148, log 6) is right. -/

namespace Sys2Proof.Machine

open Sys2Proof

theorem sum_pairs (f : ℕ → ℂ) (n : ℕ) :
    ∑ m ∈ Finset.range (2 * n), f m = ∑ k ∈ Finset.range n, (f (2 * k) + f (2 * k + 1)) := by
  induction n with
  | zero => rfl
  | succ n ih => rw [show 2 * (n + 1) = 2 * n + 1 + 1 by ring, Finset.sum_range_succ, Finset.sum_range_succ,
      Finset.sum_range_succ, ih, add_assoc]

theorem expTerm_pair (x : ℝ) (k : ℕ) :
    ((x : ℂ) * Complex.I) ^ (2 * k) / ((2 * k).factorial : ℂ)
        + ((x : ℂ) * Complex.I) ^ (2 * k + 1) / ((2 * k + 1).factorial : ℂ)
      = (((-1) ^ k * x ^ (2 * k) / ((2 * k).factorial : ℝ) : ℝ) : ℂ)
        + (((-1) ^ k * x ^ (2 * k + 1) / ((2 * k + 1).factorial : ℝ) : ℝ) : ℂ) * Complex.I := by
  have h : ((x : ℂ) * Complex.I) ^ (2 * k) = (-1) ^ k * (x : ℂ) ^ (2 * k) := by
    rw [mul_pow, pow_mul Complex.I, Complex.I_sq]; ring
  rw [pow_succ, h]
  push_cast
  ring

/-- The Taylor sums of sine and cosine, with `n` terms. -/
theorem taylor_near (n : ℕ) (x : ℝ) (hx : |x| ≤ n) :
    |Real.sin x - ∑ k ∈ Finset.range n, (-1) ^ k * x ^ (2 * k + 1) / ((2 * k + 1).factorial : ℝ)|
        ≤ |x| ^ (2 * n) / ((2 * n).factorial : ℝ) * 2 ∧
      |Real.cos x - ∑ k ∈ Finset.range n, (-1) ^ k * x ^ (2 * k) / ((2 * k).factorial : ℝ)|
        ≤ |x| ^ (2 * n) / ((2 * n).factorial : ℝ) * 2 := by
  have hnorm : ‖(x : ℂ) * Complex.I‖ = |x| := by simp
  have hb := Complex.exp_bound' (x := (x : ℂ) * Complex.I) (n := 2 * n) (by
    rw [hnorm, div_le_iff₀ (by positivity)]
    push_cast
    linarith)
  rw [hnorm, sum_pairs] at hb
  simp only [expTerm_pair] at hb
  rw [Finset.sum_add_distrib, ← Finset.sum_mul, Complex.exp_mul_I, ← Complex.ofReal_sum, ← Complex.ofReal_sum,
    ← Complex.ofReal_cos, ← Complex.ofReal_sin] at hb
  generalize ∑ k ∈ Finset.range n, (-1) ^ k * x ^ (2 * k) / ((2 * k).factorial : ℝ) = C at *
  generalize ∑ k ∈ Finset.range n, (-1) ^ k * x ^ (2 * k + 1) / ((2 * k + 1).factorial : ℝ) = S at *
  generalize Real.sin x = a at *
  generalize Real.cos x = b at *
  constructor
  · refine le_trans ?_ ((Complex.abs_im_le_norm _).trans hb)
    simp
  · refine le_trans ?_ ((Complex.abs_re_le_norm _).trans hb)
    simp

theorem sinSum_eq (x : Rat) : ((sinSum 13 x : Rat) : ℝ)
    = ∑ k ∈ Finset.range 14, (-1) ^ k * (x : ℝ) ^ (2 * k + 1) / ((2 * k + 1).factorial : ℝ) := by
  simp only [sinSum, List.range_succ, List.range_zero, List.nil_append, List.cons_append, List.foldr_cons,
    List.foldr_nil, Finset.sum_range_succ, Finset.sum_range_zero, Nat.factorial]
  push_cast
  ring

theorem cosSum_eq (x : Rat) : ((cosSum 13 x : Rat) : ℝ)
    = ∑ k ∈ Finset.range 14, (-1) ^ k * (x : ℝ) ^ (2 * k) / ((2 * k).factorial : ℝ) := by
  simp only [cosSum, List.range_succ, List.range_zero, List.nil_append, List.cons_append, List.foldr_cons,
    List.foldr_nil, Finset.sum_range_succ, Finset.sum_range_zero, Nat.factorial]
  push_cast
  ring

/-- The angle that the Taylor sums are given. -/
theorem quarter_angle (u : Rat) (h0 : 0 ≤ u) (h1 : u < 1 / 4) :
    |((2 * piApprox * u : Rat) : ℝ)| ≤ 8 / 5 ∧
      |2 * Real.pi * (u : ℝ) - ((2 * piApprox * u : Rat) : ℝ)| ≤ 1 / 10 ^ 20 := by
  have hu0 : (0 : ℝ) ≤ u := by exact_mod_cast h0
  have hu1 : (u : ℝ) ≤ 1 / 4 := by
    have : (u : ℝ) < ((1 / 4 : Rat) : ℝ) := by exact_mod_cast h1
    push_cast at this
    exact this.le
  have hp : ((2 * piApprox * u : Rat) : ℝ) = 2 * (314159265358979323846 / 100000000000000000000) * u := by
    unfold piApprox; push_cast; ring
  have hl := Real.pi_gt_d20
  have hh := Real.pi_lt_d20
  rw [hp]
  constructor
  · rw [abs_le]
    constructor <;> linarith
  · rw [← sub_mul, abs_mul, abs_of_nonneg hu0, ← mul_sub, abs_of_nonneg (by norm_num at hl ⊢; linarith)]
    have : 2 * (Real.pi - 314159265358979323846 / 100000000000000000000) ≤ 4 / 10 ^ 20 := by
      norm_num at hh ⊢; linarith
    calc _ ≤ 4 / 10 ^ 20 * (u : ℝ) := mul_le_mul_of_nonneg_right this hu0
      _ ≤ 4 / 10 ^ 20 * (1 / 4) := mul_le_mul_of_nonneg_left hu1 (by positivity)
      _ = 1 / 10 ^ 20 := by norm_num

theorem taylor_error {x : ℝ} (h : |x| ≤ 8 / 5) :
    |x| ^ (2 * 14) / ((2 * 14).factorial : ℝ) * 2 ≤ 1 / 10 ^ 20 := by
  have h1 : |x| ^ (2 * 14) ≤ (8 / 5 : ℝ) ^ (2 * 14) := pow_le_pow_left₀ (abs_nonneg _) h _
  have h2 : (8 / 5 : ℝ) ^ (2 * 14) / ((2 * 14).factorial : ℝ) * 2 ≤ 1 / 10 ^ 20 := by
    norm_num [Nat.factorial]
  refine le_trans ?_ h2
  gcongr

theorem sinQuarter_near (u : Rat) (h0 : 0 ≤ u) (h1 : u < 1 / 4) :
    |Real.sin (2 * Real.pi * u) - (sinQuarter u : ℝ)| ≤ 2 / 10 ^ 20 := by
  obtain ⟨ha, hb⟩ := quarter_angle u h0 h1
  have hs := (taylor_near 14 _ (ha.trans (by norm_num))).1.trans (taylor_error ha)
  have hd := (Real.abs_sin_sub_sin_le (2 * Real.pi * u) ((2 * piApprox * u : Rat) : ℝ)).trans hb
  rw [← sinSum_eq] at hs
  have := abs_sub_le (Real.sin (2 * Real.pi * u)) (Real.sin ((2 * piApprox * u : Rat) : ℝ)) (sinQuarter u : ℝ)
  unfold sinQuarter at *
  linarith

theorem cosQuarter_near (u : Rat) (h0 : 0 ≤ u) (h1 : u < 1 / 4) :
    |Real.cos (2 * Real.pi * u) - (cosQuarter u : ℝ)| ≤ 2 / 10 ^ 20 := by
  obtain ⟨ha, hb⟩ := quarter_angle u h0 h1
  have hs := (taylor_near 14 _ (ha.trans (by norm_num))).2.trans (taylor_error ha)
  have hd := (Real.abs_cos_sub_cos_le (2 * Real.pi * u) ((2 * piApprox * u : Rat) : ℝ)).trans hb
  rw [← cosSum_eq] at hs
  have := abs_sub_le (Real.cos (2 * Real.pi * u)) (Real.cos ((2 * piApprox * u : Rat) : ℝ)) (cosQuarter u : ℝ)
  unfold cosQuarter at *
  linarith

/-- R148, log 6: the enclosure of a sine is right. -/
theorem sinNear_near (t : Rat) : |Real.sin (2 * Real.pi * t) - (sinNear t : ℝ)| ≤ (trigErr : ℝ) := by
  have herr : (2 : ℝ) / 10 ^ 20 ≤ (trigErr : ℝ) := by unfold trigErr; norm_num
  refine le_trans ?_ herr
  have hf1 : ((t.floor : Int) : Rat) ≤ t := by exact_mod_cast Int.floor_le t
  have hf2 : t < ((t.floor : Int) : Rat) + 1 := by exact_mod_cast Int.lt_floor_add_one t
  have hper : Real.sin (2 * Real.pi * t) = Real.sin (2 * Real.pi * ((t - (t.floor : Rat) : Rat) : ℝ)) := by
    rw [← Real.sin_sub_int_mul_two_pi _ t.floor]
    congr 1
    push_cast
    ring
  rw [hper]
  unfold sinNear
  dsimp only
  have hr0 : 0 ≤ t - ((t.floor : Int) : Rat) := by linarith
  have hr1 : t - ((t.floor : Int) : Rat) < 1 := by linarith
  generalize t - ((t.floor : Int) : Rat) = r at *
  split
  · exact sinQuarter_near r hr0 (by assumption)
  split
  · have := cosQuarter_near (r - 1 / 4) (by linarith) (by linarith)
    rwa [show 2 * Real.pi * ((r - 1 / 4 : Rat) : ℝ) = 2 * Real.pi * r - Real.pi / 2 by push_cast; ring,
      Real.cos_sub_pi_div_two] at this
  split
  · have := sinQuarter_near (r - 1 / 2) (by linarith) (by linarith)
    rw [show 2 * Real.pi * ((r - 1 / 2 : Rat) : ℝ) = 2 * Real.pi * r - Real.pi by push_cast; ring,
      Real.sin_sub_pi, ← abs_neg] at this
    rwa [show -(-Real.sin (2 * Real.pi * r) - (sinQuarter (r - 1 / 2) : ℝ))
      = Real.sin (2 * Real.pi * r) - ((-sinQuarter (r - 1 / 2) : Rat) : ℝ) by push_cast; ring] at this
  · have := cosQuarter_near (r - 3 / 4) (by linarith) (by linarith)
    rw [show 2 * Real.pi * ((r - 3 / 4 : Rat) : ℝ) = 2 * Real.pi * r - Real.pi / 2 - Real.pi by push_cast; ring,
      Real.cos_sub_pi, Real.cos_sub_pi_div_two, ← abs_neg] at this
    rwa [show -(-Real.sin (2 * Real.pi * r) - (cosQuarter (r - 3 / 4) : ℝ))
      = Real.sin (2 * Real.pi * r) - ((-cosQuarter (r - 3 / 4) : Rat) : ℝ) by push_cast; ring] at this

end Sys2Proof.Machine
end

