-- ==== Sys2Proof/Laws/Quantizer.lean ====
section
/-! SUPPORT. What the comparisons of QUANT say of the real number that is rounded (47_quantizer_ring.md rule R148,
00_scope.md rule R10, log 6). -/

namespace Sys2Proof.Machine

open Sys2Proof

/-- R10, D6: `z` is the integer nearest to `x`, ties away from zero. -/
def IsRound (z : ℤ) (x : ℝ) : Prop := |(z : ℝ) - x| < 1 / 2 ∨ |(z : ℝ) - x| = 1 / 2 ∧ |x| < |(z : ℝ)|

theorem IsRound.neg {z : ℤ} {x : ℝ} (h : IsRound z x) : IsRound (-z) (-x) := by
  unfold IsRound at *
  push_cast
  rwa [show -(z : ℝ) - -x = -((z : ℝ) - x) by ring, abs_neg, abs_neg, abs_neg]

/-- The number that `roundHalfAway` takes. -/
theorem isRound_floor {z : ℤ} {x : ℝ} (h : 0 ≤ x) (h1 : (z : ℝ) ≤ x + 1 / 2) (h2 : x + 1 / 2 < z + 1) :
    IsRound z x := by
  rcases lt_or_eq_of_le h1 with h3 | h3
  · left
    rw [abs_lt]
    constructor <;> linarith
  · right
    rw [h3, show x + 1 / 2 - x = 1 / 2 by ring, abs_of_pos (by norm_num : (0 : ℝ) < 1 / 2), abs_of_nonneg h,
      abs_of_pos (by linarith)]
    exact ⟨rfl, by linarith⟩

/-- Every real has one. -/
theorem exists_isRound (x : ℝ) : ∃ z, IsRound z x := by
  rcases le_or_gt 0 x with h | h
  · exact ⟨_, isRound_floor h (Int.floor_le _) (Int.lt_floor_add_one _)⟩
  · have := (isRound_floor (x := -x) (by linarith) (Int.floor_le _) (Int.lt_floor_add_one _)).neg
    rw [neg_neg] at this
    exact ⟨_, this⟩

/-- The ties of `round` against an integer `k` that it may be at least. -/
theorem isRound_le {z : ℤ} {x : ℝ} (h : IsRound z x) (k : ℤ) :
    k ≤ z ↔ if 1 ≤ k then (k : ℝ) - 1 / 2 ≤ x else (k : ℝ) - 1 / 2 < x := by
  have hz : |(z : ℝ) - x| ≤ 1 / 2 := by
    rcases h with h | h
    · exact h.le
    · exact h.1.le
  have hz := abs_le.mp hz
  split
  · rename_i hk
    have hk : (1 : ℝ) ≤ k := by exact_mod_cast hk
    constructor
    · intro hkz
      have : (k : ℝ) ≤ z := by exact_mod_cast hkz
      linarith
    · intro hx
      by_contra hc
      have h1 : (z : ℝ) + 1 ≤ k := by exact_mod_cast (by omega : z + 1 ≤ k)
      have h2 : (z : ℝ) - x = -(1 / 2) := by linarith
      rcases h with h | h
      · rw [h2, abs_neg, abs_of_pos (by norm_num)] at h; exact lt_irrefl _ h
      · have h3 : x = z + 1 / 2 := by linarith
        have h4 : (0 : ℝ) < x := by linarith
        have h5 : (0 : ℝ) ≤ z := by
          have : (-1 : ℝ) < z := by linarith
          have : -1 < z := by exact_mod_cast this
          exact_mod_cast (by omega : (0 : ℤ) ≤ z)
        rw [abs_of_pos h4, abs_of_nonneg h5] at h
        linarith [h.2]
  · rename_i hk
    have hk : (k : ℝ) ≤ 0 := by exact_mod_cast (by omega : k ≤ 0)
    constructor
    · intro hkz
      by_contra hc
      have h1 : (k : ℝ) ≤ z := by exact_mod_cast hkz
      have h2 : (z : ℝ) - x = 1 / 2 := by linarith
      rcases h with h | h
      · rw [h2, abs_of_pos (by norm_num)] at h; exact lt_irrefl _ h
      · have h4 : x < 0 := by linarith
        have h5 : (z : ℝ) ≤ 0 := by
          have : (z : ℝ) < 1 := by linarith
          have : z < 1 := by exact_mod_cast this
          exact_mod_cast (by omega : z ≤ 0)
        rw [abs_of_neg h4, abs_of_nonpos h5] at h
        linarith [h.2]
    · intro hx
      by_contra hc
      have h1 : (z : ℝ) + 1 ≤ k := by exact_mod_cast (by omega : z + 1 ≤ k)
      linarith

/-- R148: `roundsTo` tells whether `round (127 v)` is at least `k`. -/
theorem roundsTo_iff {v : RealVal} {z : ℤ} (h : IsRound z (v.real * 127)) (k : ℤ) :
    roundsTo v k = true ↔ k ≤ z := by
  rw [isRound_le h]
  unfold roundsTo
  have hc : ((((k : Rat) - 1 / 2) / 127 : Rat) : ℝ) = ((k : ℝ) - 1 / 2) / 127 := by push_cast; ring
  dsimp only
  split
  · rw [decide_eq_true_iff, cmpReal_ne_lt, hc, div_le_iff₀ (by norm_num)]
  · rw [decide_eq_true_iff, (cmpReal_spec _ _).2, hc, div_lt_iff₀ (by norm_num)]

theorem countP_range_lt (n m : ℕ) : (List.range n).countP (fun j => decide (j < m)) = min n m := by
  induction n with
  | zero => simp
  | succ n ih =>
    rw [List.range_succ, List.countP_append, ih]
    by_cases h : n < m
    · simp [h]; omega
    · simp [h]; omega

/-- R148: `roundAny` is the clamped `round (127 v)`. -/
theorem roundAny_eq {v : RealVal} {z : ℤ} (h : IsRound z (v.real * 127)) :
    roundAny v = clampInt z (-128) 127 := by
  have hf : (List.range 255).countP (fun j => roundsTo v (Int.ofNat j - 127))
      = (List.range 255).countP (fun j => decide (j < (z + 128).toNat)) := by
    refine List.countP_congr (fun j _ => ?_)
    rw [roundsTo_iff h, decide_eq_true_iff]
    simp only [Int.ofNat_eq_natCast]
    omega
  unfold roundAny clampInt
  rw [hf, countP_range_lt]
  simp only [Int.ofNat_eq_natCast]
  omega

end Sys2Proof.Machine
end

