-- ==== Sys2Proof/Laws/State.lean ====
section
/-! SUPPORT. One lemma per field per named update of the state, each true by definition, so that no later proof
unfolds a record update. -/

namespace Sys2Proof.Machine

open Sys2Proof

/-! ### `State.setHostRet` -/

@[simp] theorem State.setHostRet_enc (r : Ret) (s : State) :
    (State.setHostRet r s).enc = s.enc := rfl
@[simp] theorem State.setHostRet_cfg (r : Ret) (s : State) :
    (State.setHostRet r s).cfg = s.cfg := rfl
@[simp] theorem State.setHostRet_runState (r : Ret) (s : State) :
    (State.setHostRet r s).runState = s.runState := rfl
@[simp] theorem State.setHostRet_ready (r : Ret) (s : State) :
    (State.setHostRet r s).ready = s.ready := rfl
@[simp] theorem State.setHostRet_stop (r : Ret) (s : State) :
    (State.setHostRet r s).stop = s.stop := rfl
@[simp] theorem State.setHostRet_emptyQueue (r : Ret) (s : State) :
    (State.setHostRet r s).emptyQueue = s.emptyQueue := rfl
@[simp] theorem State.setHostRet_prepared (r : Ret) (s : State) :
    (State.setHostRet r s).prepared = s.prepared := rfl
@[simp] theorem State.setHostRet_ppos (r : Ret) (s : State) :
    (State.setHostRet r s).ppos = s.ppos := rfl
@[simp] theorem State.setHostRet_exitSecond (r : Ret) (s : State) :
    (State.setHostRet r s).exitSecond = s.exitSecond := rfl
@[simp] theorem State.setHostRet_txQueue (r : Ret) (s : State) :
    (State.setHostRet r s).txQueue = s.txQueue := rfl
@[simp] theorem State.setHostRet_currentChunk (r : Ret) (s : State) :
    (State.setHostRet r s).currentChunk = s.currentChunk := rfl
@[simp] theorem State.setHostRet_subChunkOffset (r : Ret) (s : State) :
    (State.setHostRet r s).subChunkOffset = s.subChunkOffset := rfl
@[simp] theorem State.setHostRet_sampleCount (r : Ret) (s : State) :
    (State.setHostRet r s).sampleCount = s.sampleCount := rfl
@[simp] theorem State.setHostRet_deviceSampleRate (r : Ret) (s : State) :
    (State.setHostRet r s).deviceSampleRate = s.deviceSampleRate := rfl
@[simp] theorem State.setHostRet_last (r : Ret) (s : State) :
    (State.setHostRet r s).last = s.last := rfl
@[simp] theorem State.setHostRet_fmPhase (r : Ret) (s : State) :
    (State.setHostRet r s).fmPhase = s.fmPhase := rfl
@[simp] theorem State.setHostRet_ibuf (r : Ret) (s : State) :
    (State.setHostRet r s).ibuf = s.ibuf := rfl
@[simp] theorem State.setHostRet_iq (r : Ret) (s : State) :
    (State.setHostRet r s).iq = s.iq := rfl
@[simp] theorem State.setHostRet_ring (r : Ret) (s : State) :
    (State.setHostRet r s).ring = s.ring := rfl
@[simp] theorem State.setHostRet_head (r : Ret) (s : State) :
    (State.setHostRet r s).head = s.head := rfl
@[simp] theorem State.setHostRet_tail (r : Ret) (s : State) :
    (State.setHostRet r s).tail = s.tail := rfl
@[simp] theorem State.setHostRet_fill (r : Ret) (s : State) :
    (State.setHostRet r s).fill = s.fill := rfl
@[simp] theorem State.setHostRet_devRunning (r : Ret) (s : State) :
    (State.setHostRet r s).devRunning = s.devRunning := rfl
@[simp] theorem State.setHostRet_dst (r : Ret) (s : State) :
    (State.setHostRet r s).dst = s.dst := rfl
@[simp] theorem State.setHostRet_port (r : Ret) (s : State) :
    (State.setHostRet r s).port = s.port := rfl
@[simp] theorem State.setHostRet_power (r : Ret) (s : State) :
    (State.setHostRet r s).power = s.power := rfl
@[simp] theorem State.setHostRet_hostRet (r : Ret) (s : State) :
    (State.setHostRet r s).hostRet = r := rfl
@[simp] theorem State.setHostRet_prodRet (r : Ret) (s : State) :
    (State.setHostRet r s).prodRet = s.prodRet := rfl
@[simp] theorem State.setHostRet_consRet (r : Ret) (s : State) :
    (State.setHostRet r s).consRet = s.consRet := rfl
@[simp] theorem State.setHostRet_devLog (r : Ret) (s : State) :
    (State.setHostRet r s).devLog = s.devLog := rfl
@[simp] theorem State.setHostRet_devAnswers (r : Ret) (s : State) :
    (State.setHostRet r s).devAnswers = s.devAnswers := rfl
@[simp] theorem State.setHostRet_draws (r : Ret) (s : State) :
    (State.setHostRet r s).draws = s.draws := rfl

/-! ### `State.setProdRet` -/

@[simp] theorem State.setProdRet_enc (r : Ret) (s : State) :
    (State.setProdRet r s).enc = s.enc := rfl
@[simp] theorem State.setProdRet_cfg (r : Ret) (s : State) :
    (State.setProdRet r s).cfg = s.cfg := rfl
@[simp] theorem State.setProdRet_runState (r : Ret) (s : State) :
    (State.setProdRet r s).runState = s.runState := rfl
@[simp] theorem State.setProdRet_ready (r : Ret) (s : State) :
    (State.setProdRet r s).ready = s.ready := rfl
@[simp] theorem State.setProdRet_stop (r : Ret) (s : State) :
    (State.setProdRet r s).stop = s.stop := rfl
@[simp] theorem State.setProdRet_emptyQueue (r : Ret) (s : State) :
    (State.setProdRet r s).emptyQueue = s.emptyQueue := rfl
@[simp] theorem State.setProdRet_prepared (r : Ret) (s : State) :
    (State.setProdRet r s).prepared = s.prepared := rfl
@[simp] theorem State.setProdRet_ppos (r : Ret) (s : State) :
    (State.setProdRet r s).ppos = s.ppos := rfl
@[simp] theorem State.setProdRet_exitSecond (r : Ret) (s : State) :
    (State.setProdRet r s).exitSecond = s.exitSecond := rfl
@[simp] theorem State.setProdRet_txQueue (r : Ret) (s : State) :
    (State.setProdRet r s).txQueue = s.txQueue := rfl
@[simp] theorem State.setProdRet_currentChunk (r : Ret) (s : State) :
    (State.setProdRet r s).currentChunk = s.currentChunk := rfl
@[simp] theorem State.setProdRet_subChunkOffset (r : Ret) (s : State) :
    (State.setProdRet r s).subChunkOffset = s.subChunkOffset := rfl
@[simp] theorem State.setProdRet_sampleCount (r : Ret) (s : State) :
    (State.setProdRet r s).sampleCount = s.sampleCount := rfl
@[simp] theorem State.setProdRet_deviceSampleRate (r : Ret) (s : State) :
    (State.setProdRet r s).deviceSampleRate = s.deviceSampleRate := rfl
@[simp] theorem State.setProdRet_last (r : Ret) (s : State) :
    (State.setProdRet r s).last = s.last := rfl
@[simp] theorem State.setProdRet_fmPhase (r : Ret) (s : State) :
    (State.setProdRet r s).fmPhase = s.fmPhase := rfl
@[simp] theorem State.setProdRet_ibuf (r : Ret) (s : State) :
    (State.setProdRet r s).ibuf = s.ibuf := rfl
@[simp] theorem State.setProdRet_iq (r : Ret) (s : State) :
    (State.setProdRet r s).iq = s.iq := rfl
@[simp] theorem State.setProdRet_ring (r : Ret) (s : State) :
    (State.setProdRet r s).ring = s.ring := rfl
@[simp] theorem State.setProdRet_head (r : Ret) (s : State) :
    (State.setProdRet r s).head = s.head := rfl
@[simp] theorem State.setProdRet_tail (r : Ret) (s : State) :
    (State.setProdRet r s).tail = s.tail := rfl
@[simp] theorem State.setProdRet_fill (r : Ret) (s : State) :
    (State.setProdRet r s).fill = s.fill := rfl
@[simp] theorem State.setProdRet_devRunning (r : Ret) (s : State) :
    (State.setProdRet r s).devRunning = s.devRunning := rfl
@[simp] theorem State.setProdRet_dst (r : Ret) (s : State) :
    (State.setProdRet r s).dst = s.dst := rfl
@[simp] theorem State.setProdRet_port (r : Ret) (s : State) :
    (State.setProdRet r s).port = s.port := rfl
@[simp] theorem State.setProdRet_power (r : Ret) (s : State) :
    (State.setProdRet r s).power = s.power := rfl
@[simp] theorem State.setProdRet_hostRet (r : Ret) (s : State) :
    (State.setProdRet r s).hostRet = s.hostRet := rfl
@[simp] theorem State.setProdRet_prodRet (r : Ret) (s : State) :
    (State.setProdRet r s).prodRet = r := rfl
@[simp] theorem State.setProdRet_consRet (r : Ret) (s : State) :
    (State.setProdRet r s).consRet = s.consRet := rfl
@[simp] theorem State.setProdRet_devLog (r : Ret) (s : State) :
    (State.setProdRet r s).devLog = s.devLog := rfl
@[simp] theorem State.setProdRet_devAnswers (r : Ret) (s : State) :
    (State.setProdRet r s).devAnswers = s.devAnswers := rfl
@[simp] theorem State.setProdRet_draws (r : Ret) (s : State) :
    (State.setProdRet r s).draws = s.draws := rfl

/-! ### `State.setConsRet` -/

@[simp] theorem State.setConsRet_enc (r : Ret) (s : State) :
    (State.setConsRet r s).enc = s.enc := rfl
@[simp] theorem State.setConsRet_cfg (r : Ret) (s : State) :
    (State.setConsRet r s).cfg = s.cfg := rfl
@[simp] theorem State.setConsRet_runState (r : Ret) (s : State) :
    (State.setConsRet r s).runState = s.runState := rfl
@[simp] theorem State.setConsRet_ready (r : Ret) (s : State) :
    (State.setConsRet r s).ready = s.ready := rfl
@[simp] theorem State.setConsRet_stop (r : Ret) (s : State) :
    (State.setConsRet r s).stop = s.stop := rfl
@[simp] theorem State.setConsRet_emptyQueue (r : Ret) (s : State) :
    (State.setConsRet r s).emptyQueue = s.emptyQueue := rfl
@[simp] theorem State.setConsRet_prepared (r : Ret) (s : State) :
    (State.setConsRet r s).prepared = s.prepared := rfl
@[simp] theorem State.setConsRet_ppos (r : Ret) (s : State) :
    (State.setConsRet r s).ppos = s.ppos := rfl
@[simp] theorem State.setConsRet_exitSecond (r : Ret) (s : State) :
    (State.setConsRet r s).exitSecond = s.exitSecond := rfl
@[simp] theorem State.setConsRet_txQueue (r : Ret) (s : State) :
    (State.setConsRet r s).txQueue = s.txQueue := rfl
@[simp] theorem State.setConsRet_currentChunk (r : Ret) (s : State) :
    (State.setConsRet r s).currentChunk = s.currentChunk := rfl
@[simp] theorem State.setConsRet_subChunkOffset (r : Ret) (s : State) :
    (State.setConsRet r s).subChunkOffset = s.subChunkOffset := rfl
@[simp] theorem State.setConsRet_sampleCount (r : Ret) (s : State) :
    (State.setConsRet r s).sampleCount = s.sampleCount := rfl
@[simp] theorem State.setConsRet_deviceSampleRate (r : Ret) (s : State) :
    (State.setConsRet r s).deviceSampleRate = s.deviceSampleRate := rfl
@[simp] theorem State.setConsRet_last (r : Ret) (s : State) :
    (State.setConsRet r s).last = s.last := rfl
@[simp] theorem State.setConsRet_fmPhase (r : Ret) (s : State) :
    (State.setConsRet r s).fmPhase = s.fmPhase := rfl
@[simp] theorem State.setConsRet_ibuf (r : Ret) (s : State) :
    (State.setConsRet r s).ibuf = s.ibuf := rfl
@[simp] theorem State.setConsRet_iq (r : Ret) (s : State) :
    (State.setConsRet r s).iq = s.iq := rfl
@[simp] theorem State.setConsRet_ring (r : Ret) (s : State) :
    (State.setConsRet r s).ring = s.ring := rfl
@[simp] theorem State.setConsRet_head (r : Ret) (s : State) :
    (State.setConsRet r s).head = s.head := rfl
@[simp] theorem State.setConsRet_tail (r : Ret) (s : State) :
    (State.setConsRet r s).tail = s.tail := rfl
@[simp] theorem State.setConsRet_fill (r : Ret) (s : State) :
    (State.setConsRet r s).fill = s.fill := rfl
@[simp] theorem State.setConsRet_devRunning (r : Ret) (s : State) :
    (State.setConsRet r s).devRunning = s.devRunning := rfl
@[simp] theorem State.setConsRet_dst (r : Ret) (s : State) :
    (State.setConsRet r s).dst = s.dst := rfl
@[simp] theorem State.setConsRet_port (r : Ret) (s : State) :
    (State.setConsRet r s).port = s.port := rfl
@[simp] theorem State.setConsRet_power (r : Ret) (s : State) :
    (State.setConsRet r s).power = s.power := rfl
@[simp] theorem State.setConsRet_hostRet (r : Ret) (s : State) :
    (State.setConsRet r s).hostRet = s.hostRet := rfl
@[simp] theorem State.setConsRet_prodRet (r : Ret) (s : State) :
    (State.setConsRet r s).prodRet = s.prodRet := rfl
@[simp] theorem State.setConsRet_consRet (r : Ret) (s : State) :
    (State.setConsRet r s).consRet = r := rfl
@[simp] theorem State.setConsRet_devLog (r : Ret) (s : State) :
    (State.setConsRet r s).devLog = s.devLog := rfl
@[simp] theorem State.setConsRet_devAnswers (r : Ret) (s : State) :
    (State.setConsRet r s).devAnswers = s.devAnswers := rfl
@[simp] theorem State.setConsRet_draws (r : Ret) (s : State) :
    (State.setConsRet r s).draws = s.draws := rfl

/-! ### `State.setEnc` -/

@[simp] theorem State.setEnc_enc (e : Enc) (s : State) :
    (State.setEnc e s).enc = e := rfl
@[simp] theorem State.setEnc_cfg (e : Enc) (s : State) :
    (State.setEnc e s).cfg = s.cfg := rfl
@[simp] theorem State.setEnc_runState (e : Enc) (s : State) :
    (State.setEnc e s).runState = s.runState := rfl
@[simp] theorem State.setEnc_ready (e : Enc) (s : State) :
    (State.setEnc e s).ready = s.ready := rfl
@[simp] theorem State.setEnc_stop (e : Enc) (s : State) :
    (State.setEnc e s).stop = s.stop := rfl
@[simp] theorem State.setEnc_emptyQueue (e : Enc) (s : State) :
    (State.setEnc e s).emptyQueue = s.emptyQueue := rfl
@[simp] theorem State.setEnc_prepared (e : Enc) (s : State) :
    (State.setEnc e s).prepared = s.prepared := rfl
@[simp] theorem State.setEnc_ppos (e : Enc) (s : State) :
    (State.setEnc e s).ppos = s.ppos := rfl
@[simp] theorem State.setEnc_exitSecond (e : Enc) (s : State) :
    (State.setEnc e s).exitSecond = s.exitSecond := rfl
@[simp] theorem State.setEnc_txQueue (e : Enc) (s : State) :
    (State.setEnc e s).txQueue = s.txQueue := rfl
@[simp] theorem State.setEnc_currentChunk (e : Enc) (s : State) :
    (State.setEnc e s).currentChunk = s.currentChunk := rfl
@[simp] theorem State.setEnc_subChunkOffset (e : Enc) (s : State) :
    (State.setEnc e s).subChunkOffset = s.subChunkOffset := rfl
@[simp] theorem State.setEnc_sampleCount (e : Enc) (s : State) :
    (State.setEnc e s).sampleCount = s.sampleCount := rfl
@[simp] theorem State.setEnc_deviceSampleRate (e : Enc) (s : State) :
    (State.setEnc e s).deviceSampleRate = s.deviceSampleRate := rfl
@[simp] theorem State.setEnc_last (e : Enc) (s : State) :
    (State.setEnc e s).last = s.last := rfl
@[simp] theorem State.setEnc_fmPhase (e : Enc) (s : State) :
    (State.setEnc e s).fmPhase = s.fmPhase := rfl
@[simp] theorem State.setEnc_ibuf (e : Enc) (s : State) :
    (State.setEnc e s).ibuf = s.ibuf := rfl
@[simp] theorem State.setEnc_iq (e : Enc) (s : State) :
    (State.setEnc e s).iq = s.iq := rfl
@[simp] theorem State.setEnc_ring (e : Enc) (s : State) :
    (State.setEnc e s).ring = s.ring := rfl
@[simp] theorem State.setEnc_head (e : Enc) (s : State) :
    (State.setEnc e s).head = s.head := rfl
@[simp] theorem State.setEnc_tail (e : Enc) (s : State) :
    (State.setEnc e s).tail = s.tail := rfl
@[simp] theorem State.setEnc_fill (e : Enc) (s : State) :
    (State.setEnc e s).fill = s.fill := rfl
@[simp] theorem State.setEnc_devRunning (e : Enc) (s : State) :
    (State.setEnc e s).devRunning = s.devRunning := rfl
@[simp] theorem State.setEnc_dst (e : Enc) (s : State) :
    (State.setEnc e s).dst = s.dst := rfl
@[simp] theorem State.setEnc_port (e : Enc) (s : State) :
    (State.setEnc e s).port = s.port := rfl
@[simp] theorem State.setEnc_power (e : Enc) (s : State) :
    (State.setEnc e s).power = s.power := rfl
@[simp] theorem State.setEnc_hostRet (e : Enc) (s : State) :
    (State.setEnc e s).hostRet = s.hostRet := rfl
@[simp] theorem State.setEnc_prodRet (e : Enc) (s : State) :
    (State.setEnc e s).prodRet = s.prodRet := rfl
@[simp] theorem State.setEnc_consRet (e : Enc) (s : State) :
    (State.setEnc e s).consRet = s.consRet := rfl
@[simp] theorem State.setEnc_devLog (e : Enc) (s : State) :
    (State.setEnc e s).devLog = s.devLog := rfl
@[simp] theorem State.setEnc_devAnswers (e : Enc) (s : State) :
    (State.setEnc e s).devAnswers = s.devAnswers := rfl
@[simp] theorem State.setEnc_draws (e : Enc) (s : State) :
    (State.setEnc e s).draws = s.draws := rfl

/-! ### `State.tell` -/

@[simp] theorem State.tell_enc (c : DevCmd) (s : State) :
    (State.tell c s).enc = s.enc := rfl
@[simp] theorem State.tell_cfg (c : DevCmd) (s : State) :
    (State.tell c s).cfg = s.cfg := rfl
@[simp] theorem State.tell_runState (c : DevCmd) (s : State) :
    (State.tell c s).runState = s.runState := rfl
@[simp] theorem State.tell_ready (c : DevCmd) (s : State) :
    (State.tell c s).ready = s.ready := rfl
@[simp] theorem State.tell_stop (c : DevCmd) (s : State) :
    (State.tell c s).stop = s.stop := rfl
@[simp] theorem State.tell_emptyQueue (c : DevCmd) (s : State) :
    (State.tell c s).emptyQueue = s.emptyQueue := rfl
@[simp] theorem State.tell_prepared (c : DevCmd) (s : State) :
    (State.tell c s).prepared = s.prepared := rfl
@[simp] theorem State.tell_ppos (c : DevCmd) (s : State) :
    (State.tell c s).ppos = s.ppos := rfl
@[simp] theorem State.tell_exitSecond (c : DevCmd) (s : State) :
    (State.tell c s).exitSecond = s.exitSecond := rfl
@[simp] theorem State.tell_txQueue (c : DevCmd) (s : State) :
    (State.tell c s).txQueue = s.txQueue := rfl
@[simp] theorem State.tell_currentChunk (c : DevCmd) (s : State) :
    (State.tell c s).currentChunk = s.currentChunk := rfl
@[simp] theorem State.tell_subChunkOffset (c : DevCmd) (s : State) :
    (State.tell c s).subChunkOffset = s.subChunkOffset := rfl
@[simp] theorem State.tell_sampleCount (c : DevCmd) (s : State) :
    (State.tell c s).sampleCount = s.sampleCount := rfl
@[simp] theorem State.tell_deviceSampleRate (c : DevCmd) (s : State) :
    (State.tell c s).deviceSampleRate = s.deviceSampleRate := rfl
@[simp] theorem State.tell_last (c : DevCmd) (s : State) :
    (State.tell c s).last = s.last := rfl
@[simp] theorem State.tell_fmPhase (c : DevCmd) (s : State) :
    (State.tell c s).fmPhase = s.fmPhase := rfl
@[simp] theorem State.tell_ibuf (c : DevCmd) (s : State) :
    (State.tell c s).ibuf = s.ibuf := rfl
@[simp] theorem State.tell_iq (c : DevCmd) (s : State) :
    (State.tell c s).iq = s.iq := rfl
@[simp] theorem State.tell_ring (c : DevCmd) (s : State) :
    (State.tell c s).ring = s.ring := rfl
@[simp] theorem State.tell_head (c : DevCmd) (s : State) :
    (State.tell c s).head = s.head := rfl
@[simp] theorem State.tell_tail (c : DevCmd) (s : State) :
    (State.tell c s).tail = s.tail := rfl
@[simp] theorem State.tell_fill (c : DevCmd) (s : State) :
    (State.tell c s).fill = s.fill := rfl
@[simp] theorem State.tell_devRunning (c : DevCmd) (s : State) :
    (State.tell c s).devRunning = s.devRunning := rfl
@[simp] theorem State.tell_dst (c : DevCmd) (s : State) :
    (State.tell c s).dst = s.dst := rfl
@[simp] theorem State.tell_port (c : DevCmd) (s : State) :
    (State.tell c s).port = s.port := rfl
@[simp] theorem State.tell_power (c : DevCmd) (s : State) :
    (State.tell c s).power = s.power := rfl
@[simp] theorem State.tell_hostRet (c : DevCmd) (s : State) :
    (State.tell c s).hostRet = s.hostRet := rfl
@[simp] theorem State.tell_prodRet (c : DevCmd) (s : State) :
    (State.tell c s).prodRet = s.prodRet := rfl
@[simp] theorem State.tell_consRet (c : DevCmd) (s : State) :
    (State.tell c s).consRet = s.consRet := rfl
@[simp] theorem State.tell_devLog (c : DevCmd) (s : State) :
    (State.tell c s).devLog = s.devLog ++ [c] := rfl
@[simp] theorem State.tell_devAnswers (c : DevCmd) (s : State) :
    (State.tell c s).devAnswers = s.devAnswers := rfl
@[simp] theorem State.tell_draws (c : DevCmd) (s : State) :
    (State.tell c s).draws = s.draws := rfl

/-! ### `State.ask` -/

@[simp] theorem State.ask_enc (c : DevCmd) (s : State) :
    (State.ask c s).enc = s.enc := rfl
@[simp] theorem State.ask_cfg (c : DevCmd) (s : State) :
    (State.ask c s).cfg = s.cfg := rfl
@[simp] theorem State.ask_runState (c : DevCmd) (s : State) :
    (State.ask c s).runState = s.runState := rfl
@[simp] theorem State.ask_ready (c : DevCmd) (s : State) :
    (State.ask c s).ready = s.ready := rfl
@[simp] theorem State.ask_stop (c : DevCmd) (s : State) :
    (State.ask c s).stop = s.stop := rfl
@[simp] theorem State.ask_emptyQueue (c : DevCmd) (s : State) :
    (State.ask c s).emptyQueue = s.emptyQueue := rfl
@[simp] theorem State.ask_prepared (c : DevCmd) (s : State) :
    (State.ask c s).prepared = s.prepared := rfl
@[simp] theorem State.ask_ppos (c : DevCmd) (s : State) :
    (State.ask c s).ppos = s.ppos := rfl
@[simp] theorem State.ask_exitSecond (c : DevCmd) (s : State) :
    (State.ask c s).exitSecond = s.exitSecond := rfl
@[simp] theorem State.ask_txQueue (c : DevCmd) (s : State) :
    (State.ask c s).txQueue = s.txQueue := rfl
@[simp] theorem State.ask_currentChunk (c : DevCmd) (s : State) :
    (State.ask c s).currentChunk = s.currentChunk := rfl
@[simp] theorem State.ask_subChunkOffset (c : DevCmd) (s : State) :
    (State.ask c s).subChunkOffset = s.subChunkOffset := rfl
@[simp] theorem State.ask_sampleCount (c : DevCmd) (s : State) :
    (State.ask c s).sampleCount = s.sampleCount := rfl
@[simp] theorem State.ask_deviceSampleRate (c : DevCmd) (s : State) :
    (State.ask c s).deviceSampleRate = s.deviceSampleRate := rfl
@[simp] theorem State.ask_last (c : DevCmd) (s : State) :
    (State.ask c s).last = s.last := rfl
@[simp] theorem State.ask_fmPhase (c : DevCmd) (s : State) :
    (State.ask c s).fmPhase = s.fmPhase := rfl
@[simp] theorem State.ask_ibuf (c : DevCmd) (s : State) :
    (State.ask c s).ibuf = s.ibuf := rfl
@[simp] theorem State.ask_iq (c : DevCmd) (s : State) :
    (State.ask c s).iq = s.iq := rfl
@[simp] theorem State.ask_ring (c : DevCmd) (s : State) :
    (State.ask c s).ring = s.ring := rfl
@[simp] theorem State.ask_head (c : DevCmd) (s : State) :
    (State.ask c s).head = s.head := rfl
@[simp] theorem State.ask_tail (c : DevCmd) (s : State) :
    (State.ask c s).tail = s.tail := rfl
@[simp] theorem State.ask_fill (c : DevCmd) (s : State) :
    (State.ask c s).fill = s.fill := rfl
@[simp] theorem State.ask_devRunning (c : DevCmd) (s : State) :
    (State.ask c s).devRunning = s.devRunning := rfl
@[simp] theorem State.ask_dst (c : DevCmd) (s : State) :
    (State.ask c s).dst = s.dst := rfl
@[simp] theorem State.ask_port (c : DevCmd) (s : State) :
    (State.ask c s).port = s.port := rfl
@[simp] theorem State.ask_power (c : DevCmd) (s : State) :
    (State.ask c s).power = s.power := rfl
@[simp] theorem State.ask_hostRet (c : DevCmd) (s : State) :
    (State.ask c s).hostRet = s.hostRet := rfl
@[simp] theorem State.ask_prodRet (c : DevCmd) (s : State) :
    (State.ask c s).prodRet = s.prodRet := rfl
@[simp] theorem State.ask_consRet (c : DevCmd) (s : State) :
    (State.ask c s).consRet = s.consRet := rfl
@[simp] theorem State.ask_devLog (c : DevCmd) (s : State) :
    (State.ask c s).devLog = s.devLog ++ [c] := rfl
@[simp] theorem State.ask_devAnswers (c : DevCmd) (s : State) :
    (State.ask c s).devAnswers = s.devAnswers.tail := rfl
@[simp] theorem State.ask_draws (c : DevCmd) (s : State) :
    (State.ask c s).draws = if s.devAnswers = [] then s.draws + 1 else s.draws := rfl

/-! ### `State.drew` -/

@[simp] theorem State.drew_enc (n : Nat) (s : State) :
    (State.drew n s).enc = s.enc := rfl
@[simp] theorem State.drew_cfg (n : Nat) (s : State) :
    (State.drew n s).cfg = s.cfg := rfl
@[simp] theorem State.drew_runState (n : Nat) (s : State) :
    (State.drew n s).runState = s.runState := rfl
@[simp] theorem State.drew_ready (n : Nat) (s : State) :
    (State.drew n s).ready = s.ready := rfl
@[simp] theorem State.drew_stop (n : Nat) (s : State) :
    (State.drew n s).stop = s.stop := rfl
@[simp] theorem State.drew_emptyQueue (n : Nat) (s : State) :
    (State.drew n s).emptyQueue = s.emptyQueue := rfl
@[simp] theorem State.drew_prepared (n : Nat) (s : State) :
    (State.drew n s).prepared = s.prepared := rfl
@[simp] theorem State.drew_ppos (n : Nat) (s : State) :
    (State.drew n s).ppos = s.ppos := rfl
@[simp] theorem State.drew_exitSecond (n : Nat) (s : State) :
    (State.drew n s).exitSecond = s.exitSecond := rfl
@[simp] theorem State.drew_txQueue (n : Nat) (s : State) :
    (State.drew n s).txQueue = s.txQueue := rfl
@[simp] theorem State.drew_currentChunk (n : Nat) (s : State) :
    (State.drew n s).currentChunk = s.currentChunk := rfl
@[simp] theorem State.drew_subChunkOffset (n : Nat) (s : State) :
    (State.drew n s).subChunkOffset = s.subChunkOffset := rfl
@[simp] theorem State.drew_sampleCount (n : Nat) (s : State) :
    (State.drew n s).sampleCount = s.sampleCount := rfl
@[simp] theorem State.drew_deviceSampleRate (n : Nat) (s : State) :
    (State.drew n s).deviceSampleRate = s.deviceSampleRate := rfl
@[simp] theorem State.drew_last (n : Nat) (s : State) :
    (State.drew n s).last = s.last := rfl
@[simp] theorem State.drew_fmPhase (n : Nat) (s : State) :
    (State.drew n s).fmPhase = s.fmPhase := rfl
@[simp] theorem State.drew_ibuf (n : Nat) (s : State) :
    (State.drew n s).ibuf = s.ibuf := rfl
@[simp] theorem State.drew_iq (n : Nat) (s : State) :
    (State.drew n s).iq = s.iq := rfl
@[simp] theorem State.drew_ring (n : Nat) (s : State) :
    (State.drew n s).ring = s.ring := rfl
@[simp] theorem State.drew_head (n : Nat) (s : State) :
    (State.drew n s).head = s.head := rfl
@[simp] theorem State.drew_tail (n : Nat) (s : State) :
    (State.drew n s).tail = s.tail := rfl
@[simp] theorem State.drew_fill (n : Nat) (s : State) :
    (State.drew n s).fill = s.fill := rfl
@[simp] theorem State.drew_devRunning (n : Nat) (s : State) :
    (State.drew n s).devRunning = s.devRunning := rfl
@[simp] theorem State.drew_dst (n : Nat) (s : State) :
    (State.drew n s).dst = s.dst := rfl
@[simp] theorem State.drew_port (n : Nat) (s : State) :
    (State.drew n s).port = s.port := rfl
@[simp] theorem State.drew_power (n : Nat) (s : State) :
    (State.drew n s).power = s.power := rfl
@[simp] theorem State.drew_hostRet (n : Nat) (s : State) :
    (State.drew n s).hostRet = s.hostRet := rfl
@[simp] theorem State.drew_prodRet (n : Nat) (s : State) :
    (State.drew n s).prodRet = s.prodRet := rfl
@[simp] theorem State.drew_consRet (n : Nat) (s : State) :
    (State.drew n s).consRet = s.consRet := rfl
@[simp] theorem State.drew_devLog (n : Nat) (s : State) :
    (State.drew n s).devLog = s.devLog := rfl
@[simp] theorem State.drew_devAnswers (n : Nat) (s : State) :
    (State.drew n s).devAnswers = s.devAnswers := rfl
@[simp] theorem State.drew_draws (n : Nat) (s : State) :
    (State.drew n s).draws = s.draws + n := rfl

/-! ### `State.goto` -/

@[simp] theorem State.goto_enc (p : Ppos) (s : State) :
    (State.goto p s).enc = s.enc := rfl
@[simp] theorem State.goto_cfg (p : Ppos) (s : State) :
    (State.goto p s).cfg = s.cfg := rfl
@[simp] theorem State.goto_runState (p : Ppos) (s : State) :
    (State.goto p s).runState = s.runState := rfl
@[simp] theorem State.goto_ready (p : Ppos) (s : State) :
    (State.goto p s).ready = s.ready := rfl
@[simp] theorem State.goto_stop (p : Ppos) (s : State) :
    (State.goto p s).stop = s.stop := rfl
@[simp] theorem State.goto_emptyQueue (p : Ppos) (s : State) :
    (State.goto p s).emptyQueue = s.emptyQueue := rfl
@[simp] theorem State.goto_prepared (p : Ppos) (s : State) :
    (State.goto p s).prepared = s.prepared := rfl
@[simp] theorem State.goto_ppos (p : Ppos) (s : State) :
    (State.goto p s).ppos = p := rfl
@[simp] theorem State.goto_exitSecond (p : Ppos) (s : State) :
    (State.goto p s).exitSecond = s.exitSecond := rfl
@[simp] theorem State.goto_txQueue (p : Ppos) (s : State) :
    (State.goto p s).txQueue = s.txQueue := rfl
@[simp] theorem State.goto_currentChunk (p : Ppos) (s : State) :
    (State.goto p s).currentChunk = s.currentChunk := rfl
@[simp] theorem State.goto_subChunkOffset (p : Ppos) (s : State) :
    (State.goto p s).subChunkOffset = s.subChunkOffset := rfl
@[simp] theorem State.goto_sampleCount (p : Ppos) (s : State) :
    (State.goto p s).sampleCount = s.sampleCount := rfl
@[simp] theorem State.goto_deviceSampleRate (p : Ppos) (s : State) :
    (State.goto p s).deviceSampleRate = s.deviceSampleRate := rfl
@[simp] theorem State.goto_last (p : Ppos) (s : State) :
    (State.goto p s).last = s.last := rfl
@[simp] theorem State.goto_fmPhase (p : Ppos) (s : State) :
    (State.goto p s).fmPhase = s.fmPhase := rfl
@[simp] theorem State.goto_ibuf (p : Ppos) (s : State) :
    (State.goto p s).ibuf = s.ibuf := rfl
@[simp] theorem State.goto_iq (p : Ppos) (s : State) :
    (State.goto p s).iq = s.iq := rfl
@[simp] theorem State.goto_ring (p : Ppos) (s : State) :
    (State.goto p s).ring = s.ring := rfl
@[simp] theorem State.goto_head (p : Ppos) (s : State) :
    (State.goto p s).head = s.head := rfl
@[simp] theorem State.goto_tail (p : Ppos) (s : State) :
    (State.goto p s).tail = s.tail := rfl
@[simp] theorem State.goto_fill (p : Ppos) (s : State) :
    (State.goto p s).fill = s.fill := rfl
@[simp] theorem State.goto_devRunning (p : Ppos) (s : State) :
    (State.goto p s).devRunning = s.devRunning := rfl
@[simp] theorem State.goto_dst (p : Ppos) (s : State) :
    (State.goto p s).dst = s.dst := rfl
@[simp] theorem State.goto_port (p : Ppos) (s : State) :
    (State.goto p s).port = s.port := rfl
@[simp] theorem State.goto_power (p : Ppos) (s : State) :
    (State.goto p s).power = s.power := rfl
@[simp] theorem State.goto_hostRet (p : Ppos) (s : State) :
    (State.goto p s).hostRet = s.hostRet := rfl
@[simp] theorem State.goto_prodRet (p : Ppos) (s : State) :
    (State.goto p s).prodRet = s.prodRet := rfl
@[simp] theorem State.goto_consRet (p : Ppos) (s : State) :
    (State.goto p s).consRet = s.consRet := rfl
@[simp] theorem State.goto_devLog (p : Ppos) (s : State) :
    (State.goto p s).devLog = s.devLog := rfl
@[simp] theorem State.goto_devAnswers (p : Ppos) (s : State) :
    (State.goto p s).devAnswers = s.devAnswers := rfl
@[simp] theorem State.goto_draws (p : Ppos) (s : State) :
    (State.goto p s).draws = s.draws := rfl

/-! ### `State.clearReady` -/

@[simp] theorem State.clearReady_enc (s : State) :
    (State.clearReady s).enc = s.enc := rfl
@[simp] theorem State.clearReady_cfg (s : State) :
    (State.clearReady s).cfg = s.cfg := rfl
@[simp] theorem State.clearReady_runState (s : State) :
    (State.clearReady s).runState = s.runState := rfl
@[simp] theorem State.clearReady_ready (s : State) :
    (State.clearReady s).ready = false := rfl
@[simp] theorem State.clearReady_stop (s : State) :
    (State.clearReady s).stop = s.stop := rfl
@[simp] theorem State.clearReady_emptyQueue (s : State) :
    (State.clearReady s).emptyQueue = s.emptyQueue := rfl
@[simp] theorem State.clearReady_prepared (s : State) :
    (State.clearReady s).prepared = s.prepared := rfl
@[simp] theorem State.clearReady_ppos (s : State) :
    (State.clearReady s).ppos = s.ppos := rfl
@[simp] theorem State.clearReady_exitSecond (s : State) :
    (State.clearReady s).exitSecond = s.exitSecond := rfl
@[simp] theorem State.clearReady_txQueue (s : State) :
    (State.clearReady s).txQueue = s.txQueue := rfl
@[simp] theorem State.clearReady_currentChunk (s : State) :
    (State.clearReady s).currentChunk = s.currentChunk := rfl
@[simp] theorem State.clearReady_subChunkOffset (s : State) :
    (State.clearReady s).subChunkOffset = s.subChunkOffset := rfl
@[simp] theorem State.clearReady_sampleCount (s : State) :
    (State.clearReady s).sampleCount = s.sampleCount := rfl
@[simp] theorem State.clearReady_deviceSampleRate (s : State) :
    (State.clearReady s).deviceSampleRate = s.deviceSampleRate := rfl
@[simp] theorem State.clearReady_last (s : State) :
    (State.clearReady s).last = s.last := rfl
@[simp] theorem State.clearReady_fmPhase (s : State) :
    (State.clearReady s).fmPhase = s.fmPhase := rfl
@[simp] theorem State.clearReady_ibuf (s : State) :
    (State.clearReady s).ibuf = s.ibuf := rfl
@[simp] theorem State.clearReady_iq (s : State) :
    (State.clearReady s).iq = s.iq := rfl
@[simp] theorem State.clearReady_ring (s : State) :
    (State.clearReady s).ring = s.ring := rfl
@[simp] theorem State.clearReady_head (s : State) :
    (State.clearReady s).head = s.head := rfl
@[simp] theorem State.clearReady_tail (s : State) :
    (State.clearReady s).tail = s.tail := rfl
@[simp] theorem State.clearReady_fill (s : State) :
    (State.clearReady s).fill = s.fill := rfl
@[simp] theorem State.clearReady_devRunning (s : State) :
    (State.clearReady s).devRunning = s.devRunning := rfl
@[simp] theorem State.clearReady_dst (s : State) :
    (State.clearReady s).dst = s.dst := rfl
@[simp] theorem State.clearReady_port (s : State) :
    (State.clearReady s).port = s.port := rfl
@[simp] theorem State.clearReady_power (s : State) :
    (State.clearReady s).power = s.power := rfl
@[simp] theorem State.clearReady_hostRet (s : State) :
    (State.clearReady s).hostRet = s.hostRet := rfl
@[simp] theorem State.clearReady_prodRet (s : State) :
    (State.clearReady s).prodRet = s.prodRet := rfl
@[simp] theorem State.clearReady_consRet (s : State) :
    (State.clearReady s).consRet = s.consRet := rfl
@[simp] theorem State.clearReady_devLog (s : State) :
    (State.clearReady s).devLog = s.devLog := rfl
@[simp] theorem State.clearReady_devAnswers (s : State) :
    (State.clearReady s).devAnswers = s.devAnswers := rfl
@[simp] theorem State.clearReady_draws (s : State) :
    (State.clearReady s).draws = s.draws := rfl

/-! ### `State.readyIfEmpty` -/

@[simp] theorem State.readyIfEmpty_enc (s : State) :
    (State.readyIfEmpty s).enc = s.enc := rfl
@[simp] theorem State.readyIfEmpty_cfg (s : State) :
    (State.readyIfEmpty s).cfg = s.cfg := rfl
@[simp] theorem State.readyIfEmpty_runState (s : State) :
    (State.readyIfEmpty s).runState = s.runState := rfl
@[simp] theorem State.readyIfEmpty_ready (s : State) :
    (State.readyIfEmpty s).ready = if s.fill = 0 then true else s.ready := rfl
@[simp] theorem State.readyIfEmpty_stop (s : State) :
    (State.readyIfEmpty s).stop = s.stop := rfl
@[simp] theorem State.readyIfEmpty_emptyQueue (s : State) :
    (State.readyIfEmpty s).emptyQueue = s.emptyQueue := rfl
@[simp] theorem State.readyIfEmpty_prepared (s : State) :
    (State.readyIfEmpty s).prepared = s.prepared := rfl
@[simp] theorem State.readyIfEmpty_ppos (s : State) :
    (State.readyIfEmpty s).ppos = s.ppos := rfl
@[simp] theorem State.readyIfEmpty_exitSecond (s : State) :
    (State.readyIfEmpty s).exitSecond = s.exitSecond := rfl
@[simp] theorem State.readyIfEmpty_txQueue (s : State) :
    (State.readyIfEmpty s).txQueue = s.txQueue := rfl
@[simp] theorem State.readyIfEmpty_currentChunk (s : State) :
    (State.readyIfEmpty s).currentChunk = s.currentChunk := rfl
@[simp] theorem State.readyIfEmpty_subChunkOffset (s : State) :
    (State.readyIfEmpty s).subChunkOffset = s.subChunkOffset := rfl
@[simp] theorem State.readyIfEmpty_sampleCount (s : State) :
    (State.readyIfEmpty s).sampleCount = s.sampleCount := rfl
@[simp] theorem State.readyIfEmpty_deviceSampleRate (s : State) :
    (State.readyIfEmpty s).deviceSampleRate = s.deviceSampleRate := rfl
@[simp] theorem State.readyIfEmpty_last (s : State) :
    (State.readyIfEmpty s).last = s.last := rfl
@[simp] theorem State.readyIfEmpty_fmPhase (s : State) :
    (State.readyIfEmpty s).fmPhase = s.fmPhase := rfl
@[simp] theorem State.readyIfEmpty_ibuf (s : State) :
    (State.readyIfEmpty s).ibuf = s.ibuf := rfl
@[simp] theorem State.readyIfEmpty_iq (s : State) :
    (State.readyIfEmpty s).iq = s.iq := rfl
@[simp] theorem State.readyIfEmpty_ring (s : State) :
    (State.readyIfEmpty s).ring = s.ring := rfl
@[simp] theorem State.readyIfEmpty_head (s : State) :
    (State.readyIfEmpty s).head = s.head := rfl
@[simp] theorem State.readyIfEmpty_tail (s : State) :
    (State.readyIfEmpty s).tail = s.tail := rfl
@[simp] theorem State.readyIfEmpty_fill (s : State) :
    (State.readyIfEmpty s).fill = s.fill := rfl
@[simp] theorem State.readyIfEmpty_devRunning (s : State) :
    (State.readyIfEmpty s).devRunning = s.devRunning := rfl
@[simp] theorem State.readyIfEmpty_dst (s : State) :
    (State.readyIfEmpty s).dst = s.dst := rfl
@[simp] theorem State.readyIfEmpty_port (s : State) :
    (State.readyIfEmpty s).port = s.port := rfl
@[simp] theorem State.readyIfEmpty_power (s : State) :
    (State.readyIfEmpty s).power = s.power := rfl
@[simp] theorem State.readyIfEmpty_hostRet (s : State) :
    (State.readyIfEmpty s).hostRet = s.hostRet := rfl
@[simp] theorem State.readyIfEmpty_prodRet (s : State) :
    (State.readyIfEmpty s).prodRet = s.prodRet := rfl
@[simp] theorem State.readyIfEmpty_consRet (s : State) :
    (State.readyIfEmpty s).consRet = s.consRet := rfl
@[simp] theorem State.readyIfEmpty_devLog (s : State) :
    (State.readyIfEmpty s).devLog = s.devLog := rfl
@[simp] theorem State.readyIfEmpty_devAnswers (s : State) :
    (State.readyIfEmpty s).devAnswers = s.devAnswers := rfl
@[simp] theorem State.readyIfEmpty_draws (s : State) :
    (State.readyIfEmpty s).draws = s.draws := rfl

/-! ### `State.noteQueueEmpty` -/

@[simp] theorem State.noteQueueEmpty_enc (s : State) :
    (State.noteQueueEmpty s).enc = s.enc := rfl
@[simp] theorem State.noteQueueEmpty_cfg (s : State) :
    (State.noteQueueEmpty s).cfg = s.cfg := rfl
@[simp] theorem State.noteQueueEmpty_runState (s : State) :
    (State.noteQueueEmpty s).runState = s.runState := rfl
@[simp] theorem State.noteQueueEmpty_ready (s : State) :
    (State.noteQueueEmpty s).ready = s.ready := rfl
@[simp] theorem State.noteQueueEmpty_stop (s : State) :
    (State.noteQueueEmpty s).stop = s.stop := rfl
@[simp] theorem State.noteQueueEmpty_emptyQueue (s : State) :
    (State.noteQueueEmpty s).emptyQueue = true := rfl
@[simp] theorem State.noteQueueEmpty_prepared (s : State) :
    (State.noteQueueEmpty s).prepared = s.prepared := rfl
@[simp] theorem State.noteQueueEmpty_ppos (s : State) :
    (State.noteQueueEmpty s).ppos = s.ppos := rfl
@[simp] theorem State.noteQueueEmpty_exitSecond (s : State) :
    (State.noteQueueEmpty s).exitSecond = s.exitSecond := rfl
@[simp] theorem State.noteQueueEmpty_txQueue (s : State) :
    (State.noteQueueEmpty s).txQueue = s.txQueue := rfl
@[simp] theorem State.noteQueueEmpty_currentChunk (s : State) :
    (State.noteQueueEmpty s).currentChunk = s.currentChunk := rfl
@[simp] theorem State.noteQueueEmpty_subChunkOffset (s : State) :
    (State.noteQueueEmpty s).subChunkOffset = s.subChunkOffset := rfl
@[simp] theorem State.noteQueueEmpty_sampleCount (s : State) :
    (State.noteQueueEmpty s).sampleCount = s.sampleCount := rfl
@[simp] theorem State.noteQueueEmpty_deviceSampleRate (s : State) :
    (State.noteQueueEmpty s).deviceSampleRate = s.deviceSampleRate := rfl
@[simp] theorem State.noteQueueEmpty_last (s : State) :
    (State.noteQueueEmpty s).last = s.last := rfl
@[simp] theorem State.noteQueueEmpty_fmPhase (s : State) :
    (State.noteQueueEmpty s).fmPhase = s.fmPhase := rfl
@[simp] theorem State.noteQueueEmpty_ibuf (s : State) :
    (State.noteQueueEmpty s).ibuf = s.ibuf := rfl
@[simp] theorem State.noteQueueEmpty_iq (s : State) :
    (State.noteQueueEmpty s).iq = s.iq := rfl
@[simp] theorem State.noteQueueEmpty_ring (s : State) :
    (State.noteQueueEmpty s).ring = s.ring := rfl
@[simp] theorem State.noteQueueEmpty_head (s : State) :
    (State.noteQueueEmpty s).head = s.head := rfl
@[simp] theorem State.noteQueueEmpty_tail (s : State) :
    (State.noteQueueEmpty s).tail = s.tail := rfl
@[simp] theorem State.noteQueueEmpty_fill (s : State) :
    (State.noteQueueEmpty s).fill = s.fill := rfl
@[simp] theorem State.noteQueueEmpty_devRunning (s : State) :
    (State.noteQueueEmpty s).devRunning = s.devRunning := rfl
@[simp] theorem State.noteQueueEmpty_dst (s : State) :
    (State.noteQueueEmpty s).dst = s.dst := rfl
@[simp] theorem State.noteQueueEmpty_port (s : State) :
    (State.noteQueueEmpty s).port = s.port := rfl
@[simp] theorem State.noteQueueEmpty_power (s : State) :
    (State.noteQueueEmpty s).power = s.power := rfl
@[simp] theorem State.noteQueueEmpty_hostRet (s : State) :
    (State.noteQueueEmpty s).hostRet = s.hostRet := rfl
@[simp] theorem State.noteQueueEmpty_prodRet (s : State) :
    (State.noteQueueEmpty s).prodRet = s.prodRet := rfl
@[simp] theorem State.noteQueueEmpty_consRet (s : State) :
    (State.noteQueueEmpty s).consRet = s.consRet := rfl
@[simp] theorem State.noteQueueEmpty_devLog (s : State) :
    (State.noteQueueEmpty s).devLog = s.devLog := rfl
@[simp] theorem State.noteQueueEmpty_devAnswers (s : State) :
    (State.noteQueueEmpty s).devAnswers = s.devAnswers := rfl
@[simp] theorem State.noteQueueEmpty_draws (s : State) :
    (State.noteQueueEmpty s).draws = s.draws := rfl

/-! ### `State.noteChunk` -/

@[simp] theorem State.noteChunk_enc (s : State) :
    (State.noteChunk s).enc = s.enc := rfl
@[simp] theorem State.noteChunk_cfg (s : State) :
    (State.noteChunk s).cfg = s.cfg := rfl
@[simp] theorem State.noteChunk_runState (s : State) :
    (State.noteChunk s).runState = s.runState := rfl
@[simp] theorem State.noteChunk_ready (s : State) :
    (State.noteChunk s).ready = s.ready := rfl
@[simp] theorem State.noteChunk_stop (s : State) :
    (State.noteChunk s).stop = s.stop := rfl
@[simp] theorem State.noteChunk_emptyQueue (s : State) :
    (State.noteChunk s).emptyQueue = false := rfl
@[simp] theorem State.noteChunk_prepared (s : State) :
    (State.noteChunk s).prepared = s.prepared := rfl
@[simp] theorem State.noteChunk_ppos (s : State) :
    (State.noteChunk s).ppos = s.ppos := rfl
@[simp] theorem State.noteChunk_exitSecond (s : State) :
    (State.noteChunk s).exitSecond = s.exitSecond := rfl
@[simp] theorem State.noteChunk_txQueue (s : State) :
    (State.noteChunk s).txQueue = s.txQueue := rfl
@[simp] theorem State.noteChunk_currentChunk (s : State) :
    (State.noteChunk s).currentChunk = s.currentChunk := rfl
@[simp] theorem State.noteChunk_subChunkOffset (s : State) :
    (State.noteChunk s).subChunkOffset = s.subChunkOffset := rfl
@[simp] theorem State.noteChunk_sampleCount (s : State) :
    (State.noteChunk s).sampleCount = s.sampleCount := rfl
@[simp] theorem State.noteChunk_deviceSampleRate (s : State) :
    (State.noteChunk s).deviceSampleRate = s.deviceSampleRate := rfl
@[simp] theorem State.noteChunk_last (s : State) :
    (State.noteChunk s).last = s.last := rfl
@[simp] theorem State.noteChunk_fmPhase (s : State) :
    (State.noteChunk s).fmPhase = s.fmPhase := rfl
@[simp] theorem State.noteChunk_ibuf (s : State) :
    (State.noteChunk s).ibuf = s.ibuf := rfl
@[simp] theorem State.noteChunk_iq (s : State) :
    (State.noteChunk s).iq = s.iq := rfl
@[simp] theorem State.noteChunk_ring (s : State) :
    (State.noteChunk s).ring = s.ring := rfl
@[simp] theorem State.noteChunk_head (s : State) :
    (State.noteChunk s).head = s.head := rfl
@[simp] theorem State.noteChunk_tail (s : State) :
    (State.noteChunk s).tail = s.tail := rfl
@[simp] theorem State.noteChunk_fill (s : State) :
    (State.noteChunk s).fill = s.fill := rfl
@[simp] theorem State.noteChunk_devRunning (s : State) :
    (State.noteChunk s).devRunning = s.devRunning := rfl
@[simp] theorem State.noteChunk_dst (s : State) :
    (State.noteChunk s).dst = s.dst := rfl
@[simp] theorem State.noteChunk_port (s : State) :
    (State.noteChunk s).port = s.port := rfl
@[simp] theorem State.noteChunk_power (s : State) :
    (State.noteChunk s).power = s.power := rfl
@[simp] theorem State.noteChunk_hostRet (s : State) :
    (State.noteChunk s).hostRet = s.hostRet := rfl
@[simp] theorem State.noteChunk_prodRet (s : State) :
    (State.noteChunk s).prodRet = s.prodRet := rfl
@[simp] theorem State.noteChunk_consRet (s : State) :
    (State.noteChunk s).consRet = s.consRet := rfl
@[simp] theorem State.noteChunk_devLog (s : State) :
    (State.noteChunk s).devLog = s.devLog := rfl
@[simp] theorem State.noteChunk_devAnswers (s : State) :
    (State.noteChunk s).devAnswers = s.devAnswers := rfl
@[simp] theorem State.noteChunk_draws (s : State) :
    (State.noteChunk s).draws = s.draws := rfl

/-! ### `State.setPrepared` -/

@[simp] theorem State.setPrepared_enc (s : State) :
    (State.setPrepared s).enc = s.enc := rfl
@[simp] theorem State.setPrepared_cfg (s : State) :
    (State.setPrepared s).cfg = s.cfg := rfl
@[simp] theorem State.setPrepared_runState (s : State) :
    (State.setPrepared s).runState = s.runState := rfl
@[simp] theorem State.setPrepared_ready (s : State) :
    (State.setPrepared s).ready = s.ready := rfl
@[simp] theorem State.setPrepared_stop (s : State) :
    (State.setPrepared s).stop = s.stop := rfl
@[simp] theorem State.setPrepared_emptyQueue (s : State) :
    (State.setPrepared s).emptyQueue = s.emptyQueue := rfl
@[simp] theorem State.setPrepared_prepared (s : State) :
    (State.setPrepared s).prepared = true := rfl
@[simp] theorem State.setPrepared_ppos (s : State) :
    (State.setPrepared s).ppos = s.ppos := rfl
@[simp] theorem State.setPrepared_exitSecond (s : State) :
    (State.setPrepared s).exitSecond = s.exitSecond := rfl
@[simp] theorem State.setPrepared_txQueue (s : State) :
    (State.setPrepared s).txQueue = s.txQueue := rfl
@[simp] theorem State.setPrepared_currentChunk (s : State) :
    (State.setPrepared s).currentChunk = s.currentChunk := rfl
@[simp] theorem State.setPrepared_subChunkOffset (s : State) :
    (State.setPrepared s).subChunkOffset = s.subChunkOffset := rfl
@[simp] theorem State.setPrepared_sampleCount (s : State) :
    (State.setPrepared s).sampleCount = s.sampleCount := rfl
@[simp] theorem State.setPrepared_deviceSampleRate (s : State) :
    (State.setPrepared s).deviceSampleRate = s.deviceSampleRate := rfl
@[simp] theorem State.setPrepared_last (s : State) :
    (State.setPrepared s).last = s.last := rfl
@[simp] theorem State.setPrepared_fmPhase (s : State) :
    (State.setPrepared s).fmPhase = s.fmPhase := rfl
@[simp] theorem State.setPrepared_ibuf (s : State) :
    (State.setPrepared s).ibuf = s.ibuf := rfl
@[simp] theorem State.setPrepared_iq (s : State) :
    (State.setPrepared s).iq = s.iq := rfl
@[simp] theorem State.setPrepared_ring (s : State) :
    (State.setPrepared s).ring = s.ring := rfl
@[simp] theorem State.setPrepared_head (s : State) :
    (State.setPrepared s).head = s.head := rfl
@[simp] theorem State.setPrepared_tail (s : State) :
    (State.setPrepared s).tail = s.tail := rfl
@[simp] theorem State.setPrepared_fill (s : State) :
    (State.setPrepared s).fill = s.fill := rfl
@[simp] theorem State.setPrepared_devRunning (s : State) :
    (State.setPrepared s).devRunning = s.devRunning := rfl
@[simp] theorem State.setPrepared_dst (s : State) :
    (State.setPrepared s).dst = s.dst := rfl
@[simp] theorem State.setPrepared_port (s : State) :
    (State.setPrepared s).port = s.port := rfl
@[simp] theorem State.setPrepared_power (s : State) :
    (State.setPrepared s).power = s.power := rfl
@[simp] theorem State.setPrepared_hostRet (s : State) :
    (State.setPrepared s).hostRet = s.hostRet := rfl
@[simp] theorem State.setPrepared_prodRet (s : State) :
    (State.setPrepared s).prodRet = s.prodRet := rfl
@[simp] theorem State.setPrepared_consRet (s : State) :
    (State.setPrepared s).consRet = s.consRet := rfl
@[simp] theorem State.setPrepared_devLog (s : State) :
    (State.setPrepared s).devLog = s.devLog := rfl
@[simp] theorem State.setPrepared_devAnswers (s : State) :
    (State.setPrepared s).devAnswers = s.devAnswers := rfl
@[simp] theorem State.setPrepared_draws (s : State) :
    (State.setPrepared s).draws = s.draws := rfl

/-! ### `State.clearPrepared` -/

@[simp] theorem State.clearPrepared_enc (s : State) :
    (State.clearPrepared s).enc = s.enc := rfl
@[simp] theorem State.clearPrepared_cfg (s : State) :
    (State.clearPrepared s).cfg = s.cfg := rfl
@[simp] theorem State.clearPrepared_runState (s : State) :
    (State.clearPrepared s).runState = s.runState := rfl
@[simp] theorem State.clearPrepared_ready (s : State) :
    (State.clearPrepared s).ready = s.ready := rfl
@[simp] theorem State.clearPrepared_stop (s : State) :
    (State.clearPrepared s).stop = s.stop := rfl
@[simp] theorem State.clearPrepared_emptyQueue (s : State) :
    (State.clearPrepared s).emptyQueue = s.emptyQueue := rfl
@[simp] theorem State.clearPrepared_prepared (s : State) :
    (State.clearPrepared s).prepared = false := rfl
@[simp] theorem State.clearPrepared_ppos (s : State) :
    (State.clearPrepared s).ppos = s.ppos := rfl
@[simp] theorem State.clearPrepared_exitSecond (s : State) :
    (State.clearPrepared s).exitSecond = s.exitSecond := rfl
@[simp] theorem State.clearPrepared_txQueue (s : State) :
    (State.clearPrepared s).txQueue = s.txQueue := rfl
@[simp] theorem State.clearPrepared_currentChunk (s : State) :
    (State.clearPrepared s).currentChunk = s.currentChunk := rfl
@[simp] theorem State.clearPrepared_subChunkOffset (s : State) :
    (State.clearPrepared s).subChunkOffset = s.subChunkOffset := rfl
@[simp] theorem State.clearPrepared_sampleCount (s : State) :
    (State.clearPrepared s).sampleCount = s.sampleCount := rfl
@[simp] theorem State.clearPrepared_deviceSampleRate (s : State) :
    (State.clearPrepared s).deviceSampleRate = s.deviceSampleRate := rfl
@[simp] theorem State.clearPrepared_last (s : State) :
    (State.clearPrepared s).last = s.last := rfl
@[simp] theorem State.clearPrepared_fmPhase (s : State) :
    (State.clearPrepared s).fmPhase = s.fmPhase := rfl
@[simp] theorem State.clearPrepared_ibuf (s : State) :
    (State.clearPrepared s).ibuf = s.ibuf := rfl
@[simp] theorem State.clearPrepared_iq (s : State) :
    (State.clearPrepared s).iq = s.iq := rfl
@[simp] theorem State.clearPrepared_ring (s : State) :
    (State.clearPrepared s).ring = s.ring := rfl
@[simp] theorem State.clearPrepared_head (s : State) :
    (State.clearPrepared s).head = s.head := rfl
@[simp] theorem State.clearPrepared_tail (s : State) :
    (State.clearPrepared s).tail = s.tail := rfl
@[simp] theorem State.clearPrepared_fill (s : State) :
    (State.clearPrepared s).fill = s.fill := rfl
@[simp] theorem State.clearPrepared_devRunning (s : State) :
    (State.clearPrepared s).devRunning = s.devRunning := rfl
@[simp] theorem State.clearPrepared_dst (s : State) :
    (State.clearPrepared s).dst = s.dst := rfl
@[simp] theorem State.clearPrepared_port (s : State) :
    (State.clearPrepared s).port = s.port := rfl
@[simp] theorem State.clearPrepared_power (s : State) :
    (State.clearPrepared s).power = s.power := rfl
@[simp] theorem State.clearPrepared_hostRet (s : State) :
    (State.clearPrepared s).hostRet = s.hostRet := rfl
@[simp] theorem State.clearPrepared_prodRet (s : State) :
    (State.clearPrepared s).prodRet = s.prodRet := rfl
@[simp] theorem State.clearPrepared_consRet (s : State) :
    (State.clearPrepared s).consRet = s.consRet := rfl
@[simp] theorem State.clearPrepared_devLog (s : State) :
    (State.clearPrepared s).devLog = s.devLog := rfl
@[simp] theorem State.clearPrepared_devAnswers (s : State) :
    (State.clearPrepared s).devAnswers = s.devAnswers := rfl
@[simp] theorem State.clearPrepared_draws (s : State) :
    (State.clearPrepared s).draws = s.draws := rfl

/-! ### `State.setStop` -/

@[simp] theorem State.setStop_enc (s : State) :
    (State.setStop s).enc = s.enc := rfl
@[simp] theorem State.setStop_cfg (s : State) :
    (State.setStop s).cfg = s.cfg := rfl
@[simp] theorem State.setStop_runState (s : State) :
    (State.setStop s).runState = s.runState := rfl
@[simp] theorem State.setStop_ready (s : State) :
    (State.setStop s).ready = s.ready := rfl
@[simp] theorem State.setStop_stop (s : State) :
    (State.setStop s).stop = true := rfl
@[simp] theorem State.setStop_emptyQueue (s : State) :
    (State.setStop s).emptyQueue = s.emptyQueue := rfl
@[simp] theorem State.setStop_prepared (s : State) :
    (State.setStop s).prepared = s.prepared := rfl
@[simp] theorem State.setStop_ppos (s : State) :
    (State.setStop s).ppos = s.ppos := rfl
@[simp] theorem State.setStop_exitSecond (s : State) :
    (State.setStop s).exitSecond = s.exitSecond := rfl
@[simp] theorem State.setStop_txQueue (s : State) :
    (State.setStop s).txQueue = s.txQueue := rfl
@[simp] theorem State.setStop_currentChunk (s : State) :
    (State.setStop s).currentChunk = s.currentChunk := rfl
@[simp] theorem State.setStop_subChunkOffset (s : State) :
    (State.setStop s).subChunkOffset = s.subChunkOffset := rfl
@[simp] theorem State.setStop_sampleCount (s : State) :
    (State.setStop s).sampleCount = s.sampleCount := rfl
@[simp] theorem State.setStop_deviceSampleRate (s : State) :
    (State.setStop s).deviceSampleRate = s.deviceSampleRate := rfl
@[simp] theorem State.setStop_last (s : State) :
    (State.setStop s).last = s.last := rfl
@[simp] theorem State.setStop_fmPhase (s : State) :
    (State.setStop s).fmPhase = s.fmPhase := rfl
@[simp] theorem State.setStop_ibuf (s : State) :
    (State.setStop s).ibuf = s.ibuf := rfl
@[simp] theorem State.setStop_iq (s : State) :
    (State.setStop s).iq = s.iq := rfl
@[simp] theorem State.setStop_ring (s : State) :
    (State.setStop s).ring = s.ring := rfl
@[simp] theorem State.setStop_head (s : State) :
    (State.setStop s).head = s.head := rfl
@[simp] theorem State.setStop_tail (s : State) :
    (State.setStop s).tail = s.tail := rfl
@[simp] theorem State.setStop_fill (s : State) :
    (State.setStop s).fill = s.fill := rfl
@[simp] theorem State.setStop_devRunning (s : State) :
    (State.setStop s).devRunning = s.devRunning := rfl
@[simp] theorem State.setStop_dst (s : State) :
    (State.setStop s).dst = s.dst := rfl
@[simp] theorem State.setStop_port (s : State) :
    (State.setStop s).port = s.port := rfl
@[simp] theorem State.setStop_power (s : State) :
    (State.setStop s).power = s.power := rfl
@[simp] theorem State.setStop_hostRet (s : State) :
    (State.setStop s).hostRet = s.hostRet := rfl
@[simp] theorem State.setStop_prodRet (s : State) :
    (State.setStop s).prodRet = s.prodRet := rfl
@[simp] theorem State.setStop_consRet (s : State) :
    (State.setStop s).consRet = s.consRet := rfl
@[simp] theorem State.setStop_devLog (s : State) :
    (State.setStop s).devLog = s.devLog := rfl
@[simp] theorem State.setStop_devAnswers (s : State) :
    (State.setStop s).devAnswers = s.devAnswers := rfl
@[simp] theorem State.setStop_draws (s : State) :
    (State.setStop s).draws = s.draws := rfl

/-! ### `State.startFlags` -/

@[simp] theorem State.startFlags_enc (s : State) :
    (State.startFlags s).enc = s.enc := rfl
@[simp] theorem State.startFlags_cfg (s : State) :
    (State.startFlags s).cfg = s.cfg := rfl
@[simp] theorem State.startFlags_runState (s : State) :
    (State.startFlags s).runState = s.runState := rfl
@[simp] theorem State.startFlags_ready (s : State) :
    (State.startFlags s).ready = true := rfl
@[simp] theorem State.startFlags_stop (s : State) :
    (State.startFlags s).stop = false := rfl
@[simp] theorem State.startFlags_emptyQueue (s : State) :
    (State.startFlags s).emptyQueue = s.emptyQueue := rfl
@[simp] theorem State.startFlags_prepared (s : State) :
    (State.startFlags s).prepared = false := rfl
@[simp] theorem State.startFlags_ppos (s : State) :
    (State.startFlags s).ppos = s.ppos := rfl
@[simp] theorem State.startFlags_exitSecond (s : State) :
    (State.startFlags s).exitSecond = s.exitSecond := rfl
@[simp] theorem State.startFlags_txQueue (s : State) :
    (State.startFlags s).txQueue = s.txQueue := rfl
@[simp] theorem State.startFlags_currentChunk (s : State) :
    (State.startFlags s).currentChunk = s.currentChunk := rfl
@[simp] theorem State.startFlags_subChunkOffset (s : State) :
    (State.startFlags s).subChunkOffset = s.subChunkOffset := rfl
@[simp] theorem State.startFlags_sampleCount (s : State) :
    (State.startFlags s).sampleCount = s.sampleCount := rfl
@[simp] theorem State.startFlags_deviceSampleRate (s : State) :
    (State.startFlags s).deviceSampleRate = s.deviceSampleRate := rfl
@[simp] theorem State.startFlags_last (s : State) :
    (State.startFlags s).last = s.last := rfl
@[simp] theorem State.startFlags_fmPhase (s : State) :
    (State.startFlags s).fmPhase = s.fmPhase := rfl
@[simp] theorem State.startFlags_ibuf (s : State) :
    (State.startFlags s).ibuf = s.ibuf := rfl
@[simp] theorem State.startFlags_iq (s : State) :
    (State.startFlags s).iq = s.iq := rfl
@[simp] theorem State.startFlags_ring (s : State) :
    (State.startFlags s).ring = s.ring := rfl
@[simp] theorem State.startFlags_head (s : State) :
    (State.startFlags s).head = s.head := rfl
@[simp] theorem State.startFlags_tail (s : State) :
    (State.startFlags s).tail = s.tail := rfl
@[simp] theorem State.startFlags_fill (s : State) :
    (State.startFlags s).fill = s.fill := rfl
@[simp] theorem State.startFlags_devRunning (s : State) :
    (State.startFlags s).devRunning = s.devRunning := rfl
@[simp] theorem State.startFlags_dst (s : State) :
    (State.startFlags s).dst = s.dst := rfl
@[simp] theorem State.startFlags_port (s : State) :
    (State.startFlags s).port = s.port := rfl
@[simp] theorem State.startFlags_power (s : State) :
    (State.startFlags s).power = s.power := rfl
@[simp] theorem State.startFlags_hostRet (s : State) :
    (State.startFlags s).hostRet = s.hostRet := rfl
@[simp] theorem State.startFlags_prodRet (s : State) :
    (State.startFlags s).prodRet = s.prodRet := rfl
@[simp] theorem State.startFlags_consRet (s : State) :
    (State.startFlags s).consRet = s.consRet := rfl
@[simp] theorem State.startFlags_devLog (s : State) :
    (State.startFlags s).devLog = s.devLog := rfl
@[simp] theorem State.startFlags_devAnswers (s : State) :
    (State.startFlags s).devAnswers = s.devAnswers := rfl
@[simp] theorem State.startFlags_draws (s : State) :
    (State.startFlags s).draws = s.draws := rfl

/-! ### `State.putSlot` -/

@[simp] theorem State.putSlot_enc (bs : List Byte) (s : State) :
    (State.putSlot bs s).enc = s.enc := rfl
@[simp] theorem State.putSlot_cfg (bs : List Byte) (s : State) :
    (State.putSlot bs s).cfg = s.cfg := rfl
@[simp] theorem State.putSlot_runState (bs : List Byte) (s : State) :
    (State.putSlot bs s).runState = s.runState := rfl
@[simp] theorem State.putSlot_ready (bs : List Byte) (s : State) :
    (State.putSlot bs s).ready = s.ready := rfl
@[simp] theorem State.putSlot_stop (bs : List Byte) (s : State) :
    (State.putSlot bs s).stop = s.stop := rfl
@[simp] theorem State.putSlot_emptyQueue (bs : List Byte) (s : State) :
    (State.putSlot bs s).emptyQueue = s.emptyQueue := rfl
@[simp] theorem State.putSlot_prepared (bs : List Byte) (s : State) :
    (State.putSlot bs s).prepared = s.prepared := rfl
@[simp] theorem State.putSlot_ppos (bs : List Byte) (s : State) :
    (State.putSlot bs s).ppos = s.ppos := rfl
@[simp] theorem State.putSlot_exitSecond (bs : List Byte) (s : State) :
    (State.putSlot bs s).exitSecond = s.exitSecond := rfl
@[simp] theorem State.putSlot_txQueue (bs : List Byte) (s : State) :
    (State.putSlot bs s).txQueue = s.txQueue := rfl
@[simp] theorem State.putSlot_currentChunk (bs : List Byte) (s : State) :
    (State.putSlot bs s).currentChunk = s.currentChunk := rfl
@[simp] theorem State.putSlot_subChunkOffset (bs : List Byte) (s : State) :
    (State.putSlot bs s).subChunkOffset = s.subChunkOffset := rfl
@[simp] theorem State.putSlot_sampleCount (bs : List Byte) (s : State) :
    (State.putSlot bs s).sampleCount = s.sampleCount := rfl
@[simp] theorem State.putSlot_deviceSampleRate (bs : List Byte) (s : State) :
    (State.putSlot bs s).deviceSampleRate = s.deviceSampleRate := rfl
@[simp] theorem State.putSlot_last (bs : List Byte) (s : State) :
    (State.putSlot bs s).last = s.last := rfl
@[simp] theorem State.putSlot_fmPhase (bs : List Byte) (s : State) :
    (State.putSlot bs s).fmPhase = s.fmPhase := rfl
@[simp] theorem State.putSlot_ibuf (bs : List Byte) (s : State) :
    (State.putSlot bs s).ibuf = s.ibuf := rfl
@[simp] theorem State.putSlot_iq (bs : List Byte) (s : State) :
    (State.putSlot bs s).iq = s.iq := rfl
@[simp] theorem State.putSlot_ring (bs : List Byte) (s : State) :
    (State.putSlot bs s).ring = s.ring.write (slotBase s.head) bs := rfl
@[simp] theorem State.putSlot_head (bs : List Byte) (s : State) :
    (State.putSlot bs s).head = s.head + 1#8 := rfl
@[simp] theorem State.putSlot_tail (bs : List Byte) (s : State) :
    (State.putSlot bs s).tail = s.tail := rfl
@[simp] theorem State.putSlot_fill (bs : List Byte) (s : State) :
    (State.putSlot bs s).fill = s.fill + 1 := rfl
@[simp] theorem State.putSlot_devRunning (bs : List Byte) (s : State) :
    (State.putSlot bs s).devRunning = s.devRunning := rfl
@[simp] theorem State.putSlot_dst (bs : List Byte) (s : State) :
    (State.putSlot bs s).dst = s.dst := rfl
@[simp] theorem State.putSlot_port (bs : List Byte) (s : State) :
    (State.putSlot bs s).port = s.port := rfl
@[simp] theorem State.putSlot_power (bs : List Byte) (s : State) :
    (State.putSlot bs s).power = s.power := rfl
@[simp] theorem State.putSlot_hostRet (bs : List Byte) (s : State) :
    (State.putSlot bs s).hostRet = s.hostRet := rfl
@[simp] theorem State.putSlot_prodRet (bs : List Byte) (s : State) :
    (State.putSlot bs s).prodRet = s.prodRet := rfl
@[simp] theorem State.putSlot_consRet (bs : List Byte) (s : State) :
    (State.putSlot bs s).consRet = s.consRet := rfl
@[simp] theorem State.putSlot_devLog (bs : List Byte) (s : State) :
    (State.putSlot bs s).devLog = s.devLog := rfl
@[simp] theorem State.putSlot_devAnswers (bs : List Byte) (s : State) :
    (State.putSlot bs s).devAnswers = s.devAnswers := rfl
@[simp] theorem State.putSlot_draws (bs : List Byte) (s : State) :
    (State.putSlot bs s).draws = s.draws := rfl

/-! ### `State.takeSlot` -/

@[simp] theorem State.takeSlot_enc (s : State) :
    (State.takeSlot s).enc = s.enc := rfl
@[simp] theorem State.takeSlot_cfg (s : State) :
    (State.takeSlot s).cfg = s.cfg := rfl
@[simp] theorem State.takeSlot_runState (s : State) :
    (State.takeSlot s).runState = s.runState := rfl
@[simp] theorem State.takeSlot_ready (s : State) :
    (State.takeSlot s).ready = if s.fill - 1 = 0 then true else s.ready := rfl
@[simp] theorem State.takeSlot_stop (s : State) :
    (State.takeSlot s).stop = s.stop := rfl
@[simp] theorem State.takeSlot_emptyQueue (s : State) :
    (State.takeSlot s).emptyQueue = s.emptyQueue := rfl
@[simp] theorem State.takeSlot_prepared (s : State) :
    (State.takeSlot s).prepared = s.prepared := rfl
@[simp] theorem State.takeSlot_ppos (s : State) :
    (State.takeSlot s).ppos = s.ppos := rfl
@[simp] theorem State.takeSlot_exitSecond (s : State) :
    (State.takeSlot s).exitSecond = s.exitSecond := rfl
@[simp] theorem State.takeSlot_txQueue (s : State) :
    (State.takeSlot s).txQueue = s.txQueue := rfl
@[simp] theorem State.takeSlot_currentChunk (s : State) :
    (State.takeSlot s).currentChunk = s.currentChunk := rfl
@[simp] theorem State.takeSlot_subChunkOffset (s : State) :
    (State.takeSlot s).subChunkOffset = s.subChunkOffset := rfl
@[simp] theorem State.takeSlot_sampleCount (s : State) :
    (State.takeSlot s).sampleCount = s.sampleCount := rfl
@[simp] theorem State.takeSlot_deviceSampleRate (s : State) :
    (State.takeSlot s).deviceSampleRate = s.deviceSampleRate := rfl
@[simp] theorem State.takeSlot_last (s : State) :
    (State.takeSlot s).last = s.last := rfl
@[simp] theorem State.takeSlot_fmPhase (s : State) :
    (State.takeSlot s).fmPhase = s.fmPhase := rfl
@[simp] theorem State.takeSlot_ibuf (s : State) :
    (State.takeSlot s).ibuf = s.ibuf := rfl
@[simp] theorem State.takeSlot_iq (s : State) :
    (State.takeSlot s).iq = s.iq := rfl
@[simp] theorem State.takeSlot_ring (s : State) :
    (State.takeSlot s).ring = s.ring := rfl
@[simp] theorem State.takeSlot_head (s : State) :
    (State.takeSlot s).head = s.head := rfl
@[simp] theorem State.takeSlot_tail (s : State) :
    (State.takeSlot s).tail = s.tail + 1#8 := rfl
@[simp] theorem State.takeSlot_fill (s : State) :
    (State.takeSlot s).fill = s.fill - 1 := rfl
@[simp] theorem State.takeSlot_devRunning (s : State) :
    (State.takeSlot s).devRunning = s.devRunning := rfl
@[simp] theorem State.takeSlot_dst (s : State) :
    (State.takeSlot s).dst = s.dst := rfl
@[simp] theorem State.takeSlot_port (s : State) :
    (State.takeSlot s).port = s.port := rfl
@[simp] theorem State.takeSlot_power (s : State) :
    (State.takeSlot s).power = s.power := rfl
@[simp] theorem State.takeSlot_hostRet (s : State) :
    (State.takeSlot s).hostRet = s.hostRet := rfl
@[simp] theorem State.takeSlot_prodRet (s : State) :
    (State.takeSlot s).prodRet = s.prodRet := rfl
@[simp] theorem State.takeSlot_consRet (s : State) :
    (State.takeSlot s).consRet = s.consRet := rfl
@[simp] theorem State.takeSlot_devLog (s : State) :
    (State.takeSlot s).devLog = s.devLog := rfl
@[simp] theorem State.takeSlot_devAnswers (s : State) :
    (State.takeSlot s).devAnswers = s.devAnswers := rfl
@[simp] theorem State.takeSlot_draws (s : State) :
    (State.takeSlot s).draws = s.draws := rfl

/-! ### `State.deliver` -/

@[simp] theorem State.deliver_enc (bs : List Byte) (s : State) :
    (State.deliver bs s).enc = s.enc := rfl
@[simp] theorem State.deliver_cfg (bs : List Byte) (s : State) :
    (State.deliver bs s).cfg = s.cfg := rfl
@[simp] theorem State.deliver_runState (bs : List Byte) (s : State) :
    (State.deliver bs s).runState = s.runState := rfl
@[simp] theorem State.deliver_ready (bs : List Byte) (s : State) :
    (State.deliver bs s).ready = s.ready := rfl
@[simp] theorem State.deliver_stop (bs : List Byte) (s : State) :
    (State.deliver bs s).stop = s.stop := rfl
@[simp] theorem State.deliver_emptyQueue (bs : List Byte) (s : State) :
    (State.deliver bs s).emptyQueue = s.emptyQueue := rfl
@[simp] theorem State.deliver_prepared (bs : List Byte) (s : State) :
    (State.deliver bs s).prepared = s.prepared := rfl
@[simp] theorem State.deliver_ppos (bs : List Byte) (s : State) :
    (State.deliver bs s).ppos = s.ppos := rfl
@[simp] theorem State.deliver_exitSecond (bs : List Byte) (s : State) :
    (State.deliver bs s).exitSecond = s.exitSecond := rfl
@[simp] theorem State.deliver_txQueue (bs : List Byte) (s : State) :
    (State.deliver bs s).txQueue = s.txQueue := rfl
@[simp] theorem State.deliver_currentChunk (bs : List Byte) (s : State) :
    (State.deliver bs s).currentChunk = s.currentChunk := rfl
@[simp] theorem State.deliver_subChunkOffset (bs : List Byte) (s : State) :
    (State.deliver bs s).subChunkOffset = s.subChunkOffset := rfl
@[simp] theorem State.deliver_sampleCount (bs : List Byte) (s : State) :
    (State.deliver bs s).sampleCount = s.sampleCount := rfl
@[simp] theorem State.deliver_deviceSampleRate (bs : List Byte) (s : State) :
    (State.deliver bs s).deviceSampleRate = s.deviceSampleRate := rfl
@[simp] theorem State.deliver_last (bs : List Byte) (s : State) :
    (State.deliver bs s).last = s.last := rfl
@[simp] theorem State.deliver_fmPhase (bs : List Byte) (s : State) :
    (State.deliver bs s).fmPhase = s.fmPhase := rfl
@[simp] theorem State.deliver_ibuf (bs : List Byte) (s : State) :
    (State.deliver bs s).ibuf = s.ibuf := rfl
@[simp] theorem State.deliver_iq (bs : List Byte) (s : State) :
    (State.deliver bs s).iq = s.iq := rfl
@[simp] theorem State.deliver_ring (bs : List Byte) (s : State) :
    (State.deliver bs s).ring = s.ring := rfl
@[simp] theorem State.deliver_head (bs : List Byte) (s : State) :
    (State.deliver bs s).head = s.head := rfl
@[simp] theorem State.deliver_tail (bs : List Byte) (s : State) :
    (State.deliver bs s).tail = s.tail := rfl
@[simp] theorem State.deliver_fill (bs : List Byte) (s : State) :
    (State.deliver bs s).fill = s.fill := rfl
@[simp] theorem State.deliver_devRunning (bs : List Byte) (s : State) :
    (State.deliver bs s).devRunning = s.devRunning := rfl
@[simp] theorem State.deliver_dst (bs : List Byte) (s : State) :
    (State.deliver bs s).dst = bs := rfl
@[simp] theorem State.deliver_port (bs : List Byte) (s : State) :
    (State.deliver bs s).port = s.port := rfl
@[simp] theorem State.deliver_power (bs : List Byte) (s : State) :
    (State.deliver bs s).power = s.power := rfl
@[simp] theorem State.deliver_hostRet (bs : List Byte) (s : State) :
    (State.deliver bs s).hostRet = s.hostRet := rfl
@[simp] theorem State.deliver_prodRet (bs : List Byte) (s : State) :
    (State.deliver bs s).prodRet = s.prodRet := rfl
@[simp] theorem State.deliver_consRet (bs : List Byte) (s : State) :
    (State.deliver bs s).consRet = .callback 0#32 := rfl
@[simp] theorem State.deliver_devLog (bs : List Byte) (s : State) :
    (State.deliver bs s).devLog = s.devLog := rfl
@[simp] theorem State.deliver_devAnswers (bs : List Byte) (s : State) :
    (State.deliver bs s).devAnswers = s.devAnswers := rfl
@[simp] theorem State.deliver_draws (bs : List Byte) (s : State) :
    (State.deliver bs s).draws = s.draws := rfl

/-! ### `State.toExit` -/

@[simp] theorem State.toExit_enc (s : State) :
    (State.toExit s).enc = s.enc := rfl
@[simp] theorem State.toExit_cfg (s : State) :
    (State.toExit s).cfg = s.cfg := rfl
@[simp] theorem State.toExit_runState (s : State) :
    (State.toExit s).runState = s.runState := rfl
@[simp] theorem State.toExit_ready (s : State) :
    (State.toExit s).ready = s.ready := rfl
@[simp] theorem State.toExit_stop (s : State) :
    (State.toExit s).stop = s.stop := rfl
@[simp] theorem State.toExit_emptyQueue (s : State) :
    (State.toExit s).emptyQueue = s.emptyQueue := rfl
@[simp] theorem State.toExit_prepared (s : State) :
    (State.toExit s).prepared = s.prepared := rfl
@[simp] theorem State.toExit_ppos (s : State) :
    (State.toExit s).ppos = .exit := rfl
@[simp] theorem State.toExit_exitSecond (s : State) :
    (State.toExit s).exitSecond = false := rfl
@[simp] theorem State.toExit_txQueue (s : State) :
    (State.toExit s).txQueue = s.txQueue := rfl
@[simp] theorem State.toExit_currentChunk (s : State) :
    (State.toExit s).currentChunk = s.currentChunk := rfl
@[simp] theorem State.toExit_subChunkOffset (s : State) :
    (State.toExit s).subChunkOffset = s.subChunkOffset := rfl
@[simp] theorem State.toExit_sampleCount (s : State) :
    (State.toExit s).sampleCount = s.sampleCount := rfl
@[simp] theorem State.toExit_deviceSampleRate (s : State) :
    (State.toExit s).deviceSampleRate = s.deviceSampleRate := rfl
@[simp] theorem State.toExit_last (s : State) :
    (State.toExit s).last = s.last := rfl
@[simp] theorem State.toExit_fmPhase (s : State) :
    (State.toExit s).fmPhase = s.fmPhase := rfl
@[simp] theorem State.toExit_ibuf (s : State) :
    (State.toExit s).ibuf = s.ibuf := rfl
@[simp] theorem State.toExit_iq (s : State) :
    (State.toExit s).iq = s.iq := rfl
@[simp] theorem State.toExit_ring (s : State) :
    (State.toExit s).ring = s.ring := rfl
@[simp] theorem State.toExit_head (s : State) :
    (State.toExit s).head = s.head := rfl
@[simp] theorem State.toExit_tail (s : State) :
    (State.toExit s).tail = s.tail := rfl
@[simp] theorem State.toExit_fill (s : State) :
    (State.toExit s).fill = s.fill := rfl
@[simp] theorem State.toExit_devRunning (s : State) :
    (State.toExit s).devRunning = s.devRunning := rfl
@[simp] theorem State.toExit_dst (s : State) :
    (State.toExit s).dst = s.dst := rfl
@[simp] theorem State.toExit_port (s : State) :
    (State.toExit s).port = s.port := rfl
@[simp] theorem State.toExit_power (s : State) :
    (State.toExit s).power = s.power := rfl
@[simp] theorem State.toExit_hostRet (s : State) :
    (State.toExit s).hostRet = s.hostRet := rfl
@[simp] theorem State.toExit_prodRet (s : State) :
    (State.toExit s).prodRet = s.prodRet := rfl
@[simp] theorem State.toExit_consRet (s : State) :
    (State.toExit s).consRet = s.consRet := rfl
@[simp] theorem State.toExit_devLog (s : State) :
    (State.toExit s).devLog = s.devLog := rfl
@[simp] theorem State.toExit_devAnswers (s : State) :
    (State.toExit s).devAnswers = s.devAnswers := rfl
@[simp] theorem State.toExit_draws (s : State) :
    (State.toExit s).draws = s.draws := rfl

/-! ### `State.flushRing` -/

@[simp] theorem State.flushRing_enc (s : State) :
    (State.flushRing s).enc = s.enc := rfl
@[simp] theorem State.flushRing_cfg (s : State) :
    (State.flushRing s).cfg = s.cfg := rfl
@[simp] theorem State.flushRing_runState (s : State) :
    (State.flushRing s).runState = s.runState := rfl
@[simp] theorem State.flushRing_ready (s : State) :
    (State.flushRing s).ready = true := rfl
@[simp] theorem State.flushRing_stop (s : State) :
    (State.flushRing s).stop = s.stop := rfl
@[simp] theorem State.flushRing_emptyQueue (s : State) :
    (State.flushRing s).emptyQueue = s.emptyQueue := rfl
@[simp] theorem State.flushRing_prepared (s : State) :
    (State.flushRing s).prepared = s.prepared := rfl
@[simp] theorem State.flushRing_ppos (s : State) :
    (State.flushRing s).ppos = s.ppos := rfl
@[simp] theorem State.flushRing_exitSecond (s : State) :
    (State.flushRing s).exitSecond = s.exitSecond := rfl
@[simp] theorem State.flushRing_txQueue (s : State) :
    (State.flushRing s).txQueue = s.txQueue := rfl
@[simp] theorem State.flushRing_currentChunk (s : State) :
    (State.flushRing s).currentChunk = s.currentChunk := rfl
@[simp] theorem State.flushRing_subChunkOffset (s : State) :
    (State.flushRing s).subChunkOffset = s.subChunkOffset := rfl
@[simp] theorem State.flushRing_sampleCount (s : State) :
    (State.flushRing s).sampleCount = s.sampleCount := rfl
@[simp] theorem State.flushRing_deviceSampleRate (s : State) :
    (State.flushRing s).deviceSampleRate = s.deviceSampleRate := rfl
@[simp] theorem State.flushRing_last (s : State) :
    (State.flushRing s).last = s.last := rfl
@[simp] theorem State.flushRing_fmPhase (s : State) :
    (State.flushRing s).fmPhase = s.fmPhase := rfl
@[simp] theorem State.flushRing_ibuf (s : State) :
    (State.flushRing s).ibuf = s.ibuf := rfl
@[simp] theorem State.flushRing_iq (s : State) :
    (State.flushRing s).iq = s.iq := rfl
@[simp] theorem State.flushRing_ring (s : State) :
    (State.flushRing s).ring = s.ring := rfl
@[simp] theorem State.flushRing_head (s : State) :
    (State.flushRing s).head = s.head := rfl
@[simp] theorem State.flushRing_tail (s : State) :
    (State.flushRing s).tail = s.head := rfl
@[simp] theorem State.flushRing_fill (s : State) :
    (State.flushRing s).fill = 0 := rfl
@[simp] theorem State.flushRing_devRunning (s : State) :
    (State.flushRing s).devRunning = s.devRunning := rfl
@[simp] theorem State.flushRing_dst (s : State) :
    (State.flushRing s).dst = s.dst := rfl
@[simp] theorem State.flushRing_port (s : State) :
    (State.flushRing s).port = s.port := rfl
@[simp] theorem State.flushRing_power (s : State) :
    (State.flushRing s).power = s.power := rfl
@[simp] theorem State.flushRing_hostRet (s : State) :
    (State.flushRing s).hostRet = s.hostRet := rfl
@[simp] theorem State.flushRing_prodRet (s : State) :
    (State.flushRing s).prodRet = s.prodRet := rfl
@[simp] theorem State.flushRing_consRet (s : State) :
    (State.flushRing s).consRet = s.consRet := rfl
@[simp] theorem State.flushRing_devLog (s : State) :
    (State.flushRing s).devLog = s.devLog := rfl
@[simp] theorem State.flushRing_devAnswers (s : State) :
    (State.flushRing s).devAnswers = s.devAnswers := rfl
@[simp] theorem State.flushRing_draws (s : State) :
    (State.flushRing s).draws = s.draws := rfl

/-! ### `State.workerEnds` -/

@[simp] theorem State.workerEnds_enc (r : Bool) (s : State) :
    (State.workerEnds r s).enc = s.enc := rfl
@[simp] theorem State.workerEnds_cfg (r : Bool) (s : State) :
    (State.workerEnds r s).cfg = s.cfg := rfl
@[simp] theorem State.workerEnds_runState (r : Bool) (s : State) :
    (State.workerEnds r s).runState = .idle := rfl
@[simp] theorem State.workerEnds_ready (r : Bool) (s : State) :
    (State.workerEnds r s).ready = s.ready := rfl
@[simp] theorem State.workerEnds_stop (r : Bool) (s : State) :
    (State.workerEnds r s).stop = s.stop := rfl
@[simp] theorem State.workerEnds_emptyQueue (r : Bool) (s : State) :
    (State.workerEnds r s).emptyQueue = s.emptyQueue := rfl
@[simp] theorem State.workerEnds_prepared (r : Bool) (s : State) :
    (State.workerEnds r s).prepared = s.prepared := rfl
@[simp] theorem State.workerEnds_ppos (r : Bool) (s : State) :
    (State.workerEnds r s).ppos = .off := rfl
@[simp] theorem State.workerEnds_exitSecond (r : Bool) (s : State) :
    (State.workerEnds r s).exitSecond = false := rfl
@[simp] theorem State.workerEnds_txQueue (r : Bool) (s : State) :
    (State.workerEnds r s).txQueue = s.txQueue := rfl
@[simp] theorem State.workerEnds_currentChunk (r : Bool) (s : State) :
    (State.workerEnds r s).currentChunk = s.currentChunk := rfl
@[simp] theorem State.workerEnds_subChunkOffset (r : Bool) (s : State) :
    (State.workerEnds r s).subChunkOffset = s.subChunkOffset := rfl
@[simp] theorem State.workerEnds_sampleCount (r : Bool) (s : State) :
    (State.workerEnds r s).sampleCount = s.sampleCount := rfl
@[simp] theorem State.workerEnds_deviceSampleRate (r : Bool) (s : State) :
    (State.workerEnds r s).deviceSampleRate = s.deviceSampleRate := rfl
@[simp] theorem State.workerEnds_last (r : Bool) (s : State) :
    (State.workerEnds r s).last = s.last := rfl
@[simp] theorem State.workerEnds_fmPhase (r : Bool) (s : State) :
    (State.workerEnds r s).fmPhase = s.fmPhase := rfl
@[simp] theorem State.workerEnds_ibuf (r : Bool) (s : State) :
    (State.workerEnds r s).ibuf = s.ibuf := rfl
@[simp] theorem State.workerEnds_iq (r : Bool) (s : State) :
    (State.workerEnds r s).iq = s.iq := rfl
@[simp] theorem State.workerEnds_ring (r : Bool) (s : State) :
    (State.workerEnds r s).ring = s.ring := rfl
@[simp] theorem State.workerEnds_head (r : Bool) (s : State) :
    (State.workerEnds r s).head = s.head := rfl
@[simp] theorem State.workerEnds_tail (r : Bool) (s : State) :
    (State.workerEnds r s).tail = s.tail := rfl
@[simp] theorem State.workerEnds_fill (r : Bool) (s : State) :
    (State.workerEnds r s).fill = s.fill := rfl
@[simp] theorem State.workerEnds_devRunning (r : Bool) (s : State) :
    (State.workerEnds r s).devRunning = s.devRunning := rfl
@[simp] theorem State.workerEnds_dst (r : Bool) (s : State) :
    (State.workerEnds r s).dst = s.dst := rfl
@[simp] theorem State.workerEnds_port (r : Bool) (s : State) :
    (State.workerEnds r s).port = s.port := rfl
@[simp] theorem State.workerEnds_power (r : Bool) (s : State) :
    (State.workerEnds r s).power = s.power := rfl
@[simp] theorem State.workerEnds_hostRet (r : Bool) (s : State) :
    (State.workerEnds r s).hostRet = .bool r := rfl
@[simp] theorem State.workerEnds_prodRet (r : Bool) (s : State) :
    (State.workerEnds r s).prodRet = s.prodRet := rfl
@[simp] theorem State.workerEnds_consRet (r : Bool) (s : State) :
    (State.workerEnds r s).consRet = s.consRet := rfl
@[simp] theorem State.workerEnds_devLog (r : Bool) (s : State) :
    (State.workerEnds r s).devLog = s.devLog := rfl
@[simp] theorem State.workerEnds_devAnswers (r : Bool) (s : State) :
    (State.workerEnds r s).devAnswers = s.devAnswers := rfl
@[simp] theorem State.workerEnds_draws (r : Bool) (s : State) :
    (State.workerEnds r s).draws = s.draws := rfl

/-! ### `State.beginStop` -/

@[simp] theorem State.beginStop_enc (s : State) :
    (State.beginStop s).enc = s.enc := rfl
@[simp] theorem State.beginStop_cfg (s : State) :
    (State.beginStop s).cfg = s.cfg := rfl
@[simp] theorem State.beginStop_runState (s : State) :
    (State.beginStop s).runState = .stopping := rfl
@[simp] theorem State.beginStop_ready (s : State) :
    (State.beginStop s).ready = s.ready := rfl
@[simp] theorem State.beginStop_stop (s : State) :
    (State.beginStop s).stop = true := rfl
@[simp] theorem State.beginStop_emptyQueue (s : State) :
    (State.beginStop s).emptyQueue = s.emptyQueue := rfl
@[simp] theorem State.beginStop_prepared (s : State) :
    (State.beginStop s).prepared = s.prepared := rfl
@[simp] theorem State.beginStop_ppos (s : State) :
    (State.beginStop s).ppos = s.ppos := rfl
@[simp] theorem State.beginStop_exitSecond (s : State) :
    (State.beginStop s).exitSecond = s.exitSecond := rfl
@[simp] theorem State.beginStop_txQueue (s : State) :
    (State.beginStop s).txQueue = s.txQueue := rfl
@[simp] theorem State.beginStop_currentChunk (s : State) :
    (State.beginStop s).currentChunk = s.currentChunk := rfl
@[simp] theorem State.beginStop_subChunkOffset (s : State) :
    (State.beginStop s).subChunkOffset = s.subChunkOffset := rfl
@[simp] theorem State.beginStop_sampleCount (s : State) :
    (State.beginStop s).sampleCount = s.sampleCount := rfl
@[simp] theorem State.beginStop_deviceSampleRate (s : State) :
    (State.beginStop s).deviceSampleRate = s.deviceSampleRate := rfl
@[simp] theorem State.beginStop_last (s : State) :
    (State.beginStop s).last = s.last := rfl
@[simp] theorem State.beginStop_fmPhase (s : State) :
    (State.beginStop s).fmPhase = s.fmPhase := rfl
@[simp] theorem State.beginStop_ibuf (s : State) :
    (State.beginStop s).ibuf = s.ibuf := rfl
@[simp] theorem State.beginStop_iq (s : State) :
    (State.beginStop s).iq = s.iq := rfl
@[simp] theorem State.beginStop_ring (s : State) :
    (State.beginStop s).ring = s.ring := rfl
@[simp] theorem State.beginStop_head (s : State) :
    (State.beginStop s).head = s.head := rfl
@[simp] theorem State.beginStop_tail (s : State) :
    (State.beginStop s).tail = s.tail := rfl
@[simp] theorem State.beginStop_fill (s : State) :
    (State.beginStop s).fill = s.fill := rfl
@[simp] theorem State.beginStop_devRunning (s : State) :
    (State.beginStop s).devRunning = s.devRunning := rfl
@[simp] theorem State.beginStop_dst (s : State) :
    (State.beginStop s).dst = s.dst := rfl
@[simp] theorem State.beginStop_port (s : State) :
    (State.beginStop s).port = s.port := rfl
@[simp] theorem State.beginStop_power (s : State) :
    (State.beginStop s).power = s.power := rfl
@[simp] theorem State.beginStop_hostRet (s : State) :
    (State.beginStop s).hostRet = .pending := rfl
@[simp] theorem State.beginStop_prodRet (s : State) :
    (State.beginStop s).prodRet = s.prodRet := rfl
@[simp] theorem State.beginStop_consRet (s : State) :
    (State.beginStop s).consRet = s.consRet := rfl
@[simp] theorem State.beginStop_devLog (s : State) :
    (State.beginStop s).devLog = s.devLog := rfl
@[simp] theorem State.beginStop_devAnswers (s : State) :
    (State.beginStop s).devAnswers = s.devAnswers := rfl
@[simp] theorem State.beginStop_draws (s : State) :
    (State.beginStop s).draws = s.draws := rfl

/-! ### `State.closed` -/

@[simp] theorem State.closed_enc (s : State) :
    (State.closed s).enc = Enc.reset := rfl
@[simp] theorem State.closed_cfg (s : State) :
    (State.closed s).cfg = Cfg.reset := rfl
@[simp] theorem State.closed_runState (s : State) :
    (State.closed s).runState = .idle := rfl
@[simp] theorem State.closed_ready (s : State) :
    (State.closed s).ready = true := rfl
@[simp] theorem State.closed_stop (s : State) :
    (State.closed s).stop = false := rfl
@[simp] theorem State.closed_emptyQueue (s : State) :
    (State.closed s).emptyQueue = false := rfl
@[simp] theorem State.closed_prepared (s : State) :
    (State.closed s).prepared = false := rfl
@[simp] theorem State.closed_ppos (s : State) :
    (State.closed s).ppos = .off := rfl
@[simp] theorem State.closed_exitSecond (s : State) :
    (State.closed s).exitSecond = false := rfl
@[simp] theorem State.closed_txQueue (s : State) :
    (State.closed s).txQueue = [] := rfl
@[simp] theorem State.closed_currentChunk (s : State) :
    (State.closed s).currentChunk = none := rfl
@[simp] theorem State.closed_subChunkOffset (s : State) :
    (State.closed s).subChunkOffset = 0 := rfl
@[simp] theorem State.closed_sampleCount (s : State) :
    (State.closed s).sampleCount = 0 := rfl
@[simp] theorem State.closed_deviceSampleRate (s : State) :
    (State.closed s).deviceSampleRate = 0#32 := rfl
@[simp] theorem State.closed_last (s : State) :
    (State.closed s).last = ⟨.rat 0, .rat 0, .rat 0, .rat 0⟩ := rfl
@[simp] theorem State.closed_fmPhase (s : State) :
    (State.closed s).fmPhase = .rat 0 := rfl
@[simp] theorem State.closed_ibuf (s : State) :
    (State.closed s).ibuf = [] := rfl
@[simp] theorem State.closed_iq (s : State) :
    (State.closed s).iq = [] := rfl
@[simp] theorem State.closed_ring (s : State) :
    (State.closed s).ring = [] := rfl
@[simp] theorem State.closed_head (s : State) :
    (State.closed s).head = 0#8 := rfl
@[simp] theorem State.closed_tail (s : State) :
    (State.closed s).tail = 0#8 := rfl
@[simp] theorem State.closed_fill (s : State) :
    (State.closed s).fill = 0 := rfl
@[simp] theorem State.closed_devRunning (s : State) :
    (State.closed s).devRunning = false := rfl
@[simp] theorem State.closed_dst (s : State) :
    (State.closed s).dst = s.dst := rfl
@[simp] theorem State.closed_port (s : State) :
    (State.closed s).port = s.port := rfl
@[simp] theorem State.closed_power (s : State) :
    (State.closed s).power = .off := rfl
@[simp] theorem State.closed_hostRet (s : State) :
    (State.closed s).hostRet = .none := rfl
@[simp] theorem State.closed_prodRet (s : State) :
    (State.closed s).prodRet = .none := rfl
@[simp] theorem State.closed_consRet (s : State) :
    (State.closed s).consRet = .none := rfl
@[simp] theorem State.closed_devLog (s : State) :
    (State.closed s).devLog = s.devLog ++ [.close] := rfl
@[simp] theorem State.closed_devAnswers (s : State) :
    (State.closed s).devAnswers = s.devAnswers := rfl
@[simp] theorem State.closed_draws (s : State) :
    (State.closed s).draws = s.draws := rfl

end Sys2Proof.Machine
end

