-- ==== Sys2Proof/Laws/Streaming.lean ====
section
/-! SUPPORT. One lemma for each shared operation of the streaming units that says all it can do:
45_resampler.md, 46_iq_modulator.md, 47_quantizer_ring.md, 48_sequencer.md. -/

namespace Sys2Proof.Machine

open Sys2Proof

/-! ### Arithmetic -/

theorem clipGain_range (num : Num) (g x : RealNum) :
    -1 ≤ (clipGain num g x).real ∧ (clipGain num g x).real ≤ 1 := clipped_range _

/-- `round` is within one half. -/
theorem roundHalfAway_near (q : Rat) : |(roundHalfAway q : Rat) - q| ≤ 1 / 2 := by
  unfold roundHalfAway
  split
  · have h1 : (((q + 1 / 2).floor : Int) : Rat) ≤ q + 1 / 2 := by exact_mod_cast Int.floor_le (q + 1 / 2)
    have h2 : q + 1 / 2 < (((q + 1 / 2).floor : Int) : Rat) + 1 := by
      exact_mod_cast Int.lt_floor_add_one (q + 1 / 2)
    rw [abs_le]
    constructor <;> linarith
  · have h1 : (((-q + 1 / 2).floor : Int) : Rat) ≤ -q + 1 / 2 := by
      exact_mod_cast Int.floor_le (-q + 1 / 2)
    have h2 : -q + 1 / 2 < (((-q + 1 / 2).floor : Int) : Rat) + 1 := by
      exact_mod_cast Int.lt_floor_add_one (-q + 1 / 2)
    rw [abs_le]
    push_cast
    constructor <;> linarith

/-- R163: the device rate is at least 1. -/
theorem one_le_deviceRate {pcmRate count : Nat} (hp : 0 < pcmRate) (h0 : 0 < count)
    (h1 : count ≤ bufLen) : 1 ≤ deviceRate pcmRate count := by
  have hq : (1 : Rat) ≤ ((pcmRate * bufLen : Nat) : Rat) / (count : Rat) := by
    rw [le_div_iff₀ (by exact_mod_cast h0)]
    have : count ≤ pcmRate * bufLen := le_trans h1 (Nat.le_mul_of_pos_left _ hp)
    rw [one_mul]
    exact_mod_cast this
  have := roundHalfAway_near (((pcmRate * bufLen : Nat) : Rat) / (count : Rat))
  unfold deviceRate
  rw [abs_le] at this
  have h2 : (1 / 2 : Rat) ≤ (roundHalfAway (((pcmRate * bufLen : Nat) : Rat) / (count : Rat)) : Rat) := by
    linarith [this.1]
  by_contra hc
  have h3 : roundHalfAway (((pcmRate * bufLen : Nat) : Rat) / (count : Rat)) ≤ 0 := by omega
  have h4 : (roundHalfAway (((pcmRate * bufLen : Nat) : Rat) / (count : Rat)) : Rat) ≤ 0 := by
    exact_mod_cast h3
  linarith

/-- R27, R143: the phase stays in (-1/2, 1/2], whatever the numerics. -/
theorem nextPhase_range (c : Cfg) (rate : Word) (p a : RealNum) :
    -(1 / 2) < (nextPhase c rate p a).real ∧ (nextPhase c rate p a).real ≤ 1 / 2 := wrapped_range _

/-! ### Power-off -/

/-- R199: all that the event power-off can do. -/
theorem powerOff_spec {s t : State} (h : powerOff s = .next t) : s.power ≠ .off ∧ t = { s with power := .closing } := by
  unfold powerOff at h
  split at h
  · cases h
  · rename_i hp
    cases h
    exact ⟨hp, rfl⟩

/-- R199: all that the steps of power-off can do. -/
theorem powerStep_spec {s t : State} (h : s.powerStep = some t) :
    s.power = .closing ∧ (s.runState = .idle ∧ t = s.closed ∨ s.runState = .running ∧ t = s.beginStop) := by
  unfold State.powerStep at h
  split at h
  · rename_i hp
    refine ⟨hp, ?_⟩
    split at h
    · rename_i hr
      cases h
      exact .inl ⟨hr, rfl⟩
    · rename_i hr
      cases h
      exact .inr ⟨hr, rfl⟩
    · cases h
    · cases h
  · cases h

/-- R199: when power-off takes no step by itself. -/
theorem powerStep_none {s : State} (h : s.power ≠ .closing ∨ s.runState = .starting ∨ s.runState = .stopping) :
    s.powerStep = none := by
  unfold State.powerStep
  split
  · rename_i hp
    rcases h with h | h | h
    · exact absurd hp h
    · rw [h]
    · rw [h]
  · rfl

/-! ### Where a step of PROD may be taken -/

/-- R191: all that `State.within` can do. -/
theorem within_spec {rows : List Ppos} {s t : State} {r : Res State} (h : s.within rows r = .next t) :
    s.ppos ∈ rows ∧ r = .ok t := by
  unfold State.within at h
  split at h
  · rename_i hp
    refine ⟨hp, ?_⟩
    rcases r with (_ | _) | _ <;> simp_all [Res.outcome]
  · cases h

/-- R191: at its rows it does what it does there. -/
@[simp] theorem within_of_mem {rows : List Ppos} {s : State} {r : Res State} (h : s.ppos ∈ rows) :
    s.within rows r = Res.outcome r := if_pos h

/-- R191: elsewhere it is no step. -/
@[simp] theorem within_of_not_mem {rows : List Ppos} {s : State} {r : Res State} (h : s.ppos ∉ rows) :
    s.within rows r = .refused .notEnabled := if_neg h

/-! ### INTERP -/

theorem interpolate_length (num : Num) (len : Nat) (l : RealNum) (inp : List RealNum) :
    (interpolate num len l inp).length = len := by simp [interpolate]

/-- R130: all that INTERP can do. -/
theorem interpOp_spec {s t : State} (h : interpOp s = .ok t) :
    ∃ c, s.currentChunk = some c ∧ 0 < s.sampleCount ∧
      s.subChunkOffset + s.sampleCount ≤ c.samples.length ∧
      t = { s with
        ibuf := interpolate s.cfg.num bufLen s.last.t3 (subChunkInput c s.subChunkOffset s.sampleCount)
        last := s.last.update (subChunkInput c s.subChunkOffset s.sampleCount) } := by
  unfold interpOp at h
  split at h
  · cases h
  · rename_i c hc
    split at h
    · cases h
    · rename_i hn
      refine ⟨c, hc, by omega, by omega, ?_⟩
      cases h
      rfl

/-- R130: when INTERP runs. -/
theorem interpOp_ok {s : State} {c : Chunk} (hc : s.currentChunk = some c) (h0 : 0 < s.sampleCount)
    (hle : s.subChunkOffset + s.sampleCount ≤ c.samples.length) :
    interpOp s = .ok { s with
        ibuf := interpolate s.cfg.num bufLen s.last.t3 (subChunkInput c s.subChunkOffset s.sampleCount)
        last := s.last.update (subChunkInput c s.subChunkOffset s.sampleCount) } := by
  unfold interpOp
  split
  · rename_i hn
    rw [hn] at hc
    cases hc
  · rename_i c' hc'
    have hcc : c = c' := Option.some.inj (hc.symm.trans hc')
    subst hcc
    rw [if_neg (by omega)]

/-! ### MODIQ -/

theorem fmPhases_length (c : Cfg) (rate : Word) (xs : List RealNum) :
    ∀ p, (fmPhases c rate p xs).length = xs.length := by
  induction xs with
  | nil => intro p; rfl
  | cons x xs ih => intro p; simp [fmPhases, ih]

theorem fmPhases_range (c : Cfg) (rate : Word) (xs : List RealNum) :
    ∀ p, ∀ q ∈ fmPhases c rate p xs, -(1 / 2) < q.real ∧ q.real ≤ 1 / 2 := by
  induction xs with
  | nil => intro p q h; simp [fmPhases] at h
  | cons x xs ih =>
    intro p q h
    simp only [fmPhases, List.mem_cons] at h
    rcases h with rfl | h
    · exact wrapped_range _
    · exact ih _ q h

/-- R143: in exact arithmetic each phase is the one before it, stepped and wrapped. -/
theorem fmPhases_getElem? (c : Cfg) (rate : Word) (hx : c.num = .exact) (xs : List RealNum) :
    ∀ (p : RealNum) (k : Nat), k < xs.length →
      (fmPhases c rate p xs)[k]?
        = some (wrapped (plus (if k = 0 then p else (fmPhases c rate p xs).getD (k - 1) (.rat 0))
            (times (stepTurns c.fmDeviationKHz rate) (clipGain .exact c.localGain (xs.getD k (.rat 0)))))) := by
  induction xs with
  | nil => intro p k h; simp at h
  | cons x xs ih =>
    intro p k h
    rcases k with _ | k
    · simp [fmPhases, nextPhase, hx]
    · have := ih (nextPhase c rate p (clipGain c.num c.localGain x)) k (by simpa using h)
      simp only [fmPhases, List.getElem?_cons_succ, this, List.getD_cons_succ]
      rcases k with _ | k <;> simp

theorem flatMap_two_length {α β : Type} {f : α → List β} (hf : ∀ a, (f a).length = 2) (xs : List α) :
    (xs.flatMap f).length = 2 * xs.length := by
  induction xs with
  | nil => rfl
  | cons x xs ih => rw [List.flatMap_cons, List.length_append, ih, hf, List.length_cons]; ring

/-- Element `2 k + j` of a sequence of pairs. -/
theorem flatMap_two_getElem? {α β : Type} {f : α → List β} (hf : ∀ a, (f a).length = 2) (xs : List α) :
    ∀ k j, j < 2 → (xs.flatMap f)[2 * k + j]? = (xs[k]?).bind (fun a => (f a)[j]?) := by
  induction xs with
  | nil => intro k j _; simp
  | cons x xs ih =>
    intro k j hj
    rw [List.flatMap_cons]
    rcases k with _ | k
    · rw [List.getElem?_append_left (by rw [hf]; omega)]
      simp
    · rw [List.getElem?_append_right (by rw [hf]; omega), hf,
        show 2 * (k + 1) + j - 2 = 2 * k + j by omega, ih k j hj]
      simp

theorem fmPair_length (num : Num) (p : RealNum) : (fmPair num p).length = 2 := by cases num <;> rfl

/-- R140: all that MODIQ can do. -/
theorem modiqOp_spec {s t : State} (h : modiqOp s = .ok t) :
    s.ibuf.length = bufLen ∧ t = { s with iq := t.iq, fmPhase := t.fmPhase } ∧
      t.iq.length = 2 * bufLen ∧
      (s.cfg.num = .exact → ∀ v ∈ t.iq, |v.real| ≤ 1) ∧
      (t.fmPhase = s.fmPhase ∨ -(1 / 2) < t.fmPhase.real ∧ t.fmPhase.real ≤ 1 / 2) ∧
      (s.cfg.am = true → t.fmPhase = s.fmPhase ∧ t.iq = s.ibuf.flatMap (amPair s.cfg)) ∧
      (s.cfg.am = false →
        t.iq = (fmPhases s.cfg s.deviceSampleRate s.fmPhase s.ibuf).flatMap (fmPair s.cfg.num) ∧
        t.fmPhase = (fmPhases s.cfg s.deviceSampleRate s.fmPhase s.ibuf).getLastD s.fmPhase) := by
  unfold modiqOp at h
  split at h
  · cases h
  rename_i hlen
  rw [not_not] at hlen
  refine ⟨hlen, ?_⟩
  split at h
  · rename_i ham
    cases h
    refine ⟨rfl, ?_, ?_, .inl rfl, fun _ => ⟨rfl, rfl⟩, fun h => by rw [ham] at h; cases h⟩
    · show (List.flatMap _ _).length = _
      rw [flatMap_two_length (fun _ => rfl), hlen]
    · intro _ v hv
      obtain ⟨x, _, hx⟩ := List.mem_flatMap.mp hv
      simp only [amPair, List.mem_cons, List.not_mem_nil, or_false] at hx
      rcases hx with rfl | rfl
      · exact abs_le.mpr (clipGain_range _ _ _)
      · simp
  · rename_i ham
    cases h
    refine ⟨rfl, ?_, ?_, ?_, fun h => absurd h ham, fun _ => ⟨rfl, rfl⟩⟩
    · show (List.flatMap _ _).length = _
      rw [flatMap_two_length (fmPair_length _), fmPhases_length, hlen]
    · intro hn v hv
      obtain ⟨x, _, hx⟩ := List.mem_flatMap.mp hv
      simp only [fmPair, hn, List.mem_cons, List.not_mem_nil, or_false] at hx
      rcases hx with rfl | rfl
      · exact Real.abs_sin_le_one _
      · exact Real.abs_cos_le_one _
    · simp only
      rcases hl : fmPhases s.cfg s.deviceSampleRate s.fmPhase s.ibuf with _ | ⟨y, ys⟩
      · left; rfl
      · right
        have hm : (y :: ys).getLastD s.fmPhase ∈ y :: ys := by
          rw [List.getLastD_cons]
          rw [List.getLastD_eq_getLast?]
          rcases hys : ys.getLast? with _ | z
          · simp
          · simp [List.mem_of_getLast? hys]
        rw [← hl] at hm ⊢
        exact fmPhases_range _ _ _ _ _ hm

/-- R140: when MODIQ runs. -/
theorem modiqOp_ok {s : State} (h : s.ibuf.length = bufLen) : ∃ t, modiqOp s = .ok t := by
  unfold modiqOp
  rw [if_neg (by simpa using h)]
  split <;> exact ⟨_, rfl⟩

/-! ### PREPARE -/

/-- R163: all that setting the device rate can do. -/
theorem setDeviceRate_spec {new : Int} {s t : State} (h : setDeviceRate new s = .ok t) :
    new ≤ 4294967295 ∧
      t = { s with
        deviceSampleRate := BitVec.ofInt 32 new
        devLog := if BitVec.ofInt 32 new = s.deviceSampleRate then s.devLog
          else s.devLog ++ [.setSampleRate (BitVec.ofInt 32 new) bbFilterHz] } := by
  unfold setDeviceRate at h
  split at h
  · cases h
  · rename_i hn
    refine ⟨by omega, ?_⟩
    simp only at h
    split at h
    · rename_i he
      cases h
      rw [if_pos he, he]
    · rename_i he
      cases h
      rw [if_neg he]
      rfl

theorem ofInt_ne_zero {n : Int} (h1 : 1 ≤ n) (h2 : n ≤ 4294967295) : BitVec.ofInt 32 n ≠ 0#32 := by
  intro h
  have h3 := congrArg BitVec.toNat h
  simp at h3
  omega

theorem subChunkInput_length {c : Chunk} {o n : Nat} (h : o + n ≤ c.samples.length) :
    (subChunkInput c o n).length = n := by
  unfold subChunkInput
  rw [List.length_take, List.length_drop]
  omega

/-- R162: all that PREPARE can do. -/
theorem prepareOp_spec {s : State} {r : Bool × State} (h : prepareOp s = .ok r) :
    ∃ c, s.currentChunk = some c ∧
      ((c.samples.length ≤ s.subChunkOffset ∧ r = (false, s.setProdRet (.bool false))) ∨
       (s.subChunkOffset < c.samples.length ∧
        ∃ t count, r = (true, t) ∧
          count = min s.cfg.subChunkSamples (c.samples.length - s.subChunkOffset) ∧ 0 < count ∧
          deviceRate c.pcmRate count ≤ 4294967295 ∧
          t = { s with
            sampleCount := count
            deviceSampleRate := BitVec.ofInt 32 (deviceRate c.pcmRate count)
            devLog := if BitVec.ofInt 32 (deviceRate c.pcmRate count) = s.deviceSampleRate then s.devLog
              else s.devLog ++
                [.setSampleRate (BitVec.ofInt 32 (deviceRate c.pcmRate count)) bbFilterHz]
            ibuf := interpolate s.cfg.num bufLen s.last.t3 (subChunkInput c s.subChunkOffset count)
            last := s.last.update (subChunkInput c s.subChunkOffset count)
            iq := t.iq
            fmPhase := t.fmPhase
            subChunkOffset := s.subChunkOffset + count
            prepared := true
            prodRet := .bool true } ∧
          t.iq.length = 2 * bufLen ∧
          (s.cfg.num = .exact → ∀ v ∈ t.iq, |v.real| ≤ 1) ∧
          (t.fmPhase = s.fmPhase ∨ -(1 / 2) < t.fmPhase.real ∧ t.fmPhase.real ≤ 1 / 2) ∧
          (s.cfg.am = true → t.fmPhase = s.fmPhase))) := by
  unfold prepareOp at h
  split at h
  · cases h
  rename_i c hc
  refine ⟨c, hc, ?_⟩
  split at h
  · rename_i hlen
    cases h
    exact .inl ⟨hlen, rfl⟩
  · rename_i hlen
    refine .inr ⟨by omega, ?_⟩
    simp only at h
    rcases h1 : setDeviceRate (deviceRate c.pcmRate
        (min s.cfg.subChunkSamples (c.samples.length - s.subChunkOffset)))
        { s with sampleCount := min s.cfg.subChunkSamples (c.samples.length - s.subChunkOffset) }
      with e | s1
    · rw [h1] at h; cases h
    rcases h2 : interpOp s1 with e | s2
    · rw [h1] at h
      simp only [bind, Except.bind] at h
      rw [h2] at h; cases h
    rcases h3 : modiqOp s2 with e | s3
    · rw [h1] at h
      simp only [bind, Except.bind] at h
      rw [h2] at h
      simp only at h
      rw [h3] at h; cases h
    rw [h1] at h
    simp only [bind, Except.bind] at h
    rw [h2] at h
    simp only at h
    rw [h3] at h
    cases h
    obtain ⟨hle, hs1⟩ := setDeviceRate_spec h1
    obtain ⟨c', hc', h0, hoff, hs2⟩ := interpOp_spec h2
    obtain ⟨_, hs3, hiq, hrange, hph, ham, _⟩ := modiqOp_spec h3
    have hcc : c' = c := by
      rw [hs1] at hc'
      simp only at hc'
      rw [hc] at hc'
      exact (Option.some.inj hc').symm
    subst hcc
    rw [hs1] at h0
    simp only at h0
    clear h1 h2 h3 hc' hoff
    generalize s3.iq = A at *
    generalize s3.fmPhase = B at *
    subst hs3 hs2 hs1
    refine ⟨_, _, rfl, rfl, h0, hle, ?_, hiq, hrange, hph, fun h => (ham h).1⟩
    simp only [State.setProdRet, State.setPrepared]

/-- R162, R163: when PREPARE runs. -/
theorem prepareOp_ok {s : State} {c : Chunk} (hc : s.currentChunk = some c)
    (hs : 1 ≤ s.cfg.subChunkSamples ∧ s.cfg.subChunkSamples ≤ bufLen)
    (hr : s.subChunkOffset < c.samples.length →
      deviceRate c.pcmRate (min s.cfg.subChunkSamples (c.samples.length - s.subChunkOffset)) ≤ 4294967295) :
    ∃ r, prepareOp s = .ok r := by
  unfold prepareOp
  split
  · rename_i hn
    rw [hn] at hc
    cases hc
  rename_i c' hc'
  have hcc : c = c' := Option.some.inj (hc.symm.trans hc')
  subst hcc
  split
  · exact ⟨_, rfl⟩
  · rename_i hlen
    have hr := hr (by omega)
    obtain ⟨count, hcount⟩ :
      ∃ n, n = min s.cfg.subChunkSamples (c.samples.length - s.subChunkOffset) := ⟨_, rfl⟩
    rw [← hcount] at hr ⊢
    have h0 : 0 < count := by omega
    have hle : s.subChunkOffset + count ≤ c.samples.length := by omega
    have h1 : ∃ s1, setDeviceRate (deviceRate c.pcmRate count) { s with sampleCount := count } = .ok s1 := by
      unfold setDeviceRate
      rw [if_neg (by omega)]
      simp only
      split <;> exact ⟨_, rfl⟩
    obtain ⟨s1, h1⟩ := h1
    obtain ⟨_, hs1⟩ := setDeviceRate_spec h1
    have hc1 : s1.currentChunk = some c := by rw [hs1]; exact hc
    obtain ⟨s2, h2⟩ : ∃ s2, interpOp s1 = .ok s2 :=
      ⟨_, interpOp_ok (s := s1) hc1 (by rw [hs1]; exact h0) (by rw [hs1]; exact hle)⟩
    obtain ⟨_, _, _, _, hs2⟩ := interpOp_spec h2
    have hlen2 : s2.ibuf.length = bufLen := by
      rw [hs2]
      simp only [interpolate_length]
    obtain ⟨s3, h3⟩ := modiqOp_ok hlen2
    clear hs2 hs1
    simp only
    rw [h1]
    simp only [bind, Except.bind]
    rw [h2]
    simp only
    rw [h3]
    exact ⟨_, rfl⟩

/-! ### PUBLISH and DRAIN -/

theorem iqHalf_length {iq : List RealVal} (h : iq.length = 2 * bufLen) (k : Fin 2) :
    (iqHalf k iq).length = bufLen := by
  unfold iqHalf
  rw [List.length_take, List.length_drop, h]
  have hk : k.val = 0 ∨ k.val = 1 := by omega
  rcases hk with hk | hk <;> rw [hk] <;> omega

/-- R150: all that PUBLISH can do. -/
theorem publishOp_spec {h : Fin 2} {s t : State} (hp : publishOp h s = .ok t) :
    s.fill ≠ bufNum ∧ s.iq.length = 2 * bufLen ∧
      t = { s with
        ring := Memory.write s.ring (slotBase s.head) ((iqHalf h s.iq).map (quantByte s.cfg.num))
        head := s.head + 1#8
        fill := s.fill + 1
        ready := false
        prepared := if h = 1 then false else s.prepared } := by
  unfold publishOp at hp
  split at hp
  · cases hp
  rename_i hf
  split at hp
  · cases hp
  rename_i hi
  rw [not_not] at hi
  refine ⟨hf, hi, ?_⟩
  cases hp
  split <;> rfl

/-- R150: when PUBLISH runs. -/
theorem publishOp_ok {h : Fin 2} {s : State} (hf : s.fill ≠ bufNum) (hi : s.iq.length = 2 * bufLen) :
    publishOp h s = .ok { s with
        ring := Memory.write s.ring (slotBase s.head) ((iqHalf h s.iq).map (quantByte s.cfg.num))
        head := s.head + 1#8
        fill := s.fill + 1
        ready := false
        prepared := if h = 1 then false else s.prepared } := by
  unfold publishOp
  rw [if_neg hf, if_neg (by simpa using hi)]
  simp only
  split <;> rfl

/-- R152 to R154: all that DRAIN can do. -/
theorem drainOp_spec {len : Word} {s t : State} (h : drainOp len s = .ok t) :
    len.toNat ≤ slotCap ∧
      ((s.fill = 0 ∧
          t = { s with dst := List.replicate len.toNat 0#8, consRet := .callback 0#32 }) ∨
       (s.fill ≠ 0 ∧ ∃ bs, Memory.readMany s.ring (slotBase s.tail) (min len.toNat bufLen) = some bs ∧
          t = { s with
            dst := bs ++ s.freeBytes (len.toNat - bufLen)
            consRet := .callback 0#32
            draws := s.draws + (len.toNat - bufLen)
            tail := s.tail + 1#8
            fill := s.fill - 1
            ready := if s.fill - 1 = 0 then true else s.ready })) := by
  unfold drainOp at h
  split at h
  · cases h
  rename_i hl
  refine ⟨by omega, ?_⟩
  split at h
  · rename_i h0
    cases h
    exact .inl ⟨h0, rfl⟩
  · rename_i h0
    split at h
    · cases h
    · rename_i bs hbs
      cases h
      exact .inr ⟨h0, bs, hbs, rfl⟩

/-- R152, R153: when DRAIN runs. -/
theorem drainOp_ok {len : Word} {s : State} (hl : len.toNat ≤ slotCap)
    (hw : s.fill ≠ 0 → ∀ a, a < min len.toNat bufLen →
      (Memory.read s.ring (slotBase s.tail + a)).isSome) : ∃ t, drainOp len s = .ok t := by
  unfold drainOp
  rw [if_neg (by omega)]
  split
  · exact ⟨_, rfl⟩
  · rename_i h0
    obtain ⟨bs, hbs⟩ := Memory.readMany_isSome (hw h0)
    rw [hbs]
    exact ⟨_, rfl⟩

/-! ### ADOPT -/

/-- R161: all that ADOPT can do. -/
theorem adoptOp_spec (s : State) :
    (s.txQueue = [] ∧ adoptOp s = { s with emptyQueue := true, prodRet := .bool false }) ∨
    (∃ c q, s.txQueue = c :: q ∧
      ((c.samples = [] ∧
          adoptOp s = { s with
            txQueue := q
            emptyQueue := false
            currentChunk := none
            subChunkOffset := 0
            fmPhase := .rat 0
            prepared := false
            prodRet := .bool true }) ∨
       (∃ x xs, c.samples = x :: xs ∧
          adoptOp s = { s with
            txQueue := q
            emptyQueue := false
            currentChunk := some c
            subChunkOffset := 0
            fmPhase := .rat 0
            prepared := false
            last := ⟨x, x, x, x⟩
            prodRet := .bool true }))) := by
  unfold adoptOp
  split
  · rename_i hq
    exact .inl ⟨hq, rfl⟩
  · rename_i c q hq
    refine .inr ⟨c, q, hq, ?_⟩
    unfold State.adoptChunk
    split
    · rename_i hs
      exact .inl ⟨hs, rfl⟩
    · rename_i x xs hs
      exact .inr ⟨x, xs, hs, rfl⟩

end Sys2Proof.Machine
end

