-- ==== Sys2Proof/Tests/Slice0.lean ====
section
/-! SUPPORT. Tests of the model, each expected value from the section of spec/ that it names, and for every
statement with hypotheses a concrete state and operands that meet them. -/

namespace Sys2Proof.Tests

-- The many small kernel evaluations below wait for one another; one thread is enough for them.
set_option Elab.async false

open Sys2Proof Sys2Proof.Machine

/-! ### WellFormed: an ill-formed term for each check -/

/-- 30_encoding.md R66: an ADDRESS row that is the sync word. -/
theorem test_address_that_is_sync_refused :
    (Instr.address 0x3E690#18 2#2 0x2EC#10 0#1).wellFormed = false := by decide

/-- R66: an ADDRESS row that is the idle word. -/
theorem test_address_that_is_idle_refused :
    (Instr.address 0x3D44E#18 0#2 0x0CB#10 1#1).wellFormed = false := by decide

/-- R80: more than 32 bits cannot be expressed. -/
theorem test_revbits_33_refused : (Instr.revbits 0#32 33).wellFormed = false := by decide

/-- R102: `maxBits` is the buffer's length. -/
theorem test_mkmsg_maxBits_refused : (Instr.mkmsg [true] 0 2 false).wellFormed = false := by decide

/-- R24: a PCM rate is positive. -/
theorem test_push_rate_zero_refused : (Instr.push ⟨[], 0⟩).wellFormed = false := by decide

/-- Log 4: a sum is computed, never issued. -/
theorem test_real_operands_refused : (Instr.quant (.num (.add (.named 0) (.rat 1)))).wellFormed = false ∧
    (Instr.push ⟨[.clip (.named 0)], 1⟩).wellFormed = false ∧
    (Instr.setcfg (.gain (.mul (.named 0) (.rat 2)))).wellFormed = false := by decide

/-! ### Decode: a word for every row, written out from 30_encoding.md R61 to R66 and R62 -/

/-- The operation of some bytes at the port. -/
def op (bytes : List Byte) : Except DecodeError Instr := decode (.op bytes)

theorem test_decode_sync :
    decodeTableWord 32 0x7CD215D8 = some .sync := by decide +kernel

theorem test_decode_idle :
    decodeTableWord 32 0x7A89C197 = some .idle := by decide +kernel

theorem test_decode_message :
    decodeTableWord 32 0b10001001101000100110001101001101 =
      some (.message 0b00010011010001001100#20 0b0110100110#10 1#1) := by decide +kernel

theorem test_decode_address :
    decodeTableWord 32 0b01001011010110100001101000100101 =
      some (.address 0b100101101011010000#18 0b11#2 0b0100010010#10 1#1) := by decide +kernel

theorem test_decode_revbits :
    op [0x01#8, 0x78#8, 0x56#8, 0x34#8, 0x12#8, 16#8] = .ok (.revbits 0x12345678#32 16) := by decide +kernel

theorem test_decode_bchrem :
    op [0x02#8, 0x00#8, 0x20#8, 0x00#8, 0x00#8] = .ok (.bchrem 0x2000#32) := by decide +kernel

theorem test_decode_parity :
    op [0x03#8, 0xD2#8, 0x0E#8, 0x00#8, 0x00#8] = .ok (.parity 0xED2#32) := by decide +kernel

theorem test_decode_sign :
    op [0x04#8, 0x00#8, 0x10#8, 0xD2#8, 0x7C#8] = .ok (.sign 0x7CD21000#32) := by decide +kernel

theorem test_decode_emit32le :
    op [0x05#8, 1#8, 0xAA#8, 0x78#8, 0x56#8, 0x34#8, 0x12#8] = .ok (.emit32le [0xAA#8] 0x12345678#32) := by decide +kernel

theorem test_decode_read32le :
    op [0x06#8, 4#8, 0x97#8, 0xC1#8, 0x89#8, 0x7A#8, 0#8] =
      .ok (.read32le [0x97#8, 0xC1#8, 0x89#8, 0x7A#8] 0) := by decide +kernel

theorem test_decode_recodeRaw :
    op [0x08#8, 2#8, 0x41#8, 0x0D#8] = .ok (.recodeRaw [0x41#8, 0x0D#8]) := by decide +kernel

theorem test_decode_recodeLatin :
    op [0x09#8, 1#8, 0x55#8] = .ok (.recodeLatin [0x55#8]) := by decide +kernel

theorem test_decode_recodeCyr :
    op [0x0A#8, 0#8] = .ok (.recodeCyr []) := by decide +kernel

theorem test_decode_buildNum :
    op [0x0B#8, 1#8, 0x31#8] = .ok (.buildNum [0x31#8]) := by decide +kernel

theorem test_decode_buildAlpha :
    op [0x0C#8, 1#8, 0x41#8] = .ok (.buildAlpha [0x41#8]) := by decide +kernel

theorem test_decode_mkaddr :
    op [0x10#8, 0x87#8, 0xD6#8, 0x12#8, 0x00#8, 3#8] = .ok (.mkaddr 1234567#21 3#2) := by decide +kernel

theorem test_decode_mkmsg :
    op [0x11#8, 2#8, 1#8, 0#8, 20#8, 2#8, 1#8] = .ok (.mkmsg [true, false] 20 2 true) := by decide +kernel

theorem test_decode_mkidle :
    decodeTableWord 8 0x12 = some .mkidle := by decide +kernel

theorem test_decode_mksync :
    decodeTableWord 8 0x13 = some .mksync := by decide +kernel

theorem test_decode_encode :
    op [0x18#8, 100#8, 2#8, 1#8, 0x41#8, 1#8, 1#8, 3#8, 0#8] =
      .ok (.encode 100 .alphanumeric [0x41#8] .b1200 .latin 3#2 true) := by decide +kernel

theorem test_decode_fskmod :
    op [0x20#8, 1#8, 0xAA#8, 2#8] = .ok (.fskmod [0xAA#8] .b2400) := by decide +kernel

theorem test_decode_interp :
    decodeTableWord 8 0x28 = some .interp := by decide +kernel

theorem test_decode_modiq :
    decodeTableWord 8 0x30 = some .modiq := by decide +kernel

theorem test_decode_quant :
    op [0x38#8, 1#8, 0#8, 1#8, 3#8, 7#8] = .ok (.quant (.sinTurns (.rat (-3 / 8)))) := by decide +kernel

theorem test_decode_publish :
    op [0x39#8, 1#8] = .ok (.publish 1) := by decide +kernel

theorem test_decode_drain :
    op [0x3A#8, 0x00#8, 0x00#8, 0x04#8, 0x00#8] = .ok (.drain 262144#32) := by decide +kernel

theorem test_decode_push :
    op [0x40#8, 3#8, 0#8, 0#8, 1#8, 1#8, 0#8, 1#8, 3#8, 1#8, 1#8, 7#8, 0xBF#8, 0x3E#8] =
      .ok (.push ⟨[.rat (1 / 2), .rat (-3 / 2), .named 7], 8000⟩) := by decide +kernel

theorem test_decode_adopt :
    decodeTableWord 8 0x41 = some .adopt := by decide +kernel

theorem test_decode_prepare :
    decodeTableWord 8 0x42 = some .prepare := by decide +kernel

theorem test_decode_process :
    decodeTableWord 8 0x43 = some .process := by decide +kernel

theorem test_decode_start :
    decodeTableWord 8 0x44 = some .start := by decide +kernel

theorem test_decode_stop :
    decodeTableWord 8 0x45 = some .stop := by decide +kernel

theorem test_decode_setcfg :
    op [0x46#8, 5#8, 0x00#8, 0x18#8, 0xDD#8, 0x19#8, 0x00#8, 0x00#8, 0x00#8, 0x00#8] =
      .ok (.setcfg (.frequency 433920000#64)) := by decide +kernel

theorem test_decode_isidle :
    decodeTableWord 8 0x47 = some .isidle := by decide +kernel

theorem test_decode_waitend :
    op [0x48#8, 0x90#8, 0x4E#8] = .ok (.waitend 10000) := by decide +kernel

theorem test_decode_waitidle :
    op [0x49#8, 5#8] = .ok (.waitidle 5) := by decide +kernel

/-- R62: 0x07 names no operation. -/
theorem test_decode_unlisted : op [0x07#8] = .error .unknownSelector := by decide

theorem test_decode_truncated : op [0x04#8, 0#8] = .error .truncated := by decide

theorem test_decode_trailing : op [0x12#8, 1#8] = .error .trailingBytes := by decide

/-! ### One step -/

/-- The next state, if there is one. -/
def after (o : Host.Outcome State Fault Refusal) : Option State :=
  match o with
  | .next t => some t
  | _ => none

/-- Why there is no next state. -/
def stopOf (o : Host.Outcome State Fault Refusal) : Option (Fault ⊕ Refusal) :=
  match o with
  | .next _ => none
  | .fault f => some (.inl f)
  | .refused r => some (.inr r)

/-- Samples that are rational. -/
def rats (qs : List Rat) : List RealNum := qs.map RealNum.rat

/-- What HOST or ENC is given. -/
def ret (i : Instr) : Option Ret := (after (exec i State.reset)).map State.hostRet

/-- Reset, with PROD at a position and a run state. -/
def posed (p : Ppos) (r : RunState) : State := { State.reset with ppos := p, runState := r }

/-- R13, R33: the row reads no register. -/
theorem test_sync_row : (after (exec .sync { State.reset with enc := { Enc.reset with out := [1#8] } })).map
    (fun t => t.enc.out) =
    some [0xD8#8, 0x15#8, 0xD2#8, 0x7C#8] := by decide +kernel

theorem test_idle_row : (after (exec .idle State.reset)).map (fun t => t.enc.out) =
    some [0x97#8, 0xC1#8, 0x89#8, 0x7A#8] := by decide +kernel

/-- 95_test_vectors.md 2.3, "HELLO" at offset 0; the row's own check bits are not read (log 3). -/
theorem test_message_row : ret (.message 0x1344C#20 0#10 0#1) = some (.word 0x89A2634D#32) := by
  decide +kernel

/-- 42_codewords.md R100. -/
theorem test_address_row : ret (.address 0x25AD0#18 3#2 0#10 0#1) = some (.word 0x4B5A1A25#32) := by
  decide +kernel

/-- 95_test_vectors.md 2.1. -/
theorem test_revbits_16 : ret (.revbits 0x12345678#32 16) = some (.word 0x1E6A#32) := by decide +kernel

theorem test_revbits_32 : ret (.revbits 0x7CD215D8#32 32) = some (.word 0x1BA84B3E#32) := by decide +kernel

/-- 95_test_vectors.md 2.1. -/
theorem test_bchrem_one_bit : ret (.bchrem 0x2000#32) = some (.word 0x6EC#32) := by decide +kernel

theorem test_bchrem_all_bits : ret (.bchrem 0xFFFFF800#32) = some (.word 0x7FE#32) := by decide +kernel

/-- 95_test_vectors.md 2.1. -/
theorem test_parity_odd : ret (.parity 0xED2#32) = some (.word 0xED3#32) := by decide +kernel

theorem test_parity_even : ret (.parity 0x7CD215D8#32) = some (.word 0x7CD215D8#32) := by decide +kernel

/-- 95_test_vectors.md 2.1. -/
theorem test_sign_sync : ret (.sign 0x7CD21000#32) = some (.word 0x7CD215D8#32) := by decide +kernel

theorem test_sign_low_bits : stopOf (exec (.sign 0x7CD215D8#32) State.reset) = some (.inr .signLowBitsSet) := by
  decide +kernel

/-- 95_test_vectors.md 2.1. -/
theorem test_emit32le : ret (.emit32le [0xD8#8] 0x26EC#32) =
    some (.bytes [0xD8#8, 0xEC#8, 0x26#8, 0#8, 0#8]) := by decide +kernel

/-- 95_test_vectors.md 2.1: no alignment is needed. -/
theorem test_read32le_unaligned :
    ret (.read32le [0xD8#8, 0x15#8, 0xD2#8, 0x7C#8, 0xEC#8, 0x26#8, 0#8, 0#8] 2) =
      some (.word 0x26EC7CD2#32) := by decide +kernel

theorem test_read32le_past_end :
    stopOf (exec (.read32le [0xD8#8, 0x15#8, 0xD2#8, 0x7C#8] 1) State.reset) = some (.inl .streamReadPastEnd) := by
  decide +kernel

/-- 95_test_vectors.md 2.2. -/
theorem test_recodeRaw : ret (.recodeRaw [0#8, 0xFF#8, 0x0D#8, 0x5B#8]) =
    some (.bytes [0#8, 0xFF#8, 0x0D#8, 0x5B#8]) := by decide +kernel

/-- 41_message_buffer.md R91. -/
theorem test_recodeLatin_substitutes :
    ret (.recodeLatin [0x5B#8, 0x55#8, 0x5D#8, 0x0D#8, 0x0A#8, 0x7E#8, 0x7F#8, 0x19#8]) =
      some (.bytes [0x1F#8, 0x1B#8, 0x1E#8, 0x0A#8, 0x7E#8, 0x3F#8, 0x3F#8]) := by decide +kernel

/-- 95_test_vectors.md 2.2. -/
theorem test_recodeLatin_edges : ret (.recodeLatin [0x19#8, 0x1A#8, 0x80#8, 0x75#8, 0x09#8]) =
    some (.bytes [0x3F#8, 0x1A#8, 0x3F#8, 0x75#8, 0x3F#8]) := by decide +kernel

theorem test_recodeCyr : stopOf (exec (.recodeCyr []) State.reset) = some (.inr .cyrillicTableMissing) := by
  decide +kernel

/-- 95_test_vectors.md 2.2, every non-digit of the map. -/
theorem test_buildNum_map :
    (after (exec (.buildNum [0x2A#8, 0x55#8, 0x75#8, 0x20#8, 0x0A#8, 0x2D#8, 0x29#8, 0x5D#8, 0x28#8, 0x5B#8])
      State.reset)).map (fun t => (t.enc.mbuf.map Bool.toNat, t.enc.maxBits)) =
    some ([0,1,0,1, 1,1,0,1, 1,1,0,1, 0,0,1,1, 0,0,1,1, 1,0,1,1, 0,1,1,1, 0,1,1,1, 1,1,1,1, 1,1,1,1],
      40) := by decide +kernel

/-- 95_test_vectors.md 2.2, "12.5". -/
theorem test_buildNum_unmapped : ret (.buildNum [0x31#8, 0x32#8, 0x2E#8, 0x35#8]) =
    some (.raised (.unmappedNumericChar 2 0x2E#8)) := by decide +kernel

/-- 95_test_vectors.md 2.2, a zero byte in the middle. -/
theorem test_buildAlpha_terminator :
    (after (exec (.buildAlpha [0#8, 0x42#8]) State.reset)).map (fun t => (t.enc.mbuf.map Bool.toNat,
      t.enc.maxBits)) = some ([0,0,0,0,0,0,0, 0,1,0,0,0,0,1, 0,0,0,0,0,0,0], 21) := by decide +kernel

theorem test_buildAlpha_no_terminator :
    (after (exec (.buildAlpha [0x41#8, 0x80#8]) State.reset)).map (fun t => t.enc.maxBits) = some 14 := by
  decide +kernel

/-- 42_codewords.md R100. -/
theorem test_mkaddr : ret (.mkaddr 1234567#21 3#2) = some (.word 0x4B5A1A25#32) := by decide +kernel

/-- 95_test_vectors.md 2.3, function 1. -/
theorem test_mkaddr_function : ret (.mkaddr 15#21 1#2) = some (.word 0x283F#32) := by decide +kernel

/-- 95_test_vectors.md 2.3, numeric "0": one cell and sixteen pad bits. -/
theorem test_mkmsg_numeric_pad : ret (.mkmsg [false, false, false, false] 0 4 true) =
    some (.codeword 0x81999B01#32 20) := by decide +kernel

/-- 95_test_vectors.md 2.3, exhausted: idle, and the offset stays. -/
theorem test_mkmsg_exhausted : ret (.mkmsg [true] 1 1 true) = some (.codeword 0x7A89C197#32 1) := by
  decide +kernel

theorem test_mkidle : ret .mkidle = some (.word 0x7A89C197#32) := by decide +kernel

theorem test_mksync : ret .mksync = some (.word 0x7CD215D8#32) := by decide +kernel

/-- Bytes of the stream from an offset on. -/
def streamAt (a n : Nat) (o : Host.Outcome State Fault Refusal) : Option (List Byte × Nat) :=
  match (after o).map State.hostRet with
  | some (.stream v count) => some ((v.drop a).take n, count)
  | _ => none

/-- 95_test_vectors.md 3.1, "HELLO" to 100. -/
theorem test_encode_hello : streamAt 104 24 (exec (.encode 100 .alphanumeric
      [0x48#8, 0x45#8, 0x4C#8, 0x4C#8, 0x4F#8] .b1200 .latin 0#2 true) State.reset) =
    some ([0x97#8, 0xC1#8, 0x89#8, 0x7A#8, 0xEF#8, 0x84#8, 0x01#8, 0x00#8, 0x4D#8, 0x63#8, 0xA2#8, 0x89#8,
      0xDE#8, 0x05#8, 0xF9#8, 0xCC#8, 0x69#8, 0x07#8, 0x00#8, 0x80#8, 0x97#8, 0xC1#8, 0x89#8, 0x7A#8],
      1120) := by decide +kernel

/-- 95_test_vectors.md 2.10: a Tone message to 7 takes two batches, and MAX_BATCHES is 1 here. -/
theorem test_encode_two_batches : ret (.encode 7 .tone [] .b512 .raw 3#2 true) =
    some (.raised (.maxBatchesExceeded 2)) := by decide +kernel

/-- 43_batch_assembly.md R110, R111: the address is any natural number. -/
theorem test_encode_address : ret (.encode 4294967296 .tone [] .b512 .raw 0#2 true) =
    some (.raised (.addressOutOfRange 4294967296)) := by decide +kernel

/-- 44_fsk_modulator.md R120: a stream of 71 bytes. -/
theorem test_fskmod_short : stopOf (exec (.fskmod (List.replicate 71 0xAA#8) .b1200) State.reset) = some (.inr .fskBadLength) := by decide +kernel

/-- 44_fsk_modulator.md R126 at 2400 and 2400: 2400 samples of silence and 8 × 72 bits of one sample. -/
theorem test_fskmod_length : (after (exec (.fskmod (List.replicate 72 0xAA#8) .b2400)
      { State.reset with cfg := { Cfg.reset with fskSampleRate := 2400 } })).map
      (fun t => (t.enc.samplesPerBit, t.enc.pcm.length)) = some (1, 2976) := by decide +kernel

/-- 95_test_vectors.md 2.6 (a) and (b). -/
theorem test_interp_samples :
    [interpSample .exact bufLen (.rat (1 / 2)) (rats [1 / 2, 1, -1 / 2, 0]) 65536,
      interpSample .exact bufLen (.rat (1 / 2)) (rats [1 / 2, 1, -1 / 2, 0]) 262142,
      interpSample .exact bufLen (.rat 0) (rats [1 / 4, -3 / 2]) 0,
      interpSample .exact bufLen (.rat 0) (rats [1 / 4, -3 / 2]) 224694,
      interpSample .exact bufLen (.rat 0) (rats [1 / 4, -3 / 2]) 262143] =
    rats [65537 / 131072, -1 / 131072, 1 / 524288, -524289 / 524288, -3 / 2] := by decide +kernel

/-- 95_test_vectors.md 2.6 (b): a short sub-chunk is shifted into the tail. -/
theorem test_interp_tail :
    Tail.update ⟨.rat (1 / 2), .rat 1, .rat (-1 / 2), .rat 0⟩ (rats [1 / 4, -3 / 2]) =
      ⟨.rat (-1 / 2), .rat 0, .rat (1 / 4), .rat (-3 / 2)⟩ := by decide +kernel

/-- 95_test_vectors.md 2.7: constant -1 at 5,644,800 Hz wraps at sample 38; in turns, 38 × 75000 / 5644800. At
600,000 Hz four samples of 1 reach exactly +π, which stays. -/
theorem test_modiq_wraps :
    ((fmPhases { Cfg.reset with localGain := .rat 1 } 5644800#32 (.rat 0) (rats (List.replicate 38 (-3))))[37]?).map
      (fun p => (quantInt .exact (.sinTurns p), quantInt .exact (.cosTurns p))) = some (4, -127) ∧
    fmPhases { Cfg.reset with localGain := .rat 1 } 600000#32 (.rat 0) (rats [1, 1, 1, 1, 1]) =
      rats [1 / 8, 1 / 4, 3 / 8, 1 / 2, -3 / 8] := by
  decide +kernel

/-- 60_exceptions.md R191: in Idle PROD has no steps, whatever `ibuf` holds. -/
theorem test_modiq_idle :
    exec .modiq { State.reset with ibuf := List.replicate 262144 (.rat 0) } = .refused .notEnabled := rfl

/-- 47_quantizer_ring.md R148 and 95_test_vectors.md 2.8: ties away from zero, the sine of π/6 among them, what
lies just beside it, and saturation. -/
theorem test_quant_rounds :
    [1 / 2, -1 / 2, 3 / 4, 2, -2, -65535 / 131072].map (fun q => quantInt .exact (.num (.rat q))) =
      [64, -64, 95, 127, -128, -63] ∧
    [1 / 12, 1 / 12 + 1 / 10 ^ 15, 1 / 12 - 1 / 10 ^ 15, 3 / 4].map
      (fun t => quantInt .exact (.sinTurns (.rat t))) = [64, 64, 63, -127] ∧
    [1 / 3, 1 / 3 + 1 / 10 ^ 15, 1 / 3 - 1 / 10 ^ 15].map
      (fun t => quantInt .exact (.cosTurns (.rat t))) = [-64, -64, -63] := by decide +kernel

/-- R10, R148: QUANT of π/4, given under a name, is 100: 127 π/4 is 99.7. It is a step of row Pub0, and in Idle
PROD has no step (R191). -/
theorem test_quant_pi_quarter (h : Config.namedReal 0 = Real.pi / 4) :
    exec (.quant (.num (.named 0))) (posed .pub0 .running) =
      .next { posed .pub0 .running with prodRet := .sample 100#8 } ∧
    exec (.quant (.num (.named 0))) State.reset = .refused .notEnabled := by
  have hr : IsRound 100 ((RealVal.num (.named 0)).real * 127) := by
    have h1 := Real.pi_gt_d2
    have h2 := Real.pi_lt_d2
    left
    rw [RealVal.real_num, RealNum.real_named, h, abs_lt]
    constructor <;> push_cast <;> linarith
  have hq : quantByte .exact (.num (.named 0)) = 100#8 := by
    show BitVec.ofInt 8 (clampInt (roundAny (.num (.named 0))) (-128) 127) = 100#8
    rw [roundAny_eq hr]
    decide
  exact ⟨congrArg (fun b => Host.Outcome.next ((posed .pub0 .running).setProdRet (.sample b))) hq, rfl⟩

/-- 47_quantizer_ring.md R155. -/
theorem test_publish_full : stopOf (exec (.publish 0) { posed .pub0 .running with fill := 256 }) = some (.inr .ringFull) := by decide +kernel

/-- 48_sequencer.md R166: PUBLISH 1 is the step of row Pub1 only. -/
theorem test_publish_elsewhere : stopOf (exec (.publish 1) (posed .pub0 .running)) = some (.inr .notEnabled) := by
  decide +kernel

/-- A ring whose slot 255 begins with three bytes. -/
def ringState : State :=
  { posed .next .running with
    ring := [(133693440, 1#8), (133693441, 0x80#8), (133693442, 3#8)], tail := 255#8, fill := 1, ready := false }

/-- 47_quantizer_ring.md R152, R154: a short callback consumes the slot; the pointer wraps. -/
theorem test_drain_short : (after (exec (.drain 2#32) ringState)).map
      (fun t => (t.dst, t.tail, t.fill, t.ready)) = some ([1#8, 0x80#8], 0#8, 0, true) := by decide +kernel

/-- 47_quantizer_ring.md R154. -/
theorem test_drain_too_long : stopOf (exec (.drain 524289#32) State.reset) = some (.inr .drainTooLong) := by
  decide +kernel

/-- 48_sequencer.md R160. -/
theorem test_push : (after (exec (.push ⟨[.rat 1], 44100⟩) { State.reset with
      txQueue := [⟨[], 1⟩], emptyQueue := true })).map (fun t => (t.txQueue, t.emptyQueue)) =
    some ([⟨[], 1⟩, ⟨[.rat 1], 44100⟩], false) := by decide +kernel

/-- 95_test_vectors.md 2.9. -/
theorem test_adopt : (after (exec .adopt { posed .top .running with
      txQueue := [⟨rats [1 / 4, 1], 8000⟩, ⟨[], 1⟩], fmPhase := .rat (1 / 3) })).map
      (fun t => (t.txQueue, t.currentChunk, t.last, t.fmPhase, t.ppos)) =
    some ([⟨[], 1⟩], some ⟨rats [1 / 4, 1], 8000⟩, Tail.fresh (.rat (1 / 4)), .rat 0, .first) := by decide +kernel

/-- 95_test_vectors.md 2.9: an empty chunk is dropped. -/
theorem test_adopt_empty_chunk : (after (exec .adopt { posed .top .running with
      txQueue := [⟨[], 1⟩, ⟨[.rat 1], 2⟩] })).map (fun t => (t.txQueue, t.currentChunk, t.ppos)) =
    some ([⟨[.rat 1], 2⟩], none, .top) := by decide +kernel

/-- 95_test_vectors.md 2.9: two samples at 44,100 Hz. -/
theorem test_prepare_overflow : stopOf (exec .prepare { posed .first .running with
      currentChunk := some ⟨rats [0, 0], 44100⟩ }) = some (.inr .deviceRateOverflow) := by decide +kernel

/-- 95_test_vectors.md 2.9: the device rate. -/
theorem test_prepare_rates : [deviceRate 44100 2048, deviceRate 44100 1808, deviceRate 8000 3,
    deviceRate 16000 1] = [5644800, 6394110, 699050667, 4194304000] := by decide +kernel

/-- 95_test_vectors.md 3.5, row 2: a failed start. -/
theorem test_process_boot_fails : (after (exec .process { posed .boot .starting with
      devAnswers := [false] })).map (fun t => (t.runState, t.ppos, t.devRunning, t.hostRet)) =
    some (.idle, .off, false, .bool false) := by decide +kernel

/-- 60_exceptions.md R197: row Wait asks IsRunning, and restarts a device that does not run. -/
theorem test_process_wait : (after (exec .process { posed .wait .running with
      devAnswers := [true], devLog := [] })).map (fun t => (t.ppos, t.devRunning, t.devLog)) =
    some (.pub0, true, [.isRunning, .startTx]) := by decide +kernel

/-- 95_test_vectors.md 3.3, row 27: the end of the worker. -/
theorem test_process_exit : (after (exec .process { posed .exit .stopping with
      exitSecond := true, devRunning := true, devAnswers := [true], devLog := [] })).map
      (fun t => (t.runState, t.ppos, t.devRunning, t.hostRet, t.devLog)) =
    some (.idle, .off, false, .bool true, [.stopTx]) := by decide +kernel

/-- 95_test_vectors.md 3.3, row 3. -/
theorem test_start : (after (exec .start { State.reset with fmPhase := .rat (1 / 3), stop := true })).map
      (fun t => (t.runState, t.ppos, t.ready, t.stop, t.fmPhase, t.hostRet)) =
    some (.starting, .boot, true, false, .rat 0, .pending) := by decide +kernel

/-- 95_test_vectors.md 2.9: START while Running. -/
theorem test_start_running : (after (exec .start (posed .top .running))).map
      (fun t => (t.runState, t.ppos, t.hostRet)) = some (.running, .top, .bool false) := by decide +kernel

/-- 95_test_vectors.md 3.3, row 21. -/
theorem test_stop : (after (exec .stop (posed .top .running))).map
      (fun t => (t.runState, t.ppos, t.stop, t.hostRet)) = some (.stopping, .top, true, .pending) := by
  decide +kernel

/-- 95_test_vectors.md 2.9: STOP in Idle. -/
theorem test_stop_idle : (after (exec .stop State.reset)).map (fun t => (t.runState, t.stop, t.hostRet)) =
    some (.idle, false, .bool true) := by decide +kernel

/-- 95_test_vectors.md 2.9: SETCFG while Running. -/
theorem test_setcfg_running : (after (exec (.setcfg (.am true)) (posed .top .running))).map
      (fun t => (t.cfg.am, t.hostRet)) = some (false, .raised (.configWhileRunning .am)) := by decide +kernel

/-- 95_test_vectors.md 2.9: a forwarded register. -/
theorem test_setcfg_frequency : (after (exec (.setcfg (.frequency 433920000#64)) State.reset)).map
      (fun t => (t.cfg.frequency, t.devLog)) =
    some (433920000#64, [.openDev, .setFrequency 433920000#64]) := by decide +kernel

/-- 95_test_vectors.md 2.9: true even with slots in the ring. -/
theorem test_isidle : (after (exec .isidle ringState)).map State.hostRet = some (.bool true) := by
  decide +kernel

theorem test_isidle_queue : (after (exec .isidle { ringState with txQueue := [⟨[], 1⟩] })).map
    State.hostRet = some (.bool false) := by decide +kernel

theorem test_waitend : ret (.waitend 5) = some (.bool true) := by decide +kernel

theorem test_waitidle : ret (.waitidle 5) = some (.bool false) := by decide +kernel

/-- The word placed by the host's function is the next step. -/
theorem test_withFetchWord :
    (after (step (State.reset.withFetchWord 8 0x13))).map (fun t => (t.hostRet, t.port)) =
      some (.word 0x7CD215D8#32, []) := by
  decide +kernel

/-- The state after `n` steps. -/
def stepped : Nat → State → Option State
  | 0, s => some s
  | n + 1, s => (after (step s)).bind (stepped n)

/-- 60_exceptions.md R199: power-off of an Idle block closes the device, and nothing runs after it. -/
theorem test_power_off : (stepped 2 { State.reset with
      txQueue := [⟨[], 1⟩], port := [.powerOff, .issue (.op [0x13#8])] }).map
      (fun t => (t.power, t.devLog, t.txQueue,
        decide (stopOf (step t) = some (.inr .poweredOff)))) =
    some (.off, [.openDev, .close], [], true) := by decide +kernel

/-- R172, R199: power-off of a running block is STOP, and Close once the worker has ended. -/
theorem test_power_off_running : (stepped 2 { posed .top .running with port := [.powerOff] }).map
      (fun t => (t.runState, t.stop, t.hostRet, t.power)) = some (.stopping, true, .pending, .closing) := by
  decide +kernel


/-! ### States that meet the hypotheses of the statements -/

/-- PROD at `p` with a sub-chunk in `iq`, a chunk of two samples where `p` is a position that has one, and a
device that runs and answers `answer`. -/
def live (p : Ppos) (r : RunState) (c : Option Chunk) (answer : Bool) : State :=
  { posed p r with
    stop := decide (r = .stopping)
    prepared := decide (p ≠ .exit)
    currentChunk := c
    deviceSampleRate := 8000#32
    ibuf := List.replicate 262144 (.rat 0)
    iq := List.replicate 524288 (.num (.rat 0))
    devRunning := true
    devAnswers := [answer] }

theorem legal_reset : Cfg.reset.Legal := by
  constructor <;> simp [Cfg.reset, bufLen]

theorem legal_low : ({ Cfg.reset with fskSampleRate := 2400, subChunkSamples := 1, fmDeviationKHz := .rat 0 } :
    Cfg).Legal := by
  constructor <;> simp [Cfg.reset, bufLen]

theorem legal_high : ({ Cfg.reset with subChunkSamples := 262144 } : Cfg).Legal := by
  constructor <;> simp [Cfg.reset, bufLen]

theorem inv_reset : State.reset.Inv := by
  constructor <;>
    simp [State.reset, State.launch, Memory.wf, Ppos.inChunk, Ppos.holdsSubChunk, legal_reset]

/-- A chunk of two samples. -/
def duo : Chunk := ⟨rats [1 / 4, 1 / 2], 8000⟩

theorem inv_live_in {p : Ppos} {a : Bool} (h : p = .first ∨ p = .wait ∨ p = .pub0 ∨ p = .pub1 ∨ p = .next) :
    (live p .running (some duo) a).Inv := by
  rcases h with rfl | rfl | rfl | rfl | rfl <;> constructor <;>
    simp [live, posed, duo, rats, State.reset, State.launch, Memory.wf, Ppos.inChunk, Ppos.holdsSubChunk,
      legal_reset, bufLen, -List.reduceReplicate]

theorem inv_live_out {p : Ppos} {r : RunState} {a : Bool} (h : p = .off ∧ r = .idle ∨ p = .boot ∧ r = .starting ∨
    p = .top ∧ r = .running ∨ p = .endWait ∧ r = .running ∨ p = .exit ∧ r = .stopping) :
    (live p r none a).Inv := by
  rcases h with ⟨rfl, rfl⟩ | ⟨rfl, rfl⟩ | ⟨rfl, rfl⟩ | ⟨rfl, rfl⟩ | ⟨rfl, rfl⟩ <;> constructor <;>
    simp [live, posed, State.reset, State.launch, Memory.wf, Ppos.inChunk, Ppos.holdsSubChunk,
      legal_reset, bufLen, -List.reduceReplicate]

/-- A next state with a property, found by evaluation. -/
theorem next_of_after {o : Host.Outcome State Fault Refusal} {p : State → Bool}
    (h : (after o).map p = some true) : ∃ t, o = .next t ∧ p t = true := by
  cases o with
  | next t => exact ⟨t, rfl, by simpa [after] using h⟩
  | fault f => simp [after] at h
  | refused r => simp [after] at h

/-! ### Witnesses: one theorem for each statement with hypotheses, at the boundaries of its clauses -/

theorem witness_StepRunsTheOperationAtThePort :
    (State.reset.withFetchWord 8 0x13).port = .issue (tableTransfer 8 0x13) :: [] ∧
    State.reset.power = .on ∧ (State.closed State.reset).power = .off ∧ State.reset.looksAtPort ∧
    (State.closed State.reset).looksAtPort ∧
    ({ posed .boot .starting with power := .closing } : State).looksAtPort ∧
    ({ State.reset with power := .closing } : State).runState = .idle ∧
    ({ posed .top .running with power := .closing } : State).runState = .running ∧
    ({ State.reset with port := [.powerOff] } : State).port = [.powerOff] ∧
    decode (tableTransfer 8 0x13) = .ok .mksync ∧ State.reset.port = [] ∧
    decode (.op [0x07#8]) = .error .unknownSelector ∧ decodeTableWord 8 0x13 = some .mksync :=
  ⟨rfl, rfl, rfl, .inl (by decide), .inl (by decide), .inr (.inl rfl), rfl, rfl, rfl, by decide +kernel⟩

theorem witness_UnlistedSelectorsRefused :
    ∀ sel ∈ [0x00#8, 0x07#8, 0x0D#8, 0x3B#8, 0x4A#8, 0xFF#8],
      sel.toNat ∉ [0x01, 0x02, 0x03, 0x04, 0x05, 0x06, 0x08, 0x09, 0x0A, 0x0B, 0x0C, 0x10, 0x11, 0x12, 0x13,
        0x18, 0x20, 0x28, 0x30, 0x38, 0x39, 0x3A, 0x40, 0x41, 0x42, 0x43, 0x44, 0x45, 0x46, 0x47, 0x48,
        0x49] := by decide

theorem witness_DecodeOfEncode : (Instr.revbits 0#32 32).wellFormed = true ∧
    (Instr.address 0x3E690#18 2#2 0x2EC#10 1#1).wellFormed = true ∧
    (Instr.mkmsg [true] 0 1 false).wellFormed = true ∧ (Instr.push ⟨[.named 0, .rat 0], 1⟩).wellFormed = true ∧
    (Instr.quant (.sinTurns (.named 0))).wellFormed = true := by decide

theorem witness_DecodedIsWellFormed :
    op [0x01#8, 0#8, 0#8, 0#8, 0#8, 32#8] = .ok (.revbits 0#32 32) := by decide +kernel

theorem witness_ResetMeetsInvariant : Cfg.reset.Legal ∧
    ({ Cfg.reset with fskSampleRate := 2400, subChunkSamples := 1, fmDeviationKHz := .rat 0 } : Cfg).Legal ∧
    ({ Cfg.reset with subChunkSamples := 262144 } : Cfg).Legal := ⟨legal_reset, legal_low, legal_high⟩

/-- Reset with START at the port. -/
def startPort : State := { State.reset with port := [.issue (.op [0x44#8])] }

theorem witness_StepKeepsInvariant : startPort.Inv ∧ ∃ t, step startPort = .next t ∧ t.ppos = .boot := by
  refine ⟨?_, _, rfl, rfl⟩
  constructor <;>
    simp [startPort, State.reset, State.launch, Memory.wf, Ppos.inChunk, Ppos.holdsSubChunk, legal_reset]

theorem witness_ProducerAndCallbackNeverFault :
    (live .pub0 .running (some duo) true).Inv ∧ (live .pub1 .running (some duo) true).Inv ∧
    (live .first .running (some duo) true).Inv ∧ (live .next .running (some duo) true).Inv ∧
    (live .pub0 .running (some duo) true).ppos = .pub0 ∧
    (live .pub1 .running (some duo) true).ppos = .pub1 ∧ (524288#32).toNat ≤ 524288 :=
  ⟨inv_live_in (by simp), inv_live_in (by simp), inv_live_in (by simp), inv_live_in (by simp), rfl, rfl,
    by decide⟩

/-- The worker at the second step of row Exit, with an empty ring and a device that runs. -/
def leaving : State := { live .exit .stopping none true with exitSecond := true }

theorem inv_leaving : leaving.Inv := by
  constructor <;>
    simp [leaving, live, posed, State.reset, State.launch, Memory.wf, Ppos.inChunk, Ppos.holdsSubChunk,
      legal_reset, bufLen, -List.reduceReplicate]

theorem witness_RunStateTransitions :
    (State.reset.Inv ∧ ∃ t, exec .start State.reset = .next t ∧ t.runState ≠ State.reset.runState) ∧
    (∀ a, (live .boot .starting none a).Inv ∧ ∃ t, exec .process (live .boot .starting none a) = .next t ∧
      t.runState ≠ (live .boot .starting none a).runState) ∧
    ((live .top .running none true).Inv ∧ ∃ t, exec .stop (live .top .running none true) = .next t ∧
      t.runState ≠ (live .top .running none true).runState) ∧
    (leaving.Inv ∧ ∃ t, exec .process leaving = .next t ∧ t.runState ≠ leaving.runState) := by
  refine ⟨⟨inv_reset, _, rfl, by decide⟩, fun a => ⟨inv_live_out (by simp), ?_⟩,
    ⟨inv_live_out (by simp), _, rfl, by decide⟩, inv_leaving, _, rfl, by decide⟩
  cases a <;> exact ⟨_, rfl, by decide⟩

theorem witness_ConfigurationFrozenWhileRunning :
    (∃ t, exec .mksync State.reset = .next t) ∧
    ∃ t, exec (.setcfg (.maxBatches 5)) (posed .top .running) = .next t ∧
      (posed .top .running).runState = .running := ⟨⟨_, rfl⟩, _, rfl, rfl⟩

theorem witness_PhaseResetOnlyAtAdoptAndStart :
    (∃ t, exec .start { State.reset with fmPhase := .rat (1 / 3) } = .next t ∧
      decide (t.fmPhase ≠ .rat (1 / 3)) = true) ∧
    ∃ t, exec .process { posed .top .running with fmPhase := .rat (1 / 3), txQueue := [duo] } = .next t ∧
      decide (t.fmPhase ≠ .rat (1 / 3)) = true :=
  ⟨next_of_after (by decide +kernel), next_of_after (by decide +kernel)⟩

theorem witness_EncoderTouchesOnlyItsRegisters :
    isEncoderOp .sync = true ∧ ∃ t, exec .sync State.reset = .next t := ⟨rfl, _, rfl⟩

theorem witness_EncoderAnswersDependOnOperandsAlone :
    isEncoderOp .sync = true ∧
    State.reset.cfg.fskSampleRate = (live .top .running none true).cfg.fskSampleRate ∧
    State.reset.cfg.maxBatches = (live .top .running none true).cfg.maxBatches := ⟨rfl, rfl, rfl⟩

theorem witness_RevbitsReversesBits : (0 : Nat) ≤ 32 ∧ (32 : Nat) ≤ 32 := by decide

theorem witness_BchremIsTheRemainder :
    0x800#32 &&& 0x7FF#32 = 0#32 ∧ 0xFFFFF800#32 &&& 0x7FF#32 = 0#32 := by decide

theorem witness_BchremAndSignAreLinear :
    0x4B5A0000#32 &&& 0x7FF#32 = 0#32 ∧ 0x1800#32 &&& 0x7FF#32 = 0#32 := by decide

theorem witness_ParityMakesBitsEven :
    (0xED2#32).getLsbD 0 = false ∧ (0xED3#32).getLsbD 0 = true := by decide

theorem witness_SignGivesACodeword : 0xFFFFF800#32 &&& 0x7FF#32 = 0#32 := by decide

theorem witness_SignRefusesLowBits :
    1#32 &&& 0x7FF#32 ≠ 0#32 ∧ 0x400#32 &&& 0x7FF#32 ≠ 0#32 := by decide

theorem witness_Read32leAssembles :
    0 + 3 < ([1#8, 2#8, 3#8, 4#8] : List Byte).length ∧
    ([1#8, 2#8, 3#8, 4#8] : List Byte).length ≤ 1 + 3 := by decide

theorem witness_BuildNumPlacesCells :
    ∀ c ∈ ([0x31#8, 0x5B#8] : List Byte), (numericTable.lookup c).isSome := by decide

theorem witness_BuildNumRaises :
    (∀ x ∈ ([0x31#8, 0x32#8] : List Byte), (numericTable.lookup x).isSome) ∧
    numericTable.lookup 0x2E#8 = none := by decide

theorem witness_MkmsgTakesTwentyBits :
    (1 ≤ ([true] : List Bool).length ∧ 1 ≤ 1) ∧ (1 ≤ ([true] : List Bool).length ∧ 0 < 1) ∧
    ([true] : List Bool).length < 2 := by decide

/-- Reset, with room for two batches and the lowest sample rate. -/
def roomy : State := { State.reset with cfg := { Cfg.reset with maxBatches := 2, fskSampleRate := 2400 } }

theorem witness_EncodeDeliversTheStream :
    (0 ≤ 2097151 ∧ messageLength .tone .raw [] = some 0 ∧
      batchesFor 0 0 ≤ State.reset.cfg.maxBatches) ∧
    (2097151 ≤ 2097151 ∧ messageLength .numeric .raw [0x31#8] = some 4 ∧
      batchesFor 2097151 4 ≤ roomy.cfg.maxBatches) ∧
    (8 ≤ 2097151 ∧ messageLength .alphanumeric .latin [0x41#8] = some 14 ∧
      batchesFor 8 14 ≤ State.reset.cfg.maxBatches) := by decide +kernel

theorem witness_EncodeStreamLayout :
    ∀ type ∈ [MsgType.tone, .numeric, .alphanumeric], ∃ t,
      exec (.encode 8 type [0x31#8] .b512 .raw 0#2 true) State.reset = .next t ∧
      (match t.hostRet with | .stream _ _ => true | _ => false) = true := by
  intro type h
  simp only [List.mem_cons, List.not_mem_nil, or_false] at h
  rcases h with rfl | rfl | rfl <;> exact next_of_after (by decide +kernel)

theorem witness_EncodeErrorsInOrder :
    2097151 < 2097152 ∧ 2097151 < 4294967296 ∧
    (0 ≤ 2097151 ∧ ([0x31#8, 0x41#8] : List Byte) = [0x31#8] ++ 0x41#8 :: [] ∧
      (∀ x ∈ ([0x31#8] : List Byte), (numericTable.lookup x).isSome) ∧ numericTable.lookup 0x41#8 = none) ∧
    (7 ≤ 2097151 ∧ messageLength .tone .raw [] = some 0 ∧
      State.reset.cfg.maxBatches < batchesFor 7 0) := by decide +kernel

theorem witness_EncodeDeliversTheAudio :
    (8 ≤ 2097151 ∧ messageLength .tone .raw [] = some 0 ∧
      batchesFor 8 0 ≤ roomy.cfg.maxBatches) ∧ bpsRate .b2400 ≤ roomy.cfg.fskSampleRate ∧
    ({ roomy with cfg := { roomy.cfg with fskSampleRate := 2399 } } : State).cfg.fskSampleRate
      < bpsRate .b2400 := by decide +kernel

theorem witness_FskmodSendsTheStream :
    (72 ≤ (List.replicate 72 0xAA#8).length ∧ ((List.replicate 72 0xAA#8).length - 72) % 4 = 0) ∧
    (72 ≤ (List.replicate 76 0xAA#8).length ∧ ((List.replicate 76 0xAA#8).length - 72) % 4 = 0) ∧
    bpsRate .b2400 ≤ roomy.cfg.fskSampleRate := by decide +kernel

theorem witness_FskmodRefuses :
    (List.replicate 71 0xAA#8).length < 72 ∧ ((List.replicate 73 0xAA#8).length - 72) % 4 ≠ 0 ∧
    (72 ≤ (List.replicate 72 0xAA#8).length ∧ ((List.replicate 72 0xAA#8).length - 72) % 4 = 0 ∧
      ({ roomy with cfg := { roomy.cfg with fskSampleRate := 2399 } } : State).cfg.fskSampleRate
        < bpsRate .b2400) := by decide +kernel

/-- A chunk of four samples. -/
def quad : Chunk := ⟨rats [1 / 2, 1, -1 / 2, 0], 8000⟩

/-- PROD with `quad` and a sample count. -/
def counted (n : Nat) : State := { posed .first .running with currentChunk := some quad, sampleCount := n }

theorem witness_InterpInterpolates : State.reset.cfg.num = .exact ∧
    (∀ n ∈ [1, 2, 3, 4], (counted n).ppos = .first ∧ (counted n).currentChunk = some quad ∧ 0 < (counted n).sampleCount ∧
      (counted n).subChunkOffset + (counted n).sampleCount ≤ quad.samples.length ∧
      (∀ k, k < (counted n).sampleCount →
        quad.samples[(counted n).subChunkOffset + k]? = some (quad.samples.getD k (.rat 0))) ∧
      (0 < 262143 ∧ (0 + 1) * (counted n).sampleCount < 262144) ∧
      (n ≠ 1 → 1 ≤ (262142 + 1) * (counted n).sampleCount / 262144)) ∧
    (State.reset.ppos ≠ .first ∧ State.reset.ppos ≠ .next) ∧ State.reset.currentChunk = none ∧
    (counted 0).sampleCount = 0 ∧
    quad.samples.length < (counted 5).subChunkOffset + (counted 5).sampleCount := by decide +kernel

theorem witness_InterpStaysBetween :
    (counted 4).cfg.num = .exact ∧ (∃ t, exec .interp (counted 4) = .next t) ∧ (counted 4).currentChunk = some quad ∧
    (-1 / 2 : ℝ) ≤ (counted 4).last.t3.real ∧ (counted 4).last.t3.real ≤ 1 ∧
    ∀ x ∈ (quad.samples.drop (counted 4).subChunkOffset).take (counted 4).sampleCount,
      (-1 / 2 : ℝ) ≤ x.real ∧ x.real ≤ 1 := by
  refine ⟨rfl, ⟨_, congrArg ((counted 4).within [.first, .next])
      (interpOp_ok (s := counted 4) (c := quad) rfl (by decide) (by decide))⟩,
    rfl, ?_⟩
  simp [counted, posed, State.reset, State.launch, quad, rats]
  norm_num

/-- A state with a sub-chunk in `ibuf`, in AM or FM. -/
def tuned (am : Bool) : State :=
  { live .first .running (some duo) true with cfg := { Cfg.reset with am := am } }

theorem witness_ModiqAm :
    ((tuned true).ppos = .first ∧ (tuned true).ibuf.length = 262144 ∧ (tuned true).cfg.am = true ∧
      (tuned true).cfg.num = .exact) ∧
    ((posed .next .running).ppos = .next ∧ (posed .next .running).ibuf.length ≠ 262144) ∧
    (State.reset.ppos ≠ .first ∧ State.reset.ppos ≠ .next) :=
  ⟨⟨rfl, List.length_replicate, rfl, rfl⟩, ⟨rfl, by simp [posed, State.reset, State.launch]⟩, by decide, by decide⟩

theorem witness_ModiqFm : (tuned false).ppos = .first ∧ (tuned false).cfg.num = .exact ∧
    (tuned false).ibuf.length = 262144 ∧ (tuned false).cfg.am = false ∧
    (tuned false).deviceSampleRate ≠ 0#32 :=
  ⟨rfl, rfl, List.length_replicate, rfl, by decide +kernel⟩

theorem witness_QuantOfRational : (posed .pub0 .running).ppos = .pub0 ∧ (posed .pub1 .running).ppos = .pub1 ∧
    (posed .pub0 .running).cfg.num = .exact ∧ State.reset.ppos ≠ .pub0 ∧ State.reset.ppos ≠ .pub1 := by decide

theorem witness_QuantIsNearest :
    ((posed .pub1 .running).ppos = .pub1 ∧ (posed .pub1 .running).cfg.num = .exact) ∧
    |(RealVal.num (.rat 1)).real| ≤ 1 ∧ |(RealVal.num (.rat (-1))).real| ≤ 1 ∧
    |(RealVal.sinTurns (.named 0)).real| ≤ 1 ∧ |(RealVal.cosTurns (.rat (1 / 2))).real| ≤ 1 :=
  ⟨⟨rfl, rfl⟩, by simp, by simp, Real.abs_sin_le_one _, Real.abs_cos_le_one _⟩

theorem witness_PublishWritesTheSlot :
    ((live .pub0 .running (some duo) true).ppos = .pub0 ∧ (live .pub0 .running (some duo) true).fill ≠ 256 ∧
      (live .pub0 .running (some duo) true).iq.length = 524288) ∧
    ((live .pub1 .running (some duo) true).ppos = .pub1 ∧ (live .pub1 .running (some duo) true).fill ≠ 256 ∧
      (live .pub1 .running (some duo) true).iq.length = 524288) ∧
    ({ posed .pub0 .running with fill := 256 } : State).fill = 256 ∧
    (posed .pub0 .running).iq.length ≠ 524288 ∧ (posed .pub0 .running).ppos ≠ .pub1 :=
  ⟨⟨rfl, by decide +kernel, List.length_replicate⟩, ⟨rfl, by decide +kernel, List.length_replicate⟩, rfl,
    by simp [posed, State.reset, State.launch], by decide +kernel⟩

theorem witness_DrainTakesTheSlot :
    ((0#32).toNat ≤ 524288 ∧ (3#32).toNat ≤ 524288 ∧ ringState.fill ≠ 0 ∧
      (∀ i, i < min (3#32).toNat 262144 →
        (Memory.read ringState.ring (ringState.tail.toNat * 524288 + i)).isSome)) ∧
    ((524288#32).toNat ≤ 524288 ∧ 3 < min (524288#32).toNat 262144 ∧
      Memory.read ringState.ring (ringState.tail.toNat * 524288 + 3) = none) := by decide +kernel

theorem witness_DrainOfEmptyRingIsSilence :
    ((524288#32).toNat ≤ 524288 ∧ State.reset.fill = 0) ∧ 524288 < (524289#32).toNat := by decide +kernel

theorem witness_SubChunkReachesTheDevice :
    (live .pub0 .running (some duo) true).ppos = .pub0 ∧ (live .pub0 .running (some duo) true).fill = 0 ∧
    (live .pub0 .running (some duo) true).ready = true ∧
    (live .pub0 .running (some duo) true).head = (live .pub0 .running (some duo) true).tail ∧
    (live .pub0 .running (some duo) true).iq.length = 524288 ∧
    (262144#32).toNat ≤ 262144 ∧ (0#32).toNat ≤ 262144 ∧ (1 ≤ 1 ∧ 2 ≤ 1 + 1) ∧ (1 ≤ 2 ∧ 2 ≤ 0 + 2) :=
  ⟨rfl, rfl, rfl, rfl, List.length_replicate, by decide +kernel⟩

theorem witness_AdoptTakesTheFront :
    (∀ q ∈ [[], [⟨[], 1⟩], [duo]], ({ posed .top .running with txQueue := q } : State).ppos = .top ∧
      ({ posed .top .running with txQueue := q } : State).stop = false ∧
      ({ posed .top .running with txQueue := q } : State).currentChunk = none ∧
      ({ posed .top .running with txQueue := q } : State).txQueue = q) ∧
    (posed .wait .running).ppos ≠ .top ∧ ({ posed .top .stopping with stop := true } : State).stop = true ∧
    ({ posed .top .running with currentChunk := some duo } : State).currentChunk ≠ none := by
  decide +kernel

/-- PROD at `p` with a chunk at rate `r` of two samples, `o` of them used. -/
def midChunk (p : Ppos) (r o : Nat) : State :=
  { posed p .running with currentChunk := some ⟨rats [0, 0], r⟩, subChunkOffset := o }

theorem witness_PreparePreparesTheSubChunk :
    ((midChunk .first 8000 0).ppos = .first ∧ (midChunk .next 8000 1).ppos = .next ∧
      (midChunk .next 8000 1).subChunkOffset < 2 ∧ 1 ≤ (midChunk .first 8000 0).cfg.subChunkSamples ∧
      (midChunk .first 8000 0).cfg.subChunkSamples ≤ 262144 ∧
      (2 * 8000 * 262144 + 2) / (2 * 2) ≤ 4294967295 ∧ 4294967295 < (2 * 44100 * 262144 + 2) / (2 * 2)) ∧
    ((midChunk .next 8000 2).ppos = .next ∧ (midChunk .next 8000 2).currentChunk = some ⟨rats [0, 0], 8000⟩ ∧
      2 ≤ (midChunk .next 8000 2).subChunkOffset) ∧
    ((posed .wait .running).ppos ≠ .first ∧ (posed .wait .running).ppos ≠ .next) ∧
    (posed .first .running).currentChunk = none := by decide +kernel

theorem witness_ProcessTakesTheRow :
    (∀ p ∈ [Ppos.off, .top, .first, .wait, .pub0, .pub1, .next, .endWait], (posed p .running).ppos = p) ∧
    ({ posed .top .stopping with stop := true } : State).stop = true ∧
    ((posed .top .running).stop = false ∧ (posed .top .running).currentChunk = none) ∧
    ((midChunk .top 8000 0).stop = false ∧ (midChunk .top 8000 0).currentChunk ≠ none) ∧
    ({ posed .wait .running with ready := false } : State).ready = false := by decide +kernel

theorem witness_ProcessCommandsTheDevice :
    (∀ a, (live .boot .starting none a).ppos = .boot ∧ (live .boot .starting none a).runState = .starting ∧
      (live .boot .starting none a).answer = a ∧ (live .boot .starting none a).devAnswers = [a]) ∧
    ((live .wait .running (some duo) true).ppos = .wait ∧ (live .wait .running (some duo) true).stop = false ∧
      (live .wait .running (some duo) true).ready = true ∧
      (live .wait .running (some duo) true).devRunning = true) ∧
    (posed .wait .running).devRunning = false ∧
    ((posed .endWait .running).ppos = .endWait ∧ (posed .endWait .running).stop = false ∧
      (posed .endWait .running).ready = true) :=
  ⟨fun _ => ⟨rfl, rfl, rfl, rfl⟩, ⟨rfl, rfl, rfl, rfl⟩, rfl, rfl, rfl, rfl⟩

theorem witness_ProcessExits :
    ((live .exit .stopping none true).ppos = .exit ∧ (live .exit .stopping none true).exitSecond = false ∧
      (live .exit .stopping none true).devRunning = true) ∧
    ((posed .exit .stopping).exitSecond = false ∧ (posed .exit .stopping).devRunning = false) ∧
    (({ posed .exit .stopping with exitSecond := true, fill := 1 } : State).exitSecond = true ∧
      ({ posed .exit .stopping with exitSecond := true, fill := 1 } : State).fill ≠ 0) ∧
    (({ posed .exit .stopping with exitSecond := true, devRunning := true } : State).fill = 0 ∧
      ({ posed .exit .stopping with exitSecond := true, devRunning := true } : State).devRunning = true) ∧
    (({ posed .exit .stopping with exitSecond := true } : State).exitSecond = true ∧
      ({ posed .exit .stopping with exitSecond := true } : State).fill = 0 ∧
      ({ posed .exit .stopping with exitSecond := true } : State).devRunning = false) :=
  ⟨⟨rfl, rfl, rfl⟩, ⟨rfl, rfl⟩, ⟨rfl, by decide⟩, ⟨rfl, rfl⟩, rfl, rfl, rfl⟩

theorem witness_StartAndStop :
    State.reset.runState = .idle ∧ (posed .top .running).runState ≠ .idle ∧
    (posed .top .running).runState = .running ∧ State.reset.runState ≠ .running := by decide +kernel

theorem witness_SetcfgWritesOrRaises :
    ((posed .top .running).runState = .running ∧ (CfgWrite.am true).reg ≠ .fskSampleRate ∧
      (CfgWrite.am true).reg ≠ .maxBatches) ∧ State.reset.runState ≠ .running ∧
    ((2400 : Int) ≤ 2400 ∧ (2399 : Int) < 2400 ∧ (1 : Int) ≤ 1 ∧ (0 : Int) < 1 ∧
      (1 ≤ (262144 : Int) ∧ (262144 : Int) ≤ 262144) ∧ (262144 : Int) < 262145 ∧
      (0 : ℝ) ≤ (RealNum.rat 0).real ∧ (RealNum.rat (-1)).real < 0) :=
  ⟨by decide +kernel, by decide +kernel, by decide, by decide, by decide, by decide, by decide, by decide, by simp,
    by simp⟩

end Sys2Proof.Tests
end

section
/-! SUPPORT. QUANT (47_quantizer_ring.md rule R148): in exact arithmetic the rounding of the model is the integer
nearest to 127 v, ties away from zero, whichever way it is computed (log 6); the byte is that integer, clamped. -/

namespace Sys2Proof.Machine

open Sys2Proof

/-! ### The nearest integer -/

theorem IsRound.abs_sub_le {z : ℤ} {x : ℝ} (h : IsRound z x) : |(z : ℝ) - x| ≤ 1 / 2 := by
  rcases h with h | ⟨h, -⟩
  · exact h.le
  · exact h.le

/-- Rounding is monotone. -/
theorem IsRound.mono {z w : ℤ} {x y : ℝ} (hz : IsRound z x) (hw : IsRound w y) (h : x ≤ y) : z ≤ w := by
  have hx := (isRound_le hz z).mp le_rfl
  rw [isRound_le hw z]
  split_ifs at hx ⊢
  · exact hx.trans h
  · exact hx.trans_le h

theorem IsRound.unique {z w : ℤ} {x : ℝ} (hz : IsRound z x) (hw : IsRound w x) : z = w :=
  le_antisymm (hz.mono hw le_rfl) (hw.mono hz le_rfl)

/-- The rational floor that `roundHalfAway` takes is the floor in the reals. -/
theorem floor_add_half_isRound {q : Rat} (hq : 0 ≤ q) : IsRound (q + 1 / 2).floor (q : ℝ) := by
  have hfloor : (q + 1 / 2).floor = ⌊(q : ℝ) + 1 / 2⌋ := by
    rw [show (q : ℝ) + 1 / 2 = ((q + 1 / 2 : Rat) : ℝ) by push_cast; rfl, Rat.floor_cast]
    rfl
  rw [hfloor]
  exact isRound_floor (by exact_mod_cast hq) (Int.floor_le _) (Int.lt_floor_add_one _)

/-- D6: `roundHalfAway` rounds to the nearest integer, ties away from zero. -/
theorem roundHalfAway_isRound (q : Rat) : IsRound (roundHalfAway q) (q : ℝ) := by
  unfold roundHalfAway
  split
  · next hq => exact floor_add_half_isRound hq
  · next hq =>
    have := (floor_add_half_isRound (q := -q) (by linarith)).neg
    rwa [Rat.cast_neg, neg_neg] at this

/-- For a rational, nearness is a matter of rationals. -/
theorem isRound_ratCast {z : ℤ} {q : Rat} : IsRound z (q : ℝ) ↔
    |(z : Rat) - q| < 1 / 2 ∨ |(z : Rat) - q| = 1 / 2 ∧ |q| < |(z : Rat)| := by
  unfold IsRound
  rify

/-! ### What `roundExact` computes -/

/-- R148, log 6: the enclosure is so narrow that its ends round to the same integer or to neighbours, so one
comparison with the tie between them decides. -/
theorem roundNear_eq {near : Rat} {v : RealVal} {z : ℤ} (hv : |v.real - (near : ℝ)| ≤ (trigErr : ℝ))
    (hz : IsRound z (v.real * 127)) : roundNear near v = z := by
  have hlo := roundHalfAway_isRound ((near - trigErr) * 127)
  have hhi := roundHalfAway_isRound ((near + trigErr) * 127)
  have htie := roundsTo_iff hz (roundHalfAway ((near + trigErr) * 127))
  unfold roundNear
  dsimp only
  generalize roundHalfAway ((near - trigErr) * 127) = lo at *
  generalize roundHalfAway ((near + trigErr) * 127) = hi at *
  push_cast at hlo hhi
  have hv := abs_le.mp hv
  have hlz : lo ≤ z := hlo.mono hz (by linarith)
  have hzh : z ≤ hi := hz.mono hhi (by linarith)
  have hgap : hi < lo + 2 := by
    have hl := abs_le.mp hlo.abs_sub_le
    have hh := abs_le.mp hhi.abs_sub_le
    have herr : (trigErr : ℝ) * 254 < 1 := by unfold trigErr; norm_num
    have : (hi : ℝ) < lo + 2 := by linarith
    exact_mod_cast this
  split
  · omega
  · split
    · next ht => exact le_antisymm (htie.mp ht) hzh
    · next ht =>
      rw [htie] at ht
      omega

/-- R148: in exact arithmetic `round (127 v)`, up to the clamp, is the integer nearest to 127 v. -/
theorem clampInt_roundExact {v : RealVal} {z : ℤ} (hz : IsRound z (v.real * 127)) :
    clampInt (roundExact v) (-128) 127 = clampInt z (-128) 127 := by
  unfold roundExact
  split
  case h_1 q =>
    have hq := roundHalfAway_isRound (q * 127)
    push_cast at hq
    rw [hq.unique hz]
  case h_2 t => rw [roundNear_eq (v := .sinTurns (.rat t)) (sinNear_near t) hz]
  case h_3 t =>
    have hc := sinNear_near (t + 1 / 4)
    rw [show 2 * Real.pi * ((t + 1 / 4 : Rat) : ℝ) = 2 * Real.pi * t + Real.pi / 2 by push_cast; ring,
      Real.sin_add_pi_div_two] at hc
    rw [roundNear_eq (v := .cosTurns (.rat t)) hc hz]
  case h_4 =>
    rw [roundAny_eq hz]
    unfold clampInt
    omega

/-! ### The byte -/

theorem quantInt_exact {v : RealVal} {z : ℤ} (hz : IsRound z (v.real * 127)) :
    quantInt .exact v = max (-128) (min 127 z) := clampInt_roundExact hz

/-- R148: the clamped integer fits a signed byte. -/
theorem quantByte_toInt (num : Num) (v : RealVal) :
    (quantByte num v).toInt = max (-128) (min 127 (roundReal num v)) := by
  unfold quantByte quantInt clampInt
  rw [BitVec.toInt_ofInt_eq_self (by decide) (by norm_num) (by norm_num)]

theorem quantByte_toInt_exact {v : RealVal} {z : ℤ} (hz : IsRound z (v.real * 127)) :
    (quantByte .exact v).toInt = max (-128) (min 127 z) :=
  (quantByte_toInt .exact v).trans (quantInt_exact hz)

/-- R148: a magnitude of at most 1 never rounds to -128. -/
theorem IsRound.neg_127_le {z : ℤ} {x : ℝ} (hz : IsRound z (x * 127)) (hx : |x| ≤ 1) : -127 ≤ z := by
  rw [isRound_le hz, if_neg (by decide)]
  push_cast
  linarith [(abs_le.mp hx).1]

/-! ### The step -/

theorem exec_quant (v : RealVal) (s : State) : exec (.quant v) s = execQuant v s := rfl

/-- R8, R148, R150: at rows Pub0 and Pub1 QUANT completes and writes the answer only. -/
theorem execQuant_of_pub {s : State} (h : s.ppos = .pub0 ∨ s.ppos = .pub1) (v : RealVal) :
    execQuant v s = .next { s with prodRet := .sample (quantByte s.cfg.num v) } :=
  within_of_mem (by simpa using h)

/-- R191, log 12: elsewhere QUANT is no step. -/
theorem execQuant_elsewhere {s : State} (h0 : s.ppos ≠ .pub0) (h1 : s.ppos ≠ .pub1) (v : RealVal) :
    execQuant v s = .refused .notEnabled :=
  within_of_not_mem (by simp [h0, h1])

/-! ### The obligations -/

/-- Settles O46: in exact arithmetic by `roundHalfAway_isRound`. -/
theorem quantOfRational : Obligations.QuantOfRational := by
  refine ⟨fun q s hs => ?_, fun v s h0 h1 => by rw [exec_quant, execQuant_elsewhere h0 h1]⟩
  refine ⟨quantByte s.cfg.num (.num (.rat q)), roundReal s.cfg.num (.num (.rat q)), ?_, fun hnum => ?_,
    quantByte_toInt _ _⟩
  · rw [exec_quant, execQuant_of_pub hs]
  · rw [hnum]
    exact isRound_ratCast.mp (roundHalfAway_isRound (q * 127))

/-- Settles O47: every real has a nearest integer, and in exact arithmetic the byte is that one, clamped. -/
theorem quantIsNearest : Obligations.QuantIsNearest := by
  intro v s hs
  refine ⟨quantByte s.cfg.num v, by rw [exec_quant, execQuant_of_pub hs], fun hnum => ?_⟩
  obtain ⟨z, hz⟩ := exists_isRound (v.real * 127)
  have hbyte := quantByte_toInt_exact hz
  rw [hnum]
  refine ⟨⟨z, hz, hbyte⟩, fun hv => ?_⟩
  have := hz.neg_127_le hv
  omega

end Sys2Proof.Machine
end

section
/-! SUPPORT. What the decoder can answer with (log 2): a post-condition for each operand parser whose operands have a
range, carried through `getOperation`; and the fields of an address codeword (R64, R66) make up the word again. -/

namespace Sys2Proof

/-! ### Post-conditions of parsers -/

/-- Whatever `p` reads satisfies `P`: the counterpart of `Reads`, for bytes that no encoder wrote. -/
def Yields {α : Type} (p : Parser α) (P : α → Prop) : Prop :=
  ∀ bs x rest, p bs = .ok (x, rest) → P x

section
variable {α β : Type} {p q : Parser α} {P : α → Prop}

theorem yields_pure {x : α} (h : P x) : Yields (pure x) P := by
  rintro bs y rest ⟨⟩
  exact h

theorem yields_throw (e : DecodeError) : Yields (throw e) P := nofun

theorem yields_bind {f : α → Parser β} {Q : β → Prop} (hp : Yields p P) (hf : ∀ x, P x → Yields (f x) Q) :
    Yields (p >>= f) Q := by
  intro bs y rest h
  change (p bs >>= fun r => f r.1 r.2) = .ok (y, rest) at h
  cases hr : p bs with
  | error e =>
    rw [hr] at h
    cases h
  | ok r =>
    rw [hr] at h
    exact hf r.1 (hp bs r.1 r.2 hr) r.2 y rest h

/-- A step whose answer has no range. -/
theorem yields_bind_any {f : α → Parser β} {Q : β → Prop} (hf : ∀ x, Yields (f x) Q) : Yields (p >>= f) Q :=
  yields_bind (P := fun _ => True) (fun _ _ _ _ => trivial) (fun x _ => hf x)

theorem yields_map {f : α → β} {Q : β → Prop} (hp : Yields p P) (hf : ∀ x, P x → Q (f x)) :
    Yields (p >>= fun x => pure (f x)) Q :=
  yields_bind hp fun x hx => yields_pure (hf x hx)

/-- The two branches of a tag, or of a range check. -/
theorem yields_ite {c : Prop} [Decidable c] (hp : c → Yields p P) (hq : ¬c → Yields q P) :
    Yields (if c then p else q) P := by
  split
  · next hc => exact hp hc
  · next hc => exact hq hc

theorem yields_many (hp : Yields p P) (n : Nat) : Yields (getMany p n) (fun xs => ∀ x ∈ xs, P x) := by
  induction n with
  | zero => exact yields_pure (by simp)
  | succ n ih => exact yields_bind hp fun x hx => yields_map ih fun xs hxs => List.forall_mem_cons.mpr ⟨hx, hxs⟩

theorem yields_seq (hp : Yields p P) : Yields (getSeq p) (fun xs => ∀ x ∈ xs, P x) :=
  yields_bind_any (yields_many hp)

end

/-! ### The operands that have a range -/

/-- Log 4: a real is read as a rational or under its name. -/
theorem yields_getNum : Yields getNum (fun v => v.isOperand = true) :=
  yields_bind_any fun _ => yields_ite
    (fun _ => yields_bind_any fun _ => yields_pure rfl)
    (fun _ => yields_bind_any fun _ => yields_pure rfl)

theorem yields_getReal : Yields getReal (fun v => v.isOperand = true) :=
  yields_bind_any fun _ =>
    yields_ite (fun _ => yields_map yields_getNum fun _ hv => hv) fun _ =>
    yields_ite (fun _ => yields_map yields_getNum fun _ ht => ht) fun _ =>
    yields_ite (fun _ => yields_map yields_getNum fun _ ht => ht) fun _ => yields_throw _

/-- R175, log 4: three registers hold a real; the other seven values have no range of their own here. -/
theorem yields_getCfgWrite : Yields getCfgWrite (fun w => w.isOperand = true) :=
  yields_bind_any fun _ =>
    yields_ite (fun _ => yields_map yields_getNum fun _ hv => hv) fun _ =>
    yields_ite (fun _ => yields_bind_any fun _ => yields_pure rfl) fun _ =>
    yields_ite (fun _ => yields_map yields_getNum fun _ hv => hv) fun _ =>
    yields_ite (fun _ => yields_bind_any fun _ => yields_pure rfl) fun _ =>
    yields_ite (fun _ => yields_bind_any fun _ => yields_pure rfl) fun _ =>
    yields_ite (fun _ => yields_bind_any fun _ => yields_pure rfl) fun _ =>
    yields_ite (fun _ => yields_map yields_getNum fun _ hv => hv) fun _ =>
    yields_ite (fun _ => yields_bind_any fun _ => yields_pure rfl) fun _ =>
    yields_ite (fun _ => yields_bind_any fun _ => yields_pure rfl) fun _ =>
    yields_ite (fun _ => yields_bind_any fun _ => yields_pure rfl) fun _ => yields_throw _

/-- R24: the rate is stored less one, so it is positive. -/
theorem yields_getChunk : Yields getChunk (fun c => (Instr.push c).wellFormed = true) :=
  yields_bind (yields_seq yields_getNum) fun samples hs => yields_bind_any fun r =>
    yields_pure (by simpa [Instr.wellFormed] using hs)

/-- R80: `n` is at most 32. -/
theorem yields_getRevbits : Yields getRevbits (fun i => i.wellFormed = true) :=
  yields_bind_any fun _ => yields_bind_any fun _ =>
    yields_ite (fun hn => yields_pure (decide_eq_true hn)) fun _ => yields_throw _

/-- R102: `maxBits` is the length of the bit buffer. -/
theorem yields_getMkmsg : Yields getMkmsg (fun i => i.wellFormed = true) :=
  yields_bind_any fun _ => yields_bind_any fun _ => yields_bind_any fun _ => yields_bind_any fun _ =>
    yields_ite (fun hlen => yields_pure (decide_eq_true hlen)) fun _ => yields_throw _

/-- R62: by the selector. Five operations have operands with a range; of every other one each operand is read at
any value its type has. -/
theorem yields_getOperation (sel : Nat) : Yields (getOperation sel) (fun i => i.wellFormed = true) := by
  unfold getOperation
  split
  case h_1 => exact yields_getRevbits
  case h_13 => exact yields_getMkmsg
  case h_20 => exact yields_map yields_getReal fun _ hv => hv
  case h_23 => exact yields_map yields_getChunk fun _ hc => hc
  case h_29 => exact yields_map yields_getCfgWrite fun _ hw => hw
  case h_33 => exact yields_throw _
  all_goals
    repeat refine yields_bind_any fun _ => ?_
    exact yields_pure rfl

/-! ### Codewords -/

/-- R64: a word with bit 31 clear is the address codeword with its fields. -/
theorem addressWord_extract {w : Word} (h : w.getLsbD 31 = false) :
    addressWord (w.extractLsb' 13 18) (w.extractLsb' 11 2) (w.extractLsb' 1 10) (w.extractLsb' 0 1) = w := by
  have hflag : 0#1 = w.extractLsb' 31 1 := by
    ext i hi
    obtain rfl : i = 0 := by omega
    simpa using h
  unfold addressWord
  rw [hflag]
  simp only [BitVec.extractLsb'_append_extractLsb'_eq_extractLsb']
  exact BitVec.extractLsb'_eq_self

/-- R66: the sync and the idle codeword are told apart before the address codewords. -/
theorem decodeCodeword_wellFormed (w : Word) : (decodeCodeword w).wellFormed = true := by
  unfold decodeCodeword
  split_ifs with hsync hidle hflag
  · rfl
  · rfl
  · rfl
  · simp [Instr.wellFormed, addressWord_extract (Bool.eq_false_of_not_eq_true hflag), hsync, hidle]

/-! ### The decoder -/

/-- `finish` answers only what was read. -/
theorem finish_eq_ok {r : Except DecodeError (Instr × List Byte)} {i : Instr} (h : finish r = .ok i) :
    ∃ rest, r = .ok (i, rest) := by
  unfold finish at h
  split at h
  · cases h
  · next j rest =>
    split at h
    · cases h
      exact ⟨rest, rfl⟩
    · cases h

/-- Settles O5: by `yields_getOperation` for an operation, by `decodeCodeword_wellFormed` for a codeword. -/
theorem decodedIsWellFormed : Obligations.DecodedIsWellFormed := by
  intro tr i h
  match tr with
  | .op [] => cases h
  | .op (sel :: operands) =>
    obtain ⟨rest, hread⟩ := finish_eq_ok h
    exact yields_getOperation sel.toNat operands i rest hread
  | .codeword bytes =>
    rw [decode] at h
    split at h
    · cases h
    · obtain ⟨rest, hread⟩ := finish_eq_ok h
      cases hread
      exact decodeCodeword_wellFormed _

end Sys2Proof
end

section
/-! SUPPORT. The numeric bit buffer (30_encoding.md rule R67, 41_message_buffer.md rule R95), and the address words
whose codeword is the idle or the sync codeword (42_codewords.md rule R101). -/

namespace Sys2Proof.Machine

open Sys2Proof

/-! ### BUILD_NUM -/

theorem exec_buildNum (msg : List Byte) (s : State) : exec (.buildNum msg) s = execBuildNum msg s := rfl

/-- R95: BUILD_NUM on a text whose characters are mapped to `vs`. -/
theorem execBuildNum_of_mapped {msg : List Byte} {vs : List Nat} (h : msg.map numMap = vs.map some) (s : State) :
    execBuildNum msg s =
      .next ((s.setEnc (Enc.withBits (vs.flatMap numCell) s.enc)).setHostRet
        (.bits (vs.flatMap numCell) (vs.flatMap numCell).length)) := by
  rw [execBuildNum, buildNumFrom_ok 0 msg vs h]

/-- The values of a text each of whose characters the table lists. -/
theorem exists_numMap_values {msg : List Byte} (h : ∀ c ∈ msg, (numericTable.lookup c).isSome) :
    ∃ vs : List Nat, msg.map numMap = vs.map some := by
  refine ⟨msg.map fun c => (numMap c).getD 0, ?_⟩
  rw [List.map_map]
  refine List.map_congr_left fun c hc => ?_
  obtain ⟨v, hv⟩ := Option.isSome_iff_exists.mp (h c hc)
  simp [numMap_eq, hv]

/-- Settles O28: the buffer is the cells of the values, one after another. -/
theorem buildNumPlacesCells : Obligations.BuildNumPlacesCells := by
  intro msg s hmapped
  obtain ⟨vs, hvs⟩ := exists_numMap_values hmapped
  have hcount : vs.length = msg.length := by simpa using (congrArg List.length hvs).symm
  have hlength : (vs.flatMap numCell).length = 4 * msg.length := by
    rw [flatMap_cells_length numCell_length, hcount]
  refine ⟨vs.flatMap numCell, ?_, hlength, fun i k hi hk => ?_⟩
  · rw [exec_buildNum, execBuildNum_of_mapped hvs, ← hlength]
    rfl
  · have hv : vs[i]? = some vs[i] := List.getElem?_eq_getElem _
    have hvalue : numMap msg[i] = some vs[i] := by
      simpa [hi, hv] using congrArg (fun l => l[i]?) hvs
    refine ⟨msg[i], vs[i], List.getElem?_eq_getElem hi, numMap_eq _ ▸ hvalue, ?_⟩
    rw [flatMap_cells_getElem? numCell_length vs hk, hv]
    exact numCell_getElem? _ hk

/-! ### MKADDR -/

/-- R85 (b): a word whose bits 10:0 are 0 can be read off its codeword. -/
theorem signWord_eq_signWord_iff {a b : Word} (ha : a &&& 0x7FF#32 = 0#32) (hb : b &&& 0x7FF#32 = 0#32) :
    signWord a = signWord b ↔ a = b := by
  refine ⟨fun h => BitVec.eq_of_getLsbD_eq fun j _ => ?_, congrArg signWord⟩
  rcases Nat.lt_or_ge j 11 with hlow | hdata
  · rw [low_bits_zero ha hlow, low_bits_zero hb hlow]
  · rw [← signWord_getLsbD a hdata, h, signWord_getLsbD b hdata]

/-- R100: the fields of the address word do not overlap. -/
theorem addrUnsigned_toNat (ric : BitVec 21) (function : BitVec 2) :
    (addrUnsigned ric function).toNat = ric.toNat / 8 * 8192 + function.toNat * 2048 := by
  have hric := ric.isLt
  have hfunction := function.isLt
  have haddr : (((ric >>> 3).setWidth 32 <<< 13 : Word)).toNat = 2 ^ 13 * (ric.toNat / 8) := by
    simp [Nat.shiftLeft_eq, Nat.shiftRight_eq_div_pow]
    omega
  have hfun : ((function.setWidth 32 <<< 11 : Word)).toNat = function.toNat * 2048 := by
    simp [Nat.shiftLeft_eq]
    omega
  rw [addrUnsigned, BitVec.toNat_or, haddr, hfun, ← Nat.two_pow_add_eq_or_of_lt (by omega)]
  omega

/-- R100: SIGN's operand has bits 10:0 clear. -/
theorem addrUnsigned_low (ric : BitVec 21) (function : BitVec 2) :
    addrUnsigned ric function &&& 0x7FF#32 = 0#32 := by
  apply BitVec.eq_of_toNat_eq
  rw [BitVec.toNat_and, addrUnsigned_toNat, show (0x7FF#32).toNat = 2 ^ 11 - 1 from rfl,
    Nat.and_two_pow_sub_one_eq_mod]
  simp
  omega

/-- R84, R100: MKADDR gives the codeword of an address word exactly for the fields of that word. -/
theorem mkaddrWord_eq_signWord_iff {ric : BitVec 21} {function : BitVec 2} {w : Word}
    (hw : w &&& 0x7FF#32 = 0#32) :
    mkaddrWord ric function = signWord w ↔ ric.toNat / 8 * 8192 + function.toNat * 2048 = w.toNat := by
  rw [mkaddrWord, signWord_eq_signWord_iff (addrUnsigned_low ric function) hw,
    ← BitVec.toNat_inj, addrUnsigned_toNat]

theorem signWord_idle : signWord 0x7A89C000#32 = 0x7A89C197#32 := by decide +kernel

theorem signWord_sync : signWord 0x7CD21000#32 = 0x7CD215D8#32 := by decide +kernel

theorem delivered_mkaddr_iff {ric : BitVec 21} {function : BitVec 2} {s : State} {w : Word} :
    delivered (exec (.mkaddr ric function) s) = .next (.word w) ↔ mkaddrWord ric function = w := by
  rw [show delivered (exec (.mkaddr ric function) s) = .next (.word (mkaddrWord ric function)) from rfl,
    Host.Outcome.next.injEq, Ret.word.injEq]

/-- Settles O32: by `mkaddrWord_eq_signWord_iff` the codeword fixes `function` and all of `ric` but its frame,
`ric[2:0]`. -/
theorem mkaddrCoincidences : Obligations.MkaddrCoincidences := by
  intro ric function s
  have hfunction := function.isLt
  rw [delivered_mkaddr_iff, delivered_mkaddr_iff, ← signWord_idle, ← signWord_sync,
    mkaddrWord_eq_signWord_iff (by decide), mkaddrWord_eq_signWord_iff (by decide),
    ← BitVec.toNat_inj, ← BitVec.toNat_inj]
  simp only [BitVec.toNat_ofNat, Nat.reducePow, Nat.reduceMod]
  omega

end Sys2Proof.Machine
end

section
/-! SUPPORT. U-BCH: REVBITS, BCHREM, PARITY and SIGN (40_bit_utilities.md rules R80 to R85). The division changes its
register only by multiples of the generator polynomial, and one step of it is linear; SIGN inherits both. -/

namespace Sys2Proof.Machine

open Sys2Proof

/-! ### What the operations answer -/

theorem exec_revbits (x : Word) (n : Nat) (s : State) :
    exec (.revbits x n) s = .next { s with hostRet := .word (revBits x n) } := rfl

theorem exec_bchrem (w : Word) (s : State) :
    exec (.bchrem w) s =
      .next { s with enc := { s.enc with bch := bchLoop w }, hostRet := .word (bchRem w) } := rfl

theorem delivered_bchrem (w : Word) (s : State) :
    delivered (exec (.bchrem w) s) = .next (.word (bchRem w)) := rfl

theorem exec_parity (v : Word) (s : State) :
    exec (.parity v) s = .next { s with hostRet := .word (parityWord v) } := rfl

theorem exec_sign_of_low_set {w : Word} (h : w &&& 0x7FF#32 ≠ 0#32) (s : State) :
    exec (.sign w) s = .refused .signLowBitsSet := if_pos h

theorem exec_sign_of_low_clear {w : Word} (h : w &&& 0x7FF#32 = 0#32) (s : State) :
    exec (.sign w) s =
      .next { s with enc := { s.enc with bch := bchLoop w }, hostRet := .word (signWord w) } :=
  if_neg (not_not.mpr h)

theorem delivered_sign {w : Word} (h : w &&& 0x7FF#32 = 0#32) (s : State) :
    delivered (exec (.sign w) s) = .next (.word (signWord w)) := by
  rw [exec_sign_of_low_clear h]
  rfl

/-- Settles O21: the guard of R84. -/
theorem signRefusesLowBits : Obligations.SignRefusesLowBits :=
  fun _ s h => exec_sign_of_low_set h s

/-! ### REVBITS -/

/-- R80: reversing the `n` low bits twice gives them back. -/
theorem revBits_revBits_getLsbD (x : Word) {n i : Nat} (hn : n ≤ 32) (hi : i < 32) :
    (revBits (revBits x n) n).getLsbD i = (decide (i < n) && x.getLsbD i) := by
  rw [revBits_getLsbD _ _ _ hi]
  by_cases h : i < n
  · rw [revBits_getLsbD _ _ _ (by omega), show n - 1 - (n - 1 - i) = i by omega]
    simp [h, show n - 1 - i < n by omega]
  · simp [h]

/-- Settles O16, by the bits of one reversal and of two. -/
theorem revbitsReversesBits : Obligations.RevbitsReversesBits := fun x n s hn =>
  ⟨revBits x n, exec_revbits x n s, revBits_getLsbD x n, revBits (revBits x n) n,
    exec_revbits _ n s, fun _ hi => revBits_revBits_getLsbD x hn hi⟩

/-! ### PARITY -/

/-- Log 20: a word whose bit 0 is set comes out as it is. -/
theorem parityWord_eq_self {v : Word} (h : v.getLsbD 0 = true) : parityWord v = v := by
  refine BitVec.eq_of_getLsbD_eq fun i _ => ?_
  rcases i with _ | i
  · unfold parityWord
    split <;> simp [h]
  · exact parityWord_getLsbD v (by omega)

/-- Settles O19: bit 0 takes the parity of the others, or is set already. -/
theorem parityMakesBitsEven : Obligations.ParityMakesBitsEven := fun v s =>
  ⟨parityWord v, exec_parity v s, fun _ hi => parityWord_getLsbD v hi,
    fun h => ⟨setBits_parityWord v h, parityWord_getLsbD_zero v h⟩, parityWord_eq_self⟩

/-! ### Linearity -/

/-- R82: a step adds the generator times the bit it tests. -/
theorem bchReg_getLsbD (r : Word) (k j : Nat) :
    (bchReg r k).getLsbD j = (r.getLsbD j ^^ (r.getLsbD (31 - k) && (bchGen >>> k).getLsbD j)) := by
  unfold bchReg
  split
  · rename_i hset
    rw [BitVec.getLsbD_xor, hset, Bool.true_and]
  · rename_i hclear
    rw [Bool.eq_false_of_not_eq_true hclear, Bool.false_and, Bool.xor_false]

theorem bchReg_xor (a b : Word) (k : Nat) : bchReg (a ^^^ b) k = bchReg a k ^^^ bchReg b k := by
  refine BitVec.eq_of_getLsbD_eq fun j _ => ?_
  simp only [bchReg_getLsbD, BitVec.getLsbD_xor, Bool.and_xor_distrib_right,
    Bool.xor_assoc, Bool.xor_left_comm]

/-- R82: BCHREM is linear over GF(2). -/
theorem bchRem_xor (a b : Word) : bchRem (a ^^^ b) = bchRem a ^^^ bchRem b := by
  simp only [bchRem_eq]
  induction List.range 21 generalizing a b with
  | nil => rfl
  | cons k ks ih => rw [List.foldl_cons, bchReg_xor, ih, List.foldl_cons, List.foldl_cons]

/-- Where the bits of two words coincide, both are lost: the parity of a sum is the sum of the parities. -/
theorem setBits_xor_mod_two (a b : Word) : setBits (a ^^^ b) % 2 = (setBits a + setBits b) % 2 := by
  have hsum : setBits (a ^^^ b) + 2 * setBits (a &&& b) = setBits a + setBits b := by
    simp only [setBits, Finset.mul_sum, ← Finset.sum_add_distrib]
    refine Finset.sum_congr rfl fun i _ => ?_
    rw [BitVec.getLsbD_xor, BitVec.getLsbD_and]
    cases a.getLsbD i.val <;> cases b.getLsbD i.val <;> rfl
  omega

/-- R83, R85 (d): on words whose bit 0 is clear PARITY is linear. -/
theorem parityWord_xor {a b : Word} (ha : a.getLsbD 0 = false) (hb : b.getLsbD 0 = false) :
    parityWord (a ^^^ b) = parityWord a ^^^ parityWord b := by
  refine BitVec.eq_of_getLsbD_eq fun i _ => ?_
  rcases i with _ | i
  · have hab : (a ^^^ b).getLsbD 0 = false := by rw [BitVec.getLsbD_xor, ha, hb]; rfl
    rw [BitVec.getLsbD_xor, parityWord_getLsbD_zero _ hab, parityWord_getLsbD_zero _ ha,
      parityWord_getLsbD_zero _ hb, setBits_xor_mod_two, Nat.add_mod]
    rcases Nat.mod_two_eq_zero_or_one (setBits a) with h | h <;>
      rcases Nat.mod_two_eq_zero_or_one (setBits b) with h' | h' <;> simp [h, h']
  · rw [BitVec.getLsbD_xor, parityWord_getLsbD _ (by omega), parityWord_getLsbD _ (by omega),
      parityWord_getLsbD _ (by omega), BitVec.getLsbD_xor]

/-- R82, R84: the remainder lies where the data has no bits. -/
theorem or_bchRem_eq_xor {w : Word} (h : w &&& 0x7FF#32 = 0#32) : w ||| bchRem w = w ^^^ bchRem w := by
  refine BitVec.eq_of_getLsbD_eq fun j _ => ?_
  rw [BitVec.getLsbD_or, BitVec.getLsbD_xor]
  rcases Nat.lt_or_ge j 11 with hlow | hdata
  · simp [low_bits_zero h hlow]
  · simp [bchRem_getLsbD_top w hdata]

theorem signWord_eq_parityWord_xor {w : Word} (h : w &&& 0x7FF#32 = 0#32) :
    signWord w = parityWord (w ^^^ bchRem w) := by rw [signWord, or_bchRem_eq_xor h]

/-- R82: PARITY is given a word whose bit 0 is clear. -/
theorem xor_bchRem_getLsbD_zero (w : Word) : (w ^^^ bchRem w).getLsbD 0 = false := by
  rw [BitVec.getLsbD_xor, bchRem_getLsbD_zero, Bool.xor_self]

theorem xor_low_clear {a b : Word} (ha : a &&& 0x7FF#32 = 0#32) (hb : b &&& 0x7FF#32 = 0#32) :
    (a ^^^ b) &&& 0x7FF#32 = 0#32 := by
  refine BitVec.eq_of_getLsbD_eq fun j _ => ?_
  rw [BitVec.getLsbD_and, BitVec.getLsbD_xor, Bool.and_xor_distrib_right, ← BitVec.getLsbD_and,
    ← BitVec.getLsbD_and, ha, hb, BitVec.getLsbD_zero, Bool.xor_false]

/-- R85 (d): SIGN is linear over GF(2). -/
theorem signWord_xor {a b : Word} (ha : a &&& 0x7FF#32 = 0#32) (hb : b &&& 0x7FF#32 = 0#32) :
    signWord (a ^^^ b) = signWord a ^^^ signWord b := by
  have hregroup : (a ^^^ b) ^^^ (bchRem a ^^^ bchRem b) = (a ^^^ bchRem a) ^^^ (b ^^^ bchRem b) := by
    ac_rfl
  rw [signWord_eq_parityWord_xor (xor_low_clear ha hb), signWord_eq_parityWord_xor ha,
    signWord_eq_parityWord_xor hb, bchRem_xor, hregroup,
    parityWord_xor (xor_bchRem_getLsbD_zero a) (xor_bchRem_getLsbD_zero b)]

/-- Settles O18: every step of the division is linear, and so is PARITY on what SIGN gives it. -/
theorem bchremAndSignAreLinear : Obligations.BchremAndSignAreLinear := by
  intro a b s
  refine ⟨bchRem a, bchRem b, delivered_bchrem a s, delivered_bchrem b s, ?_, fun ha hb =>
    ⟨signWord a, signWord b, delivered_sign ha s, delivered_sign hb s, ?_⟩⟩
  · rw [delivered_bchrem, bchRem_xor]
  · rw [delivered_sign (xor_low_clear ha hb), signWord_xor ha hb]

/-! ### Words as polynomials (R81) -/

theorem codePoly_coeff (w : Word) (i : Nat) :
    (codePoly w).coeff i = if w.getLsbD (i + 1) then 1 else 0 := by
  have hterm : ∀ j : Fin 31,
      (if w.getLsbD (j.val + 1) then (Polynomial.X ^ j.val : Polynomial (ZMod 2)) else 0).coeff i =
        if i = j.val then (if w.getLsbD (i + 1) then 1 else 0) else 0 := by
    intro j
    by_cases hij : i = j.val
    · subst hij; split <;> simp
    · split <;> simp [Polynomial.coeff_X_pow, hij]
  rw [codePoly, Polynomial.finsetSum_coeff, Finset.sum_congr rfl fun j _ => hterm j]
  by_cases hi : i < 31
  · rw [Finset.sum_eq_single ⟨i, hi⟩ (fun j _ hj => if_neg fun h => hj (Fin.ext h.symm)) (by simp), if_pos rfl]
  · rw [BitVec.getLsbD_of_ge _ _ (by omega)]
    simp

/-- R81: addition of polynomials over GF(2) is the exclusive or of their coefficients. -/
theorem codePoly_xor (a b : Word) : codePoly (a ^^^ b) = codePoly a + codePoly b := by
  ext i
  rw [Polynomial.coeff_add, codePoly_coeff, codePoly_coeff, codePoly_coeff, BitVec.getLsbD_xor]
  cases a.getLsbD (i + 1) <;> cases b.getLsbD (i + 1) <;> decide

/-- R81: bit 0, the parity bit, is outside the code word of 31 bits. -/
theorem codePoly_parityWord (v : Word) : codePoly (parityWord v) = codePoly v := by
  ext i
  rw [codePoly_coeff, codePoly_coeff, parityWord_getLsbD v (by omega)]

theorem genPoly_coeff (i : Nat) :
    genPoly.coeff i = if i ∈ [0, 3, 5, 6, 8, 9, 10] then 1 else 0 := by
  simp only [genPoly, Polynomial.coeff_add, Polynomial.coeff_X_pow, Polynomial.coeff_one]
  by_cases hi : i < 11
  · interval_cases i <;> decide
  · simp [show i ≠ 0 by omega, show i ≠ 3 by omega, show i ≠ 5 by omega, show i ≠ 6 by omega,
      show i ≠ 8 by omega, show i ≠ 9 by omega, show i ≠ 10 by omega]

/-- R81: at step `k` the register `gen` holds the generator polynomial times x^(20-k). -/
theorem codePoly_bchGen_shift {k : Nat} (hk : k ≤ 20) :
    codePoly (bchGen >>> k) = Polynomial.X ^ (20 - k) * genPoly := by
  ext i
  rw [codePoly_coeff, bchGen_shift_getLsbD, Polynomial.coeff_X_pow_mul', genPoly_coeff]
  have hmem : k + (i + 1) ∈ [21, 24, 26, 27, 29, 30, 31] ↔
      20 - k ≤ i ∧ i - (20 - k) ∈ [0, 3, 5, 6, 8, 9, 10] := by
    simp only [List.mem_cons, List.not_mem_nil, or_false]
    omega
  simp only [decide_eq_true_eq, hmem, ite_and]

theorem genPoly_dvd_bchReg_sub (r : Word) {k : Nat} (hk : k ≤ 20) :
    genPoly ∣ codePoly (bchReg r k) - codePoly r := by
  unfold bchReg
  split
  · rw [codePoly_xor, add_sub_cancel_left, codePoly_bchGen_shift hk]
    exact dvd_mul_left _ _
  · rw [sub_self]
    exact dvd_zero _

/-- R82: the steps of the division change the register by multiples of the generator polynomial. -/
theorem genPoly_dvd_foldl_sub (w : Word) {n : Nat} (hn : n ≤ 21) :
    genPoly ∣ codePoly ((List.range n).foldl bchReg w) - codePoly w := by
  induction n with
  | zero => simp
  | succ n ih =>
    rw [List.range_succ, List.foldl_append, List.foldl_cons, List.foldl_nil]
    have hstep := genPoly_dvd_bchReg_sub ((List.range n).foldl bchReg w) (show n ≤ 20 by omega)
    simpa using dvd_add hstep (ih (by omega))

theorem genPoly_dvd_bchRem_sub (w : Word) : genPoly ∣ codePoly (bchRem w) - codePoly w := by
  rw [bchRem_eq]
  exact genPoly_dvd_foldl_sub w le_rfl

theorem genPoly_degree : genPoly.degree = 10 := by
  refine le_antisymm ((Polynomial.degree_le_iff_coeff_zero _ _).mpr fun m hm => ?_)
    (Polynomial.le_degree_of_ne_zero (by rw [genPoly_coeff]; decide))
  have hm : 10 < m := by exact_mod_cast hm
  rw [genPoly_coeff, if_neg (by simp; omega)]

theorem genPoly_monic : genPoly.Monic := by
  rw [Polynomial.Monic, Polynomial.leadingCoeff, Polynomial.natDegree_eq_of_degree_eq_some genPoly_degree,
    genPoly_coeff]
  decide

/-- R82: the remainder has degree at most 9. -/
theorem codePoly_bchRem_degree_lt (w : Word) : (codePoly (bchRem w)).degree < genPoly.degree := by
  rw [genPoly_degree]
  refine (Polynomial.degree_lt_iff_coeff_zero _ 10).mpr fun m hm => ?_
  rw [codePoly_coeff, bchRem_getLsbD_top w (by omega)]
  rfl

/-- R81, R82: BCHREM is division with remainder by the generator polynomial. -/
theorem codePoly_bchRem (w : Word) : codePoly (bchRem w) = codePoly w %ₘ genPoly := by
  obtain ⟨q, hq⟩ := genPoly_dvd_bchRem_sub w
  refine (Polynomial.div_modByMonic_unique (-q) _ genPoly_monic ⟨?_, codePoly_bchRem_degree_lt w⟩).2.symm
  rw [mul_neg, ← hq]
  ring

theorem bchRem_ushiftRight (w : Word) : bchRem w >>> 11 = 0#32 := by
  refine BitVec.eq_of_getLsbD_eq fun j _ => ?_
  rw [BitVec.getLsbD_ushiftRight, bchRem_getLsbD_top w (by omega), BitVec.getLsbD_zero]

/-- Settles O17: the result differs from the operand by a multiple of the generator and has a smaller degree. -/
theorem bchremIsTheRemainder : Obligations.BchremIsTheRemainder := by
  intro w s
  refine ⟨bchRem w, ?_, fun hlow => ⟨bchRem_ushiftRight w, ?_, codePoly_bchRem w⟩⟩
  · rw [exec_bchrem, bchLoop_eq]
  · rw [bchRem_getLsbD_zero, low_bits_zero hlow (by omega)]

/-! ### SIGN -/

/-- R85 (b). -/
theorem setBits_signWord {w : Word} (h : w &&& 0x7FF#32 = 0#32) : setBits (signWord w) % 2 = 0 := by
  rw [signWord_eq_parityWord_xor h]
  exact setBits_parityWord _ (xor_bchRem_getLsbD_zero w)

/-- R85 (c): over GF(2) the sum of a polynomial and its remainder is their difference. -/
theorem genPoly_dvd_codePoly_signWord {w : Word} (h : w &&& 0x7FF#32 = 0#32) :
    genPoly ∣ codePoly (signWord w) := by
  rw [signWord_eq_parityWord_xor h, codePoly_parityWord, codePoly_xor, add_comm, ← CharTwo.sub_eq_add]
  exact genPoly_dvd_bchRem_sub w

theorem signWord_data (w : Word) : (signWord w).extractLsb' 11 21 = w.extractLsb' 11 21 := by
  refine BitVec.eq_of_getLsbD_eq fun i _ => ?_
  rw [BitVec.getLsbD_extractLsb', BitVec.getLsbD_extractLsb', signWord_getLsbD w (by omega)]

theorem dataMask_getLsbD {j : Nat} (hj : j < 32) : (0xFFFFF800#32).getLsbD j = decide (11 ≤ j) := by
  interval_cases j <;> rfl

/-- R85 (e): the operand is the data part of its codeword. -/
theorem signWord_and_dataMask {w : Word} (h : w &&& 0x7FF#32 = 0#32) :
    signWord w &&& 0xFFFFF800#32 = w := by
  refine BitVec.eq_of_getLsbD_eq fun j hj => ?_
  rw [BitVec.getLsbD_and, dataMask_getLsbD hj]
  rcases Nat.lt_or_ge j 11 with hlow | hdata
  · rw [low_bits_zero h hlow, decide_eq_false (by omega), Bool.and_false]
  · rw [signWord_getLsbD w hdata, decide_eq_true hdata, Bool.and_true]

/-- Settles O20: the operand and its remainder do not overlap, and their sum is a multiple of the generator. -/
theorem signGivesACodeword : Obligations.SignGivesACodeword := by
  intro w s h
  refine ⟨signWord w, bchLoop w, exec_sign_of_low_clear h s, signWord_data w, setBits_signWord h,
    genPoly_dvd_codePoly_signWord h, ?_⟩
  rw [signWord_and_dataMask h, delivered_sign h]

end Sys2Proof.Machine
end

section
/-! SUPPORT. EMIT32LE and READ32LE (40_bit_utilities.md rules R86 and R87): the word of four bytes is the word whose
bytes they are. -/

namespace Sys2Proof.Machine

open Sys2Proof

theorem exec_emit32le (buf : List Byte) (w : Word) (s : State) :
    exec (.emit32le buf w) s =
      .next { s with enc := { s.enc with out := buf ++ wordBytes w }, hostRet := .bytes (buf ++ wordBytes w) } := rfl

theorem exec_read32le {buf : List Byte} {a : Nat} (h : a + 3 < buf.length) (s : State) :
    exec (.read32le buf a) s = .next { s with hostRet := .word (wordAt buf a) } := if_pos h

theorem exec_read32le_past_end {buf : List Byte} {a : Nat} (h : buf.length ≤ a + 3) (s : State) :
    exec (.read32le buf a) s = .fault .streamReadPastEnd := if_neg (by omega)

/-- Settles O22: the appended bytes are `wordBytes`. -/
theorem emit32leAppends : Obligations.Emit32leAppends := fun buf w s =>
  ⟨buf ++ wordBytes w, rfl, by rw [List.length_append, wordBytes_length], exec_emit32le buf w s⟩

theorem byte_shiftLeft_getLsbD_inside (b : Byte) {m i : Nat} (h : m + i < 32) :
    (b.setWidth 32 <<< m).getLsbD (m + i) = b.getLsbD i := by
  rw [BitVec.getLsbD_shiftLeft, BitVec.getLsbD_setWidth, Nat.add_sub_cancel_left]
  simp [h, show i < 32 by omega]

theorem byte_shiftLeft_getLsbD_outside (b : Byte) {m j : Nat} (h : j < m ∨ m + 8 ≤ j) :
    (b.setWidth 32 <<< m).getLsbD j = false := by
  rw [BitVec.getLsbD_shiftLeft, BitVec.getLsbD_setWidth]
  rcases h with hbelow | habove
  · simp [hbelow]
  · rw [BitVec.getLsbD_of_ge b _ (by omega), Bool.and_false, Bool.and_false]

/-- R87: four bytes put together by shifts are a word with these bytes. -/
theorem wordBytes_assemble (b0 b1 b2 b3 : Byte) :
    wordBytes (b0.setWidth 32 ||| (b1.setWidth 32 <<< 8) ||| (b2.setWidth 32 <<< 16) |||
      (b3.setWidth 32 <<< 24)) = [b0, b1, b2, b3] := by
  rw [← BitVec.shiftLeft_zero (b0.setWidth 32)]
  simp only [wordBytes, List.cons.injEq, and_true]
  refine ⟨?_, ?_, ?_, ?_⟩
  all_goals
    refine BitVec.eq_of_getLsbD_eq fun i hi => ?_
    simp (disch := omega) only [BitVec.getLsbD_extractLsb', BitVec.getLsbD_or, byte_shiftLeft_getLsbD_inside,
      byte_shiftLeft_getLsbD_outside, hi, decide_true, Bool.true_and, Bool.or_false, Bool.false_or]

theorem take_drop_four {buf : List Byte} {a : Nat} (h : a + 3 < buf.length) :
    (buf.drop a).take 4 = [buf[a], buf[a + 1], buf[a + 2], buf[a + 3]] := by
  rw [List.drop_eq_getElem_cons (by omega), List.drop_eq_getElem_cons (by omega),
    List.drop_eq_getElem_cons (by omega), List.drop_eq_getElem_cons (by omega)]
  rfl

/-- R87: READ32LE's word, byte by byte. -/
theorem wordAt_eq {buf : List Byte} {a : Nat} (h : a + 3 < buf.length) :
    wordAt buf a = buf[a].setWidth 32 ||| (buf[a + 1].setWidth 32 <<< 8) |||
      (buf[a + 2].setWidth 32 <<< 16) ||| (buf[a + 3].setWidth 32 <<< 24) := by
  rw [wordAt, take_drop_four h, ← wordBytes_assemble, leNat_wordBytes]

/-- Settles O23: where four bytes are left, `wordAt_eq`. -/
theorem read32leAssembles : Obligations.Read32leAssembles := by
  intro buf a s
  refine ⟨fun h => ⟨buf[a], buf[a + 1], buf[a + 2], buf[a + 3], wordAt buf a,
    List.getElem?_eq_getElem _, List.getElem?_eq_getElem _, List.getElem?_eq_getElem _,
    List.getElem?_eq_getElem _, wordAt_eq h, exec_read32le h s⟩, fun h => exec_read32le_past_end h s⟩

/-- Settles O24: the four bytes written lie in the buffer, whatever follows them. -/
theorem readAfterEmit : Obligations.ReadAfterEmit := by
  intro buf tl w s
  have hroom : buf.length + 3 < (buf ++ wordBytes w ++ tl).length := by
    simp only [List.length_append, wordBytes_length]
    omega
  refine ⟨_, exec_emit32le buf w s, ?_⟩
  rw [exec_read32le hroom, List.append_assoc, wordAt_append]

end Sys2Proof.Machine
end

section
/-! SUPPORT. The message buffer (41_message_buffer.md rules R90 to R92, R95, R96): what each recoding answers, the
first unmapped character of a numeric text, and the cells and the terminator of an alphanumeric one. -/

namespace Sys2Proof.Machine

open Sys2Proof

/-! ### RECODE_RAW, RECODE_LATIN, RECODE_CYR -/

theorem exec_recodeRaw (text : List Byte) (s : State) :
    exec (.recodeRaw text) s = .next { s with enc := { s.enc with msg := text }, hostRet := .bytes text } := rfl

theorem exec_recodeLatin (text : List Byte) (s : State) :
    exec (.recodeLatin text) s =
      .next { s with enc := { s.enc with msg := recodeLatin text }, hostRet := .bytes (recodeLatin text) } := rfl

theorem exec_recodeCyr (text : List Byte) (s : State) :
    exec (.recodeCyr text) s = .refused .cyrillicTableMissing := rfl

/-- Settles O25: the rule is `exec_recodeRaw`. -/
theorem recodeRawPassesThrough : Obligations.RecodeRawPassesThrough := exec_recodeRaw

/-- Settles O27: no path of RECODE_CYR answers. -/
theorem recodeCyrStops : Obligations.RecodeCyrStops := exec_recodeCyr

/-- R91: what a byte other than a carriage return becomes. -/
def latinChar (c : Byte) : Byte :=
  if c = 0x5D#8 then 0x1E#8
  else if c = 0x5B#8 then 0x1F#8
  else if c = 0x55#8 then 0x1B#8
  else if c = 0x0A#8 then 0x0A#8
  else if c.toNat < 0x1A ∨ 0x7E < c.toNat then 0x3F#8
  else c

theorem latinByte_carriageReturn : latinByte 0x0D#8 = [] := rfl

/-- R91: the model keeps what is in the range or a line feed, the rule masks what is out of it: the same bytes. -/
theorem latinByte_of_ne {c : Byte} (h : c ≠ 0x0D#8) : latinByte c = [latinChar c] := by
  unfold latinByte latinChar
  rw [if_neg h]
  split_ifs with _ _ _ hkept hfeed _ hfeed
  any_goals rfl
  · rw [hfeed]
  · have := hkept.resolve_left hfeed
    omega
  · exact absurd (.inl hfeed) hkept
  · exact absurd (.inr (by omega)) hkept

/-- R91: every substituted character lies in the range itself. -/
theorem latinChar_range (c : Byte) :
    latinChar c = 0x0A#8 ∨ 0x1A ≤ (latinChar c).toNat ∧ (latinChar c).toNat ≤ 0x7E := by
  unfold latinChar
  split_ifs
  · exact .inr (by decide)
  · exact .inr (by decide)
  · exact .inr (by decide)
  · exact .inl rfl
  · exact .inr (by decide)
  · exact .inr (by omega)

/-- R91, D36: carriage returns go first, then each byte is mapped. -/
theorem recodeLatin_eq_map_filter (text : List Byte) :
    recodeLatin text = (text.filter fun c => decide (c ≠ 0x0D#8)).map latinChar := by
  induction text with
  | nil => rfl
  | cons c cs ih =>
    rw [recodeLatin] at ih ⊢
    rw [List.flatMap_cons, ih]
    by_cases hcr : c = 0x0D#8
    · rw [hcr, latinByte_carriageReturn, List.filter_cons_of_neg (by decide), List.nil_append]
    · rw [latinByte_of_ne hcr, List.filter_cons_of_pos (by simpa using hcr), List.map_cons, List.singleton_append]

theorem recodeLatin_range {text : List Byte} {b : Byte} (h : b ∈ recodeLatin text) :
    b = 0x0A#8 ∨ 0x1A ≤ b.toNat ∧ b.toNat ≤ 0x7E := by
  rw [recodeLatin_eq_map_filter] at h
  obtain ⟨c, -, rfl⟩ := List.mem_map.mp h
  exact latinChar_range c

/-- Settles O26: the answer is `latinChar` of what `recodeLatin_eq_map_filter` keeps. -/
theorem recodeLatinSubstitutes : Obligations.RecodeLatinSubstitutes := fun text s =>
  ⟨recodeLatin text, exec_recodeLatin text s, recodeLatin_eq_map_filter text, fun _ => recodeLatin_range⟩

/-! ### BUILD_NUM -/

theorem execBuildNum_of_error {msg : List Byte} {e : Err} (h : buildNumFrom 0 msg = .error e) (s : State) :
    execBuildNum msg s = .next { s with hostRet := .raised e } := by
  rw [execBuildNum, h]
  rfl

/-- Settles O29: `buildNumFrom` counts the mapped characters before the first unmapped one. -/
theorem buildNumRaises : Obligations.BuildNumRaises := by
  intro pre post c s hpre hc
  have herror : buildNumFrom 0 (pre ++ c :: post) = .error (.unmappedNumericChar pre.length c) := by
    rw [buildNumFrom_error 0 pre post c (fun x hx => numMap_eq x ▸ hpre x hx) (numMap_eq c ▸ hc), Nat.zero_add]
  rw [exec_buildNum, execBuildNum_of_error herror]

/-! ### BUILD_ALPHA -/

theorem exec_buildAlpha (msg : List Byte) (s : State) :
    exec (.buildAlpha msg) s = .next { s with
      enc := { s.enc with mbuf := buildAlphaBits msg, maxBits := (buildAlphaBits msg).length }
      hostRet := .bits (buildAlphaBits msg) (buildAlphaBits msg).length } := rfl

/-- R68: the cell holds the low seven bits only, so two bytes have a zero cell. -/
theorem alphaCell_eq_zero_iff (c : Byte) : alphaCell c = 0#32 ↔ c = 0x00#8 ∨ c = 0x80#8 := by
  revert c; decide +kernel

/-- R96: the bits of the terminator are zero, and it is left out after no cell or a zero cell (D18). -/
theorem alphaTerminator_eq (msg : List Byte) :
    alphaTerminator msg = List.replicate
      (if msg = [] ∨ msg.getLast? = some 0x00#8 ∨ msg.getLast? = some 0x80#8 then 0 else 7) false := by
  unfold alphaTerminator
  split
  · next hnone => rw [if_pos (.inl (List.getLast?_eq_none_iff.mp hnone)), List.replicate_zero]
  · next c hlast =>
    have hne : msg ≠ [] := by
      rintro rfl
      cases hlast
    simp only [hlast, hne, Option.some.injEq, false_or, ← alphaCell_eq_zero_iff]
    split <;> rfl

theorem alphaCells_length (msg : List Byte) :
    (msg.flatMap fun c => bitsDown (alphaCell c) 7).length = 7 * msg.length :=
  flatMap_cells_length (fun _ => bitsDown_length _ _) msg

theorem buildAlphaBits_length (msg : List Byte) :
    (buildAlphaBits msg).length = 7 * msg.length +
      (if msg = [] ∨ msg.getLast? = some 0x00#8 ∨ msg.getLast? = some 0x80#8 then 0 else 7) := by
  rw [buildAlphaBits, List.length_append, alphaCells_length, alphaTerminator_eq, List.length_replicate]

/-- R96: each byte's cell, read from the buffer, is the byte from bit 0 up. -/
theorem buildAlphaBits_cell {msg : List Byte} {i k : Nat} (hi : i < msg.length) (hk : k < 7) :
    (buildAlphaBits msg)[7 * i + k]? = some (msg[i].getLsbD k) := by
  rw [buildAlphaBits, List.getElem?_append_left (by rw [alphaCells_length]; omega),
    flatMap_cells_getElem? (fun _ => bitsDown_length _ _) msg hk, List.getElem?_eq_getElem hi]
  exact alphaCell_getElem? _ hk

/-- R96: past the cells the buffer holds the terminator alone. -/
theorem buildAlphaBits_terminator {msg : List Byte} {j : Nat} (hj : 7 * msg.length ≤ j)
    (hend : j < (buildAlphaBits msg).length) : (buildAlphaBits msg)[j]? = some false := by
  rw [buildAlphaBits_length] at hend
  rw [buildAlphaBits, List.getElem?_append_right (by rwa [alphaCells_length]), alphaCells_length,
    alphaTerminator_eq, List.getElem?_replicate_of_lt (by omega)]

/-- Settles O30: the buffer is the cells of the bytes, one after another, and then the terminator. -/
theorem buildAlphaPlacesCells : Obligations.BuildAlphaPlacesCells := fun msg s =>
  ⟨buildAlphaBits msg, exec_buildAlpha msg s, buildAlphaBits_length msg,
    fun _ _ hi hk => ⟨_, List.getElem?_eq_getElem hi, buildAlphaBits_cell hi hk⟩,
    fun _ => buildAlphaBits_terminator⟩

end Sys2Proof.Machine
end

section
/-! SUPPORT. MKADDR, MKMSG, MKIDLE and MKSYNC (42_codewords.md rules R100 and R102 to R105): what each answers, and the
fields of the word that the first two sign. -/

namespace Sys2Proof.Machine

open Sys2Proof

/-! ### What the operations answer -/

theorem exec_mkaddr (ric : BitVec 21) (function : BitVec 2) (s : State) :
    exec (.mkaddr ric function) s = .next { s with
      enc := { s.enc with bch := bchLoop (addrUnsigned ric function) }
      hostRet := .word (mkaddrWord ric function) } := rfl

theorem exec_mkmsg_past_buffer {mbuf : List Bool} {maxBits : Nat} (h : mbuf.length < maxBits) (offset : Nat)
    (numeric : Bool) (s : State) : exec (.mkmsg mbuf offset maxBits numeric) s = .fault .mbufReadPastEnd :=
  if_pos h

theorem exec_mkmsg_of_fits {mbuf : List Bool} {maxBits : Nat} (h : maxBits ≤ mbuf.length) (offset : Nat)
    (numeric : Bool) (s : State) :
    exec (.mkmsg mbuf offset maxBits numeric) s = .next { s with
      enc := { Enc.mkmsgSigned mbuf offset maxBits numeric s.enc with offset := mkmsgOffset offset maxBits }
      hostRet := .codeword (mkmsgWord mbuf offset maxBits numeric) (mkmsgOffset offset maxBits) } :=
  if_neg (by omega)

/-- R102: no message bit is left. -/
theorem exec_mkmsg_exhausted {mbuf : List Bool} {offset maxBits : Nat} (hfits : maxBits ≤ mbuf.length)
    (hdone : maxBits ≤ offset) (numeric : Bool) (s : State) :
    exec (.mkmsg mbuf offset maxBits numeric) s = .next { s with
      enc := { s.enc with offset := offset }
      hostRet := .codeword idleCw offset } := by
  rw [exec_mkmsg_of_fits hfits, Enc.mkmsgSigned, mkmsgOffset, mkmsgWord, if_pos hdone, if_pos hdone, if_pos hdone]

/-- R102: a message bit is left. -/
theorem exec_mkmsg_signs {mbuf : List Bool} {offset maxBits : Nat} (hfits : maxBits ≤ mbuf.length)
    (hleft : offset < maxBits) (numeric : Bool) (s : State) :
    exec (.mkmsg mbuf offset maxBits numeric) s = .next { s with
      enc := { s.enc with
        bch := bchLoop (msgUnsigned (msgBits mbuf offset maxBits numeric))
        offset := offset + 20 }
      hostRet := .codeword (signWord (msgUnsigned (msgBits mbuf offset maxBits numeric))) (offset + 20) } := by
  have hnot : ¬ maxBits ≤ offset := by omega
  rw [exec_mkmsg_of_fits hfits, Enc.mkmsgSigned, mkmsgOffset, mkmsgWord, if_neg hnot, if_neg hnot, if_neg hnot]
  rfl

theorem exec_mkidle (s : State) : exec .mkidle s = .next { s with hostRet := .word idleCw } := rfl

theorem exec_mksync (s : State) : exec .mksync s = .next { s with hostRet := .word syncCw } := rfl

/-- Settles O34: the constants of the two rules are those of R63. -/
theorem mkidleAndMksync : Obligations.MkidleAndMksync := fun s => ⟨exec_mkidle s, exec_mksync s⟩

/-! ### MKADDR -/

/-- R84: the check field of an operand of SIGN, as a field. -/
theorem checkField_eq_zero {w : Word} (h : w &&& 0x7FF#32 = 0#32) : w.extractLsb' 0 11 = 0#11 := by
  refine BitVec.eq_of_getLsbD_eq fun j hj => ?_
  rw [BitVec.getLsbD_extractLsb', Nat.zero_add, low_bits_zero h hj, Bool.and_false, BitVec.getLsbD_zero]

/-- R64: an address codeword is of type 0. -/
theorem addrUnsigned_type (ric : BitVec 21) (function : BitVec 2) :
    (addrUnsigned ric function).getLsbD 31 = false := by
  have hric := ric.isLt
  have hfunction := function.isLt
  rw [BitVec.getLsbD, addrUnsigned_toNat]
  exact Nat.testBit_lt_two_pow (by omega)

/-- R64: bits 30:13 are the address without its frame. -/
theorem addrUnsigned_address (ric : BitVec 21) (function : BitVec 2) :
    (addrUnsigned ric function).extractLsb' 13 18 = ric.extractLsb' 3 18 := by
  have hfunction := function.isLt
  refine BitVec.eq_of_toNat_eq ?_
  rw [BitVec.extractLsb'_toNat, BitVec.extractLsb'_toNat, addrUnsigned_toNat, Nat.shiftRight_eq_div_pow,
    Nat.shiftRight_eq_div_pow]
  omega

/-- R64: bits 12:11 are the function. -/
theorem addrUnsigned_function (ric : BitVec 21) (function : BitVec 2) :
    (addrUnsigned ric function).extractLsb' 11 2 = function := by
  have hfunction := function.isLt
  refine BitVec.eq_of_toNat_eq ?_
  rw [BitVec.extractLsb'_toNat, addrUnsigned_toNat, Nat.shiftRight_eq_div_pow]
  omega

/-- Settles O31: the word is `addrUnsigned`, an operand that SIGN takes. -/
theorem mkaddrSignsItsFields : Obligations.MkaddrSignsItsFields := by
  intro ric function s
  have hlow := addrUnsigned_low ric function
  exact ⟨addrUnsigned ric function, mkaddrWord ric function, bchLoop (addrUnsigned ric function),
    addrUnsigned_type ric function, addrUnsigned_address ric function, addrUnsigned_function ric function,
    checkField_eq_zero hlow, exec_mkaddr ric function s, exec_sign_of_low_clear hlow s⟩

/-! ### MKMSG: the twenty data bits -/

/-- R103: the two low bits of a space cell are its ones. -/
theorem padBit_eq (numeric : Bool) (j : Nat) : padBit numeric j = (numeric && decide (j % 4 ≥ 2)) := by
  have hcell : ∀ i, i < 4 → (0x3#4).getLsbD (3 - i) = decide (i ≥ 2) := by decide
  rw [padBit, hcell _ (Nat.mod_lt j (by omega))]

theorem msgBits_length {mbuf : List Bool} {maxBits : Nat} (h : maxBits ≤ mbuf.length) (offset : Nat)
    (numeric : Bool) : (msgBits mbuf offset maxBits numeric).length = 20 := by
  simp only [msgBits, dataBits, List.length_append, List.length_take, List.length_drop, List.length_map,
    List.length_range]
  omega

/-- R102, R103: data bit `k` is a bit of the buffer, or a pad bit counted from the end of the message. -/
theorem msgBits_getElem? {mbuf : List Bool} {offset maxBits k : Nat} (hfits : maxBits ≤ mbuf.length)
    (hleft : offset < maxBits) (hk : k < 20) (numeric : Bool) :
    (msgBits mbuf offset maxBits numeric)[k]? = some
      (if offset + k < maxBits then mbuf.getD (offset + k) false
        else numeric && decide ((offset + k - maxBits) % 4 ≥ 2)) := by
  have htaken : ((mbuf.drop offset).take (min 20 (maxBits - offset))).length = min 20 (maxBits - offset) := by
    rw [List.length_take, List.length_drop]
    omega
  rw [msgBits, dataBits]
  split_ifs with hin
  · have hmsg : k < min 20 (maxBits - offset) := by omega
    rw [List.getElem?_append_left (by rwa [htaken]), List.getElem?_take_of_lt hmsg, List.getElem?_drop,
      List.getD_eq_getElem _ _ (by omega), List.getElem?_eq_getElem]
  · have hpad : k - min 20 (maxBits - offset) = offset + k - maxBits := by omega
    have hroom : offset + k - maxBits < 20 - min 20 (maxBits - offset) := by omega
    rw [List.getElem?_append_right (by rw [htaken]; omega), htaken, hpad, List.getElem?_map,
      List.getElem?_range hroom, Option.map_some, padBit_eq]

/-! ### MKMSG: the unsigned word -/

theorem natOfBits_concat (bs : List Bool) (b : Bool) : natOfBits (bs ++ [b]) = Nat.bit b (natOfBits bs) := by
  rw [natOfBits, List.foldl_append, List.foldl_cons, List.foldl_nil, Nat.bit_val]
  rfl

/-- The last of the bits is bit 0. -/
theorem natOfBits_testBit (bs : List Bool) (j : Nat) : (natOfBits bs).testBit j = bs.reverse.getD j false := by
  induction bs using List.reverseRecOn generalizing j with
  | nil => exact Nat.zero_testBit j
  | append_singleton bs b ih =>
    rw [natOfBits_concat, List.reverse_concat]
    cases j with
    | zero => exact Nat.testBit_bit_zero b _
    | succ j => rw [Nat.testBit_bit_succ, ih, List.getD_cons_succ]

theorem typeBit_getLsbD {j : Nat} (hj : j < 32) : (0x80000000#32).getLsbD j = decide (j = 31) := by
  interval_cases j <;> rfl

/-- R65: the type bit, and the data bits from bit 11 up. -/
theorem msgUnsigned_getLsbD (bs : List Bool) {j : Nat} (hj : j < 32) :
    (msgUnsigned bs).getLsbD j = (decide (j = 31) || decide (11 ≤ j) && bs.reverse.getD (j - 11) false) := by
  rw [msgUnsigned, BitVec.getLsbD_or, typeBit_getLsbD hj, BitVec.getLsbD_shiftLeft, BitVec.getLsbD_ofNat,
    natOfBits_testBit]
  rcases Nat.lt_or_ge j 11 with hlow | hdata
  · simp [hlow, hlow.not_ge]
  · simp [hj, hdata, hdata.not_gt, show j - 11 < 32 by omega]

theorem msgUnsigned_type (bs : List Bool) : (msgUnsigned bs).getLsbD 31 = true := by
  rw [msgUnsigned_getLsbD bs (by omega)]
  rfl

/-- R102: SIGN's operand has bits 10:0 clear. -/
theorem msgUnsigned_low (bs : List Bool) : msgUnsigned bs &&& 0x7FF#32 = 0#32 := by
  refine BitVec.eq_of_getLsbD_eq fun j hj => ?_
  rw [BitVec.getLsbD_and, BitVec.getLsbD_zero]
  rcases Nat.lt_or_ge j 11 with hlow | hdata
  · rw [msgUnsigned_getLsbD bs hj, decide_eq_false (by omega), decide_eq_false (by omega)]
    rfl
  · rw [show (0x7FF#32).getLsbD j = false by interval_cases j <;> rfl, Bool.and_false]

/-- R102: of twenty data bits the first lands in bit 30 and the last in bit 11. -/
theorem msgUnsigned_data {bs : List Bool} (h : bs.length = 20) {k : Nat} (hk : k < 20) :
    (msgUnsigned bs).getLsbD (30 - k) = bs.getD k false := by
  rw [msgUnsigned_getLsbD bs (by omega), decide_eq_false (by omega), decide_eq_true (by omega), Bool.false_or,
    Bool.true_and, List.getD_eq_getElem?_getD, List.getElem?_reverse (by omega), h,
    show 20 - 1 - (30 - k - 11) = k by omega, List.getD_eq_getElem?_getD]

/-- Settles O33: the word signed is `msgUnsigned` of the twenty bits `msgBits`. -/
theorem mkmsgTakesTwentyBits : Obligations.MkmsgTakesTwentyBits := by
  intro mbuf offset maxBits numeric s
  refine ⟨fun hfits hdone => exec_mkmsg_exhausted hfits hdone numeric s, fun hfits hleft => ?_,
    fun hpast => exec_mkmsg_past_buffer hpast offset numeric s⟩
  have hlow := msgUnsigned_low (msgBits mbuf offset maxBits numeric)
  refine ⟨_, _, _, exec_mkmsg_signs hfits hleft numeric s, delivered_sign hlow s, msgUnsigned_type _,
    checkField_eq_zero hlow, fun k hk => ?_⟩
  rw [msgUnsigned_data (msgBits_length hfits offset numeric) hk, List.getD_eq_getElem?_getD,
    msgBits_getElem? hfits hleft hk, Option.getD_some]

end Sys2Proof.Machine
end

section
/-! SUPPORT. ENCODE (43_batch_assembly.md rules R110 to R118): which messages it builds, the codewords that the filling
loop of R117 emits, and what the operation answers. What the loop has emitted at any point is told by one invariant, `Enc.Filled`. -/

namespace Sys2Proof.Machine

open Sys2Proof

/-! ### The message buffer (R112) -/

@[simp] theorem Enc.message_maxBits (msg : List Byte) (bits : List Bool) (numeric : Bool) (e : Enc) :
    (e.message msg bits numeric).maxBits = bits.length := rfl

/-- R96: the terminator is there where the last byte has a bit among its low seven. -/
theorem buildAlphaBits_length_eq_alphaLength (msg : List Byte) :
    (buildAlphaBits msg).length = alphaLength msg := by
  have hzero : ∀ c : Byte, alphaCell c = 0#32 ↔ c &&& 0x7F#8 = 0#8 := by decide +kernel
  rw [buildAlphaBits, List.length_append, alphaCells_length, alphaLength, alphaTerminator]
  cases msg.getLast? with
  | none => rfl
  | some c =>
    simp only [hzero]
    split <;> simp

/-- R95: a text with no unmapped character gives four bits for each. -/
theorem buildNumFrom_of_mapped {text : List Byte} (h : ∀ c ∈ text, (numericTable.lookup c).isSome) :
    ∃ bits, buildNumFrom 0 text = .ok bits ∧ bits.length = 4 * text.length := by
  obtain ⟨vs, hvs⟩ := exists_numMap_values h
  have hcount : vs.length = text.length := by simpa using (congrArg List.length hvs).symm
  exact ⟨_, buildNumFrom_ok 0 text vs hvs, by rw [flatMap_cells_length numCell_length, hcount]⟩

/-- R112: a message of `m` bits is built. -/
theorem buildMessage_of_messageLength {type : MsgType} {charset : Charset} {text : List Byte} {m : Nat}
    (h : messageLength type charset text = some m) (e : Enc) :
    ∃ msg bits, buildMessage type charset text e = .ok (e.message msg bits (decide (type = .numeric))) ∧
      bits.length = m := by
  cases type with
  | tone => exact ⟨_, _, rfl, Option.some.inj h⟩
  | numeric =>
    rw [messageLength] at h
    split at h
    · next hmapped =>
      obtain ⟨bits, hbits, hlength⟩ := buildNumFrom_of_mapped (List.all_eq_true.mp hmapped)
      refine ⟨text, bits, ?_, hlength.trans (Option.some.inj h)⟩
      rw [buildMessage, hbits]
      rfl
    · cases h
  | alphanumeric =>
    cases charset with
    | raw => exact ⟨_, _, rfl, (buildAlphaBits_length_eq_alphaLength _).trans (Option.some.inj h)⟩
    | latin => exact ⟨_, _, rfl, (buildAlphaBits_length_eq_alphaLength _).trans (Option.some.inj h)⟩
    | cyrillic => cases h

/-! ### The position registers (R114, R115) -/

@[simp] theorem Enc.positions_addrFrame (ric : BitVec 21) (e : Enc) :
    (e.positions ric).addrFrame = addrFrameOf ric := rfl

theorem addrFrameOf_ofNat (address : Nat) : addrFrameOf (BitVec.ofNat 21 address) = address % 8 := by
  rw [addrFrameOf, BitVec.extractLsb'_toNat, BitVec.toNat_ofNat, Nat.shiftRight_zero]
  omega

theorem addrFrameOf_lt (ric : BitVec 21) : addrFrameOf ric < 8 := (ric.extractLsb' 0 3).isLt

theorem Enc.positions_batchCount (address : Nat) (e : Enc) :
    (e.positions (BitVec.ofNat 21 address)).batchCount = batchesFor address e.maxBits := by
  show batchCountOf (addrBitSkipOf (addrFrameOf (BitVec.ofNat 21 address))) e.maxBits = _
  rw [addrFrameOf_ofNat]
  rfl

/-! ### The codewords of the stream (R47, R117) -/

/-- R117: the codeword of slot `k`, counted over all batches from 0 and without the sync codewords, for the registers
`e` before filling. -/
def Enc.codewordAt (ric : BitVec 21) (function : BitVec 2) (e : Enc) (k : Nat) : Word :=
  if k < 2 * e.addrFrame then idleCw
  else if k = 2 * e.addrFrame then mkaddrWord ric function
  else mkmsgWord e.mbuf (20 * (k - 2 * e.addrFrame - 1)) e.maxBits e.numeric

/-- R47: the codewords of batch `b`, where slot `k` holds `cw k`. -/
def batchWords (cw : Nat → Word) (b : Nat) : List Word :=
  syncCw :: (List.range 16).map fun j => cw (16 * b + j)

/-- R47: the codewords of `n` batches. -/
def streamWords (cw : Nat → Word) (n : Nat) : List Word := (List.range n).flatMap (batchWords cw)

theorem batchWords_length (cw : Nat → Word) (b : Nat) : (batchWords cw b).length = 17 := by simp [batchWords]

theorem streamWords_length (cw : Nat → Word) (n : Nat) : (streamWords cw n).length = 17 * n := by
  rw [streamWords, flatMap_cells_length (batchWords_length cw), List.length_range]

theorem streamWords_sync (cw : Nat → Word) {n b : Nat} (hb : b < n) :
    (streamWords cw n)[17 * b]? = some syncCw := by
  have hcell := flatMap_cells_getElem? (batchWords_length cw) (List.range n) (i := b) (show 0 < 17 by omega)
  rw [List.getElem?_range hb] at hcell
  exact hcell

theorem streamWords_slot (cw : Nat → Word) {n k : Nat} (hk : k < 16 * n) :
    (streamWords cw n)[17 * (k / 16) + (k % 16 + 1)]? = some (cw k) := by
  have hslot : k % 16 < 16 := Nat.mod_lt _ (by omega)
  rw [streamWords, flatMap_cells_getElem? (batchWords_length cw) _ (by omega), List.getElem?_range (by omega)]
  simp [batchWords, hslot, Nat.div_add_mod]

theorem flatMap_wordBytes_window {ws : List Word} {i : Nat} {w : Word} (h : ws[i]? = some w) :
    ((ws.flatMap wordBytes).drop (4 * i)).take 4 = wordBytes w := by
  induction ws generalizing i with
  | nil => simp at h
  | cons v vs ih =>
    rw [List.flatMap_cons]
    cases i with
    | zero =>
      obtain rfl : v = w := by simpa using h
      rfl
    | succ i =>
      rw [Nat.mul_succ, Nat.add_comm, ← List.drop_drop, show (4 : Nat) = (wordBytes v).length from rfl,
        List.drop_left]
      exact ih (by simpa using h)

/-! ### The filling loop (R117) -/

/-- A property carried along a loop over `0 .. n-1`. -/
theorem foldl_range_induction {α : Type} {f : α → Nat → α} {P : Nat → α → Prop} {n : Nat} {x : α} (h0 : P 0 x)
    (hstep : ∀ i y, i < n → P i y → P (i + 1) (f y i)) : P n ((List.range n).foldl f x) := by
  induction n with
  | zero => exact h0
  | succ n ih =>
    rw [List.range_succ, List.foldl_append]
    exact hstep n _ n.lt_succ_self (ih fun i y hi => hstep i y (hi.trans n.lt_succ_self))

/-- R117: the invariant of the filling loop. From the registers `e₀` on, `k` slots are filled, the codewords `ws` stand
behind the preamble, and `e` are the registers now. The offset of MKMSG stops once the bits are exhausted (R102), so it
is the offset of slot `k` only up to there. -/
structure Enc.Filled (e₀ : Enc) (k : Nat) (ws : List Word) (e : Enc) : Prop where
  out : e.out = List.replicate preambleLen preambleByte ++ ws.flatMap wordBytes
  mbuf : e.mbuf = e₀.mbuf
  maxBits : e.maxBits = e₀.maxBits
  numeric : e.numeric = e₀.numeric
  addrFrame : e.addrFrame = e₀.addrFrame
  batchCount : e.batchCount = e₀.batchCount
  placed : e.placed = decide (2 * e₀.addrFrame < k)
  offset : e.offset = 20 * (k - 2 * e₀.addrFrame - 1) ∨
    e₀.maxBits ≤ e.offset ∧ e₀.maxBits ≤ 20 * (k - 2 * e₀.addrFrame - 1)

theorem Enc.filled_preamble {e₀ : Enc} (hplaced : e₀.placed = false) (hoffset : e₀.offset = 0) :
    Enc.Filled e₀ 0 [] e₀.preamble where
  out := rfl
  mbuf := rfl
  maxBits := rfl
  numeric := rfl
  addrFrame := rfl
  batchCount := rfl
  placed := hplaced.trans (by simp)
  offset := .inl (hoffset.trans (by simp))

theorem Enc.Filled.sync {e₀ e : Enc} {k : Nat} {ws : List Word} (h : Enc.Filled e₀ k ws e) (b : Nat) :
    Enc.Filled e₀ k (ws ++ [syncCw]) (Enc.emit syncCw { e with b := b }) where
  out := by simp [Enc.emit, h.out]
  mbuf := h.mbuf
  maxBits := h.maxBits
  numeric := h.numeric
  addrFrame := h.addrFrame
  batchCount := h.batchCount
  placed := h.placed
  offset := h.offset

/-- R102: past the end of the bits MKMSG answers idle at every offset. -/
theorem mkmsgWord_exhausted {offset maxBits : Nat} (h : maxBits ≤ offset) (mbuf : List Bool) (numeric : Bool) :
    mkmsgWord mbuf offset maxBits numeric = idleCw := if_pos h

section Slot

variable {ric : BitVec 21} {function : BitVec 2} {e₀ e : Enc} {k f s : Nat} {ws : List Word}

/-- R117: the address slot is slot `2 * addrFrame` of batch 0 only, since `placed` is set from there on. -/
theorem Enc.Filled.slotWord (h : Enc.Filled e₀ k ws e) (hframe : e₀.addrFrame < 8) (hs : s < 2)
    (hk : k % 16 = 2 * f + s) :
    Enc.slotWord ric function { e with f := f, s := s } = Enc.codewordAt ric function e₀ k := by
  unfold Enc.slotWord Enc.codewordAt
  simp only [h.placed, h.addrFrame, h.mbuf, h.maxBits, h.numeric, decide_eq_false_iff_not]
  rcases Nat.lt_trichotomy k (2 * e₀.addrFrame) with hbefore | hat | hafter
  · rw [if_pos (by omega), if_neg (by omega), if_pos hbefore]
  · rw [if_pos (by omega), if_pos (by omega), if_neg (by omega), if_pos hat]
  · rw [if_neg (by omega), if_neg (by omega), if_neg (by omega)]
    rcases h.offset with hoffset | ⟨hdone, hdone'⟩
    · rw [hoffset]
    · rw [mkmsgWord_exhausted hdone, mkmsgWord_exhausted hdone']

theorem Enc.Filled.slot (h : Enc.Filled e₀ k ws e) (hframe : e₀.addrFrame < 8) (hs : s < 2)
    (hk : k % 16 = 2 * f + s) :
    Enc.Filled e₀ (k + 1) (ws ++ [Enc.codewordAt ric function e₀ k])
      (Enc.fillSlot ric function { e with f := f, s := s }) := by
  obtain ⟨hmbuf, hmaxBits, hnumeric, haddrFrame, hbatchCount, hplaced, hoffset⟩ :=
    Enc.fillSlot_frame ric function { e with f := f, s := s }
  refine ⟨?_, hmbuf.trans h.mbuf, hmaxBits.trans h.maxBits, hnumeric.trans h.numeric,
    haddrFrame.trans h.addrFrame, hbatchCount.trans h.batchCount, ?_, ?_⟩
  · rw [Enc.fillSlot_out, h.slotWord hframe hs hk, h.out]
    simp
  · rw [hplaced]
    simp only [h.placed, h.addrFrame, ← Bool.decide_or]
    exact decide_eq_decide.mpr (by omega)
  · have hnow := h.offset
    rw [hoffset, h.placed, h.maxBits]
    simp only [decide_eq_false_iff_not, mkmsgOffset, dataBits]
    split_ifs <;> omega

/-- R117: the two slots of a frame. -/
theorem Enc.Filled.frame (h : Enc.Filled e₀ k ws e) (hframe : e₀.addrFrame < 8) (hk : k % 16 = 2 * f) :
    Enc.Filled e₀ (k + 2) (ws ++ [Enc.codewordAt ric function e₀ k, Enc.codewordAt ric function e₀ (k + 1)])
      (Enc.fillFrame ric function e f) := by
  have hboth := (h.slot (ric := ric) (function := function) hframe (s := 0) (by omega) hk).slot
    (ric := ric) (function := function) hframe (f := f) (s := 1) (by omega) (by omega)
  rwa [List.append_assoc] at hboth

/-- R117: the sync codeword and the eight frames of batch `b`. -/
theorem Enc.Filled.batch {b : Nat} (h : Enc.Filled e₀ (16 * b) ws e) (hframe : e₀.addrFrame < 8) :
    Enc.Filled e₀ (16 * (b + 1)) (ws ++ batchWords (Enc.codewordAt ric function e₀) b)
      (Enc.fillBatch ric function e b) := by
  have hframes := foldl_range_induction (n := framesPerBatch) (f := Enc.fillFrame ric function)
    (P := fun n e => Enc.Filled e₀ (16 * b + 2 * n)
      (ws ++ [syncCw] ++ (List.range (2 * n)).map fun j => Enc.codewordAt ric function e₀ (16 * b + j)) e)
    (by simpa using h.sync b)
    (fun n e hn he => by
      rw [framesPerBatch] at hn
      have := he.frame (ric := ric) (function := function) hframe (f := n) (by omega)
      simpa [Nat.mul_succ, List.range_succ, Nat.add_assoc] using this)
  simpa [batchWords, framesPerBatch, Enc.fillBatch, Nat.mul_succ] using hframes

end Slot

/-- R113, R117: the preamble and all batches. -/
theorem Enc.filled_fill {e₀ : Enc} (ric : BitVec 21) (function : BitVec 2) (hplaced : e₀.placed = false)
    (hoffset : e₀.offset = 0) (hframe : e₀.addrFrame < 8) :
    Enc.Filled e₀ (16 * e₀.batchCount) (streamWords (Enc.codewordAt ric function e₀) e₀.batchCount)
      (e₀.fill ric function) :=
  foldl_range_induction
    (P := fun n e => Enc.Filled e₀ (16 * n) (streamWords (Enc.codewordAt ric function e₀) n) e)
    (Enc.filled_preamble hplaced hoffset)
    (fun n e _ he => by simpa [streamWords, List.range_succ] using he.batch hframe)

/-! ### What ENCODE answers (R110, R111, R118) -/

section Answer

variable {address : Nat} {type : MsgType} {text : List Byte} {bps : Bps} {charset : Charset} {function : BitVec 2}
  {rawOnly : Bool} {s : State} {e : Enc}

theorem exec_encode_address_out_of_range (h : 2097151 < address) :
    exec (.encode address type text bps charset function rawOnly) s =
      .next { s with hostRet := .raised (.addressOutOfRange address) } := if_pos h

theorem exec_encode_of_raised {err : Err} (h : address ≤ 2097151)
    (hbuild : buildMessage type charset text s.enc = .error (.raised err)) :
    exec (.encode address type text bps charset function rawOnly) s =
      .next { s with hostRet := .raised err } := by
  show execEncode address type text bps charset function rawOnly s = _
  rw [execEncode, hbuild]
  exact if_neg (Nat.not_lt.mpr h)

theorem exec_encode_of_refused {r : Refusal} (h : address ≤ 2097151)
    (hbuild : buildMessage type charset text s.enc = .error (.refused r)) :
    exec (.encode address type text bps charset function rawOnly) s = .refused r := by
  show execEncode address type text bps charset function rawOnly s = _
  rw [execEncode, hbuild]
  exact if_neg (Nat.not_lt.mpr h)

/-- R111, from check 3 on. -/
theorem exec_encode_of_built (h : address ≤ 2097151) (hbuild : buildMessage type charset text s.enc = .ok e) :
    exec (.encode address type text bps charset function rawOnly) s =
      if s.cfg.maxBatches < batchesFor address e.maxBits then
        .next { s with hostRet := .raised (.maxBatchesExceeded (batchesFor address e.maxBits)) }
      else encodeResult rawOnly bps
        ((e.positions (BitVec.ofNat 21 address)).fill (BitVec.ofNat 21 address) function) s := by
  show execEncode address type text bps charset function rawOnly s = _
  rw [execEncode, hbuild, ← Enc.positions_batchCount]
  exact if_neg (Nat.not_lt.mpr h)

theorem encodeResult_raw (bps : Bps) (e : Enc) (s : State) :
    encodeResult true bps e s = .next { s with enc := e, hostRet := .stream e.out (8 * e.out.length) } := rfl

/-- R111: an ENCODE with `rawOnly` that delivers a stream has passed the checks. -/
theorem exec_encode_stream {t : State} {out : List Byte} {n : Nat}
    (hexec : exec (.encode address type text bps charset function true) s = .next t)
    (hret : t.hostRet = .stream out n) :
    ∃ e, buildMessage type charset text s.enc = .ok e ∧
      t.enc = (e.positions (BitVec.ofNat 21 address)).fill (BitVec.ofNat 21 address) function ∧
      out = t.enc.out := by
  by_cases haddr : address ≤ 2097151
  · cases hbuild : buildMessage type charset text s.enc with
    | error stop =>
      cases stop with
      | raised err =>
        rw [exec_encode_of_raised haddr hbuild] at hexec
        cases hexec
        cases hret
      | refused r =>
        rw [exec_encode_of_refused haddr hbuild] at hexec
        cases hexec
    | ok e =>
      rw [exec_encode_of_built haddr hbuild] at hexec
      split at hexec
      · cases hexec
        cases hret
      · rw [encodeResult_raw] at hexec
        cases hexec
        cases hret
        exact ⟨e, rfl, rfl, rfl⟩
  · rw [exec_encode_address_out_of_range (by omega)] at hexec
    cases hexec
    cases hret

end Answer

/-! ### The stream (R47, R113, R116) -/

theorem Enc.Filled.length {e₀ e : Enc} {k : Nat} {ws : List Word} (h : Enc.Filled e₀ k ws e) :
    e.out.length = 72 + 4 * ws.length := by
  rw [h.out, List.length_append, List.length_replicate, flatMap_cells_length wordBytes_length]
  rfl

theorem Enc.Filled.preamble_byte {e₀ e : Enc} {k i : Nat} {ws : List Word} (h : Enc.Filled e₀ k ws e) (hi : i < 72) :
    e.out[i]? = some 0xAA#8 := by
  rw [h.out, preambleLen, List.getElem?_append_left (by simpa using hi), List.getElem?_replicate_of_lt hi]
  rfl

theorem Enc.Filled.word {e₀ e : Enc} {k i : Nat} {ws : List Word} {w : Word} (h : Enc.Filled e₀ k ws e)
    (hw : ws[i]? = some w) : (e.out.drop (72 + 4 * i)).take 4 = wordBytes w := by
  rw [h.out, ← List.drop_drop, List.drop_left' (by simp [preambleLen]), flatMap_wordBytes_window hw]

/-- R111, R116: where the checks pass, ENCODE answers from registers whose stream has the stated length. -/
theorem exec_encode_of_fits {address m : Nat} {type : MsgType} {text : List Byte} {charset : Charset} {s : State}
    (bps : Bps) (function : BitVec 2) (haddr : address ≤ 2097151) (hm : messageLength type charset text = some m)
    (hfits : batchesFor address m ≤ s.cfg.maxBatches) :
    ∃ e : Enc, (∀ rawOnly,
        exec (.encode address type text bps charset function rawOnly) s = encodeResult rawOnly bps e s) ∧
      e.out.length = 72 + 68 * batchesFor address m ∧ e.batchCount = batchesFor address m := by
  obtain ⟨msg, bits, hbuild, rfl⟩ := buildMessage_of_messageLength hm s.enc
  have hfilled := Enc.filled_fill (e₀ := (s.enc.message msg bits (decide (type = .numeric))).positions
    (BitVec.ofNat 21 address)) (BitVec.ofNat 21 address) function rfl rfl (addrFrameOf_lt _)
  rw [Enc.positions_batchCount, Enc.message_maxBits] at hfilled
  refine ⟨_, fun _ => (exec_encode_of_built haddr hbuild).trans (if_neg (Nat.not_lt.mpr hfits)), ?_, ?_⟩
  · rw [hfilled.length, streamWords_length]
    omega
  · rw [hfilled.batchCount, Enc.positions_batchCount, Enc.message_maxBits]

/-- Settles O36: the batches of `exec_encode_of_fits`, at 68 bytes each. -/
theorem encodeDeliversTheStream : Obligations.EncodeDeliversTheStream := by
  intro address type text bps charset function s m haddr hm hfits
  obtain ⟨e, hexec, hlength, hcount⟩ := exec_encode_of_fits bps function haddr hm hfits
  exact ⟨e, hexec true, by omega, by omega, hcount⟩

theorem wordBytes_syncCw : wordBytes syncCw = [0xD8#8, 0x15#8, 0xD2#8, 0x7C#8] := by decide

/-- Settles O37: the message is that of `buildMessage_spec`, the codewords are those of the invariant `Enc.Filled`. -/
theorem encodeStreamLayout : Obligations.EncodeStreamLayout := by
  intro address type text bps charset function s t out n hexec hret
  obtain ⟨e, hbuild, henc, rfl⟩ := exec_encode_stream hexec hret
  obtain ⟨msg, bits, rfl, htone, hnumeric, halpha⟩ := buildMessage_spec hbuild
  have hfilled := Enc.filled_fill (e₀ := (s.enc.message msg bits (decide (type = .numeric))).positions
    (BitVec.ofNat 21 address)) (BitVec.ofNat 21 address) function rfl rfl (addrFrameOf_lt _)
  rw [← henc] at hfilled
  have hmbuf : t.enc.mbuf = bits := hfilled.mbuf
  rw [hmbuf, hfilled.batchCount]
  refine ⟨fun i => hfilled.preamble_byte, htone, fun htype => ?_, fun htype => ?_, fun b hb => ?_, fun k hk => ?_⟩
  · obtain ⟨-, hbits⟩ := hnumeric htype
    rw [exec_buildNum, execBuildNum, hbits]
    rfl
  · obtain ⟨hmsg, -, hbits⟩ := halpha htype
    refine ⟨msg, ?_, by rw [hbits]; rfl⟩
    rw [hmsg]
    split <;> rfl
  · rw [show 72 + 68 * b = 72 + 4 * (17 * b) by omega, hfilled.word (streamWords_sync _ hb), wordBytes_syncCw]
  · rw [show 72 + 68 * (k / 16) + 4 + 4 * (k % 16) = 72 + 4 * (17 * (k / 16) + (k % 16 + 1)) by omega,
      hfilled.word (streamWords_slot _ hk), Enc.codewordAt, Enc.positions_addrFrame, addrFrameOf_ofNat]
    rfl

/-- Settles O38: each check of R111 stops before the next. -/
theorem encodeErrorsInOrder : Obligations.EncodeErrorsInOrder := by
  intro address type text bps charset function rawOnly s
  refine ⟨exec_encode_address_out_of_range, fun pre post c haddr htype htext hpre hc => ?_,
    fun haddr htype hcharset => ?_, fun m haddr hm hover => ?_⟩
  · refine exec_encode_of_raised haddr ?_
    rw [htype, htext, buildMessage,
      buildNumFrom_error 0 pre post c (fun x hx => numMap_eq x ▸ hpre x hx) (numMap_eq c ▸ hc), Nat.zero_add]
  · exact exec_encode_of_refused haddr (by rw [htype, hcharset]; rfl)
  · obtain ⟨msg, bits, hbuild, rfl⟩ := buildMessage_of_messageLength hm s.enc
    rw [exec_encode_of_built haddr hbuild, Enc.message_maxBits, if_pos hover]

end Sys2Proof.Machine
end

section
/-! SUPPORT. FSKMOD as ENCODE runs it (44_fsk_modulator.md rules R120, R121, R126): its two checks and the number of
samples. -/

namespace Sys2Proof.Machine

open Sys2Proof

theorem bpsRate_pos (bps : Bps) : 0 < bpsRate bps := by cases bps <;> decide

theorem preambleBits_length (b : Byte) : (preambleBits b).length = 8 := bitsDown_length _ _

theorem bodyBits_length (w : Word) : (bodyBits w).length = 32 := bitsDown_length _ _

/-- R126: silence at both ends, and every bit of the stream between. -/
theorem fskPcm_length {framed : List Byte} (hshort : 72 ≤ framed.length) (hwords : (framed.length - 72) % 4 = 0)
    (rate samplesPerBit : Nat) :
    (fskPcm rate samplesPerBit framed).length = 2 * (rate / 2) + 8 * framed.length * samplesPerBit := by
  have hpreamble : ((framed.take preambleLen).flatMap preambleBits).length = 8 * 72 := by
    rw [flatMap_cells_length preambleBits_length, List.length_take, preambleLen, Nat.min_eq_left hshort]
  have hbody : ((bodyWords framed).flatMap bodyBits).length = 8 * (framed.length - 72) := by
    rw [flatMap_cells_length bodyBits_length, bodyWords, List.length_map, List.length_range, preambleLen]
    omega
  have hbits : 8 * framed.length = 8 * 72 + 8 * (framed.length - 72) := by omega
  simp only [fskPcm, fskSilence, List.length_append, List.length_replicate,
    flatMap_cells_length (sendBit_length samplesPerBit), hpreamble, hbody, hbits]
  ring

theorem fskRun_ok {framed : List Byte} {bps : Bps} {rate : Nat} (hshort : 72 ≤ framed.length)
    (hwords : (framed.length - 72) % 4 = 0) (hrate : bpsRate bps ≤ rate) (e : Enc) :
    fskRun framed bps rate e =
      .ok (e.fskDone (rate / bpsRate bps) framed (fskPcm rate (rate / bpsRate bps) framed)) := by
  have hsamples : rate / bpsRate bps ≠ 0 := (Nat.div_pos hrate (bpsRate_pos bps)).ne'
  rw [fskRun, preambleLen, if_neg (by omega)]
  exact if_neg hsamples

theorem fskRun_rateTooLow {framed : List Byte} {bps : Bps} {rate : Nat} (hshort : 72 ≤ framed.length)
    (hwords : (framed.length - 72) % 4 = 0) (hrate : rate < bpsRate bps) (e : Enc) :
    fskRun framed bps rate e = .error (.refuse .fskRateTooLow) := by
  rw [fskRun, preambleLen, if_neg (by omega)]
  exact if_pos (Nat.div_eq_of_lt hrate)

theorem exec_fskmod_of_ok {framed : List Byte} {bps : Bps} {s : State} {e : Enc}
    (h : fskRun framed bps s.cfg.fskSampleRate s.enc = .ok e) :
    exec (.fskmod framed bps) s = .next { s with enc := e, hostRet := .audio e.pcm e.pcm.length } := by
  show execFskmod framed bps s = _
  rw [execFskmod, h]
  rfl

theorem encodeResult_audio {bps : Bps} {e e' : Enc} {s : State}
    (h : fskRun e.out bps s.cfg.fskSampleRate e = .ok e') :
    encodeResult false bps e s = .next { s with enc := e', hostRet := .audio e'.pcm e'.pcm.length } := by
  show Res.outcome _ = _
  rw [h]
  rfl

theorem encodeResult_refused {bps : Bps} {e : Enc} {s : State} {r : Refusal}
    (h : fskRun e.out bps s.cfg.fskSampleRate e = .error (.refuse r)) : encodeResult false bps e s = .refused r := by
  show Res.outcome _ = _
  rw [h]
  rfl

/-- Settles O39: FSKMOD's samples do not depend on the registers it starts from. -/
theorem encodeDeliversTheAudio : Obligations.EncodeDeliversTheAudio := by
  intro address type text bps charset function s m haddr hm hfits
  obtain ⟨e, hexec, hlength, -⟩ := exec_encode_of_fits bps function haddr hm hfits
  have hshort : 72 ≤ e.out.length := by omega
  have hwords : (e.out.length - 72) % 4 = 0 := by omega
  refine ⟨e.out, by rw [hexec, encodeResult_raw]; rfl, fun hrate => ?_, fun hrate => ?_⟩
  · refine ⟨_, _, (hexec false).trans (encodeResult_audio (fskRun_ok hshort hwords hrate e)), ?_, ?_⟩
    · rw [exec_fskmod_of_ok (fskRun_ok hshort hwords hrate s.enc)]
      rfl
    · rw [← hlength]
      exact fskPcm_length hshort hwords _ _
  · rw [hexec, encodeResult_refused (fskRun_rateTooLow hshort hwords hrate e)]

end Sys2Proof.Machine
end

section
/-! SUPPORT. FSKMOD (44_fsk_modulator.md rules R120 to R127): the preamble and the body are one bit stream, each byte from
bit 0 up, of which every bit is held for `samplesPerBit` samples; the two refusals. -/

namespace Sys2Proof.Machine

open Sys2Proof

/-! ### The bits sent (R123, R124) -/

theorem wordBytes_getElem? (w : Word) {i : Nat} (h : i < 4) : (wordBytes w)[i]? = some (w.extractLsb' (8 * i) 8) := by
  interval_cases i <;> rfl

/-- R87: the bytes of a word read are those it was read from. -/
theorem wordBytes_wordAt {buf : List Byte} {a : Nat} (h : a + 3 < buf.length) :
    wordBytes (wordAt buf a) = (buf.drop a).take 4 := by
  rw [wordAt_eq h, wordBytes_assemble, take_drop_four h]

/-- Bit `q` of a stream of bytes is bit `q mod 8` of byte `q div 8`. -/
theorem flatMap_preambleBits_getElem? (bytes : List Byte) (q : Nat) :
    (bytes.flatMap preambleBits)[q]? = bytes[q / 8]?.map fun b => b.getLsbD (q % 8) := by
  have hbit : q % 8 < 8 := Nat.mod_lt q (by omega)
  have hcell := flatMap_cells_getElem? preambleBits_length bytes (i := q / 8) hbit
  rw [Nat.div_add_mod] at hcell
  rw [hcell]
  cases bytes[q / 8]? with
  | none => rfl
  | some b => exact preambleBits_getElem? b hbit

/-- R124: a body word goes out as its four bytes would in the preamble. -/
theorem bodyBits_eq_flatMap_preambleBits (w : Word) : bodyBits w = (wordBytes w).flatMap preambleBits := by
  refine List.ext_getElem? fun q => ?_
  rw [flatMap_preambleBits_getElem?]
  rcases Nat.lt_or_ge q 32 with hin | hout
  · rw [bodyBits_getElem? w hin, wordBytes_getElem? w (by omega), Option.map_some, BitVec.getLsbD_extractLsb',
      Nat.div_add_mod, decide_eq_true (Nat.mod_lt q (by omega)), Bool.true_and]
  · rw [List.getElem?_eq_none (by rwa [bodyBits_length]),
      List.getElem?_eq_none (by rw [wordBytes_length]; omega), Option.map_none]

/-- The first `n` groups of four elements, in order. -/
theorem flatMap_take_four {α : Type} (xs : List α) (n : Nat) :
    ((List.range n).flatMap fun k => (xs.drop (4 * k)).take 4) = xs.take (4 * n) := by
  induction n with
  | zero => rfl
  | succ n ih =>
    rw [List.range_succ, List.flatMap_append, ih, List.flatMap_singleton, Nat.mul_succ, List.take_add]

/-- R124: the body words are the bytes after the preamble. -/
theorem bodyWords_flatMap_wordBytes {framed : List Byte} (hwords : (framed.length - 72) % 4 = 0) :
    (bodyWords framed).flatMap wordBytes = framed.drop 72 := by
  have hword : ∀ n ∈ List.range ((framed.length - 72) / 4),
      wordBytes (wordAt framed (72 + 4 * n)) = ((framed.drop 72).drop (4 * n)).take 4 := by
    intro n hn
    rw [List.mem_range] at hn
    rw [wordBytes_wordAt (by omega), List.drop_drop]
  have hall : (framed.drop 72).length ≤ 4 * ((framed.length - 72) / 4) := by
    rw [List.length_drop]
    omega
  rw [bodyWords, preambleLen, List.flatMap_map, List.flatMap_congr hword, flatMap_take_four,
    List.take_of_length_le hall]

/-- R123, R124: the bits of the preamble and then of the body are those of all bytes in order. -/
theorem preamble_append_body_bits {framed : List Byte} (hwords : (framed.length - 72) % 4 = 0) :
    (framed.take 72).flatMap preambleBits ++ (bodyWords framed).flatMap bodyBits =
      framed.flatMap preambleBits := by
  have hbody : (bodyWords framed).flatMap bodyBits = (framed.drop 72).flatMap preambleBits := by
    rw [← bodyWords_flatMap_wordBytes hwords, List.flatMap_assoc, funext bodyBits_eq_flatMap_preambleBits]
  rw [hbody, ← List.flatMap_append, List.take_append_drop]

/-! ### The samples (R122, R125 to R127) -/

/-- R125: sample `j` is the level of bit `j div samplesPerBit`. -/
theorem flatMap_sendBit_getElem? {samplesPerBit : Nat} (hpos : 0 < samplesPerBit) (bits : List Bool) (j : Nat) :
    (bits.flatMap (sendBit samplesPerBit))[j]? = bits[j / samplesPerBit]?.map fskLevel := by
  have hsample : j % samplesPerBit < samplesPerBit := Nat.mod_lt j hpos
  have hcell := flatMap_cells_getElem? (sendBit_length samplesPerBit) bits (i := j / samplesPerBit) hsample
  rw [Nat.div_add_mod] at hcell
  rw [hcell]
  cases bits[j / samplesPerBit]? with
  | none => rfl
  | some v => exact List.getElem?_replicate_of_lt hsample

/-- R126: eight bits a byte, `samplesPerBit` samples a bit. -/
theorem sentSamples_length (samplesPerBit : Nat) (framed : List Byte) :
    ((framed.flatMap preambleBits).flatMap (sendBit samplesPerBit)).length = 8 * framed.length * samplesPerBit := by
  rw [flatMap_cells_length (sendBit_length samplesPerBit), flatMap_cells_length preambleBits_length, Nat.mul_comm]

section Samples

variable {framed : List Byte} (rate samplesPerBit : Nat)

/-- R120: silence, every bit of the stream, silence. -/
theorem fskPcm_eq (hwords : (framed.length - 72) % 4 = 0) :
    fskPcm rate samplesPerBit framed =
      fskSilence rate ++ ((framed.flatMap preambleBits).flatMap (sendBit samplesPerBit) ++ fskSilence rate) := by
  rw [fskPcm, preambleLen, List.append_assoc (fskSilence rate), ← List.flatMap_append,
    preamble_append_body_bits hwords, List.append_assoc]

theorem fskSilence_length : (fskSilence rate).length = rate / 2 := List.length_replicate

theorem fskSilence_getElem? {n : Nat} (h : n < rate / 2) : (fskSilence rate)[n]? = some 0#16 :=
  List.getElem?_replicate_of_lt h

/-- R122, R127: before the first bit and after the last one the samples are 0. -/
theorem fskPcm_getElem?_silence (hwords : (framed.length - 72) % 4 = 0) {n : Nat}
    (hends : n < rate / 2 ∨ rate / 2 + 8 * framed.length * samplesPerBit ≤ n)
    (hin : n < 2 * (rate / 2) + 8 * framed.length * samplesPerBit) :
    (fskPcm rate samplesPerBit framed)[n]? = some 0#16 := by
  have hsilence := fskSilence_length rate
  rw [fskPcm_eq rate samplesPerBit hwords]
  rcases hends with hlead | htrail
  · rw [List.getElem?_append_left (by omega), fskSilence_getElem? rate hlead]
  · have hsent := sentSamples_length samplesPerBit framed
    rw [List.getElem?_append_right (by omega), List.getElem?_append_right (by omega),
      fskSilence_getElem? rate (by omega)]

/-- R123 to R125: between the silences stands the level of bit `q mod 8` of byte `q div 8`. -/
theorem fskPcm_getElem?_bit (hwords : (framed.length - 72) % 4 = 0) {n : Nat} (hlead : rate / 2 ≤ n)
    (hsent : n < rate / 2 + 8 * framed.length * samplesPerBit) :
    (fskPcm rate samplesPerBit framed)[n]? =
      framed[(n - rate / 2) / samplesPerBit / 8]?.map fun b =>
        fskLevel (b.getLsbD ((n - rate / 2) / samplesPerBit % 8)) := by
  have hpos : 0 < samplesPerBit := Nat.pos_of_ne_zero fun h => by
    rw [h] at hsent
    omega
  have hin : n - rate / 2 < ((framed.flatMap preambleBits).flatMap (sendBit samplesPerBit)).length := by
    rw [sentSamples_length]
    omega
  rw [fskPcm_eq rate samplesPerBit hwords, List.getElem?_append_right (by rwa [fskSilence_length]),
    fskSilence_length, List.getElem?_append_left hin, flatMap_sendBit_getElem? hpos, flatMap_preambleBits_getElem?,
    Option.map_map]
  rfl

end Samples

/-- Settles O40: the samples are those of `fskPcm`, whose bits are those of the bytes in order. -/
theorem fskmodSendsTheStream : Obligations.FskmodSendsTheStream := by
  intro framed bps s hshort hwords hrate
  have hlength := fskPcm_length hshort hwords s.cfg.fskSampleRate (s.cfg.fskSampleRate / bpsRate bps)
  refine ⟨_, _, exec_fskmod_of_ok (fskRun_ok hshort hwords hrate s.enc), rfl, hlength,
    fun n hends hin => fskPcm_getElem?_silence _ _ hwords hends (hlength ▸ hin), fun n hlead hsent => ?_⟩
  have hbyte : (n - s.cfg.fskSampleRate / 2) / (s.cfg.fskSampleRate / bpsRate bps) / 8 < framed.length := by
    rw [Nat.div_lt_iff_lt_mul (by omega), Nat.mul_comm]
    exact Nat.div_lt_of_lt_mul (by rw [Nat.mul_comm]; omega)
  refine ⟨_, List.getElem?_eq_getElem hbyte, (fskPcm_getElem?_bit _ _ hwords hlead hsent).trans ?_⟩
  rw [List.getElem?_eq_getElem hbyte]
  rfl

/-! ### The refusals (R120, R121) -/

theorem fskRun_badLength {framed : List Byte} (h : framed.length < 72 ∨ (framed.length - 72) % 4 ≠ 0) (bps : Bps)
    (rate : Nat) (e : Enc) : fskRun framed bps rate e = .error (.refuse .fskBadLength) := if_pos h

theorem exec_fskmod_of_refused {framed : List Byte} {bps : Bps} {s : State} {r : Refusal}
    (h : fskRun framed bps s.cfg.fskSampleRate s.enc = .error (.refuse r)) :
    exec (.fskmod framed bps) s = .refused r := by
  show execFskmod framed bps s = _
  rw [execFskmod, h]
  rfl

/-- Settles O41: the two checks of `fskRun`. -/
theorem fskmodRefuses : Obligations.FskmodRefuses := fun _ bps s =>
  ⟨fun hbad => exec_fskmod_of_refused (fskRun_badLength hbad bps _ s.enc),
    fun hshort hwords hrate => exec_fskmod_of_refused (fskRun_rateTooLow hshort hwords hrate s.enc)⟩

end Sys2Proof.Machine
end

section
/-! SUPPORT. INTERP (45_resampler.md rules R130 to R136): every output sample but the last lies on the segment between
two neighbours of the sequence `last[3], in[0], ..., in[N-1]`; the tail after the sub-chunk. -/

namespace Sys2Proof.Machine

open Sys2Proof

/-! ### What the operation answers -/

theorem exec_interp (s : State) : exec .interp s = execInterp s := rfl

/-- R130: at rows First and Next, with a current chunk that holds the samples, INTERP completes. -/
theorem exec_interp_of_samples {s : State} {c : Chunk} (hpos : s.ppos = .first ∨ s.ppos = .next)
    (hc : s.currentChunk = some c) (h0 : 0 < s.sampleCount)
    (hle : s.subChunkOffset + s.sampleCount ≤ c.samples.length) :
    exec .interp s = .next { s with
        ibuf := interpolate s.cfg.num bufLen s.last.t3 (subChunkInput c s.subChunkOffset s.sampleCount)
        last := s.last.update (subChunkInput c s.subChunkOffset s.sampleCount) } := by
  rw [exec_interp, execInterp, within_of_mem (by simpa using hpos), interpOp_ok hc h0 hle]
  rfl

/-- Log 19: without 1 to the rest of the current chunk's samples INTERP refuses. -/
theorem interpOp_of_no_samples {s : State} (h : ∀ c, s.currentChunk = some c →
    s.sampleCount = 0 ∨ c.samples.length < s.subChunkOffset + s.sampleCount) :
    interpOp s = .error (.refuse .notEnabled) := by
  unfold interpOp
  split
  · rfl
  · next c hc => exact if_pos (h c hc)

theorem exec_interp_of_no_samples {s : State} (h : ∀ c, s.currentChunk = some c →
    s.sampleCount = 0 ∨ c.samples.length < s.subChunkOffset + s.sampleCount) :
    exec .interp s = .refused .notEnabled := by
  rw [exec_interp, execInterp, State.within, interpOp_of_no_samples h]
  exact ite_self _

/-- R191, log 12: at the other rows INTERP is no step. -/
theorem exec_interp_elsewhere {s : State} (h : s.ppos ≠ .first ∧ s.ppos ≠ .next) :
    exec .interp s = .refused .notEnabled :=
  within_of_not_mem (by simpa using h)

/-! ### The position in the input (R130) -/

section Position
variable (len n j : Nat)

theorem interpPos_eq (K : Type) [Field K] :
    ((j : K) + 1) * ((n : K) / (len : K)) = (((j + 1) * n : Nat) : K) / (len : K) := by
  push_cast
  ring

/-- R132: `floor(pos)` in natural numbers. -/
theorem interpPos_floor : (((j : Rat) + 1) * ((n : Rat) / (len : Rat))).floor.toNat = (j + 1) * n / len := by
  rw [interpPos_eq, ← Nat.floor_div_eq_div (K := Rat)]
  rfl

/-- R131: the first segment is that of index 0. -/
theorem interpPos_lt_one (hlen : 0 < len) :
    ((j : Rat) + 1) * ((n : Rat) / (len : Rat)) < 1 ↔ (j + 1) * n / len = 0 := by
  rw [interpPos_eq, div_lt_one (by exact_mod_cast hlen), Nat.div_eq_zero_iff_lt hlen]
  exact Nat.cast_lt

/-- R136: the weight of the right neighbour is in [0, 1]. -/
theorem interpPos_weight_mem : ((j : ℝ) + 1) * ((n : ℝ) / (len : ℝ)) - (((j + 1) * n / len : Nat) : ℝ) ∈
    Set.Icc (0 : ℝ) 1 := by
  rw [interpPos_eq, ← Nat.floor_div_eq_div (K := ℝ)]
  have hfloor := Nat.floor_le (a := (((j + 1) * n : Nat) : ℝ) / (len : ℝ)) (by positivity)
  have hnext := Nat.lt_floor_add_one ((((j + 1) * n : Nat) : ℝ) / (len : ℝ))
  constructor <;> linarith

end Position

/-- R132: before the last sample the segment ends inside the input. -/
theorem interpPos_div_lt {len n j : Nat} (hj : j + 1 < len) (hn : 0 < n) : (j + 1) * n / len < n :=
  Nat.div_lt_of_lt_mul (Nat.mul_lt_mul_of_pos_right hj hn)

/-! ### The samples (R131 to R133) -/

theorem interpolate_getElem? (num : Num) {len j : Nat} (hj : j < len) (l : RealNum) (inp : List RealNum) :
    (interpolate num len l inp)[j]? = some (interpSample num len l inp j) := by
  simp [interpolate, hj]

theorem mem_interpolate {num : Num} {len : Nat} {l y : RealNum} {inp : List RealNum} :
    y ∈ interpolate num len l inp ↔ ∃ j, j < len ∧ interpSample num len l inp j = y := by
  simp [interpolate]

/-- R133. -/
theorem interpSample_last (num : Num) {len j : Nat} (hj : j + 1 = len) (l : RealNum) {inp : List RealNum}
    {x : RealNum} (hx : inp[inp.length - 1]? = some x) : interpSample num len l inp j = x := by
  simp [interpSample, hj, hx]

/-- R131, R132 in one: the segment of index `i = floor(pos)` runs from element `i` to element `i + 1` of
`last[3], in[0], ..., in[N-1]`. -/
theorem interpSample_exact_real {len n i j : Nat} {l a b : RealNum} {inp : List RealNum} (hn : inp.length = n)
    (hj : j + 1 < len) (hi : i = (j + 1) * n / len) (ha : (l :: inp)[i]? = some a) (hb : inp[i]? = some b) :
    (interpSample .exact len l inp j).real =
      a.real + (b.real - a.real) * (((j : ℝ) + 1) * ((n : ℝ) / (len : ℝ)) - (i : ℝ)) := by
  simp only [interpSample, hn, if_neg hj.ne, interpPos_lt_one len n j (Nat.zero_lt_of_lt hj), interpPos_floor, ← hi]
  cases i with
  | zero =>
    obtain rfl : l = a := by simpa using ha
    simp [List.getD_eq_getElem?_getD, hb]
  | succ i =>
    rw [List.getElem?_cons_succ] at ha
    simp [List.getD_eq_getElem?_getD, ha, hb]

/-- R136 (b): in exact arithmetic a sample is an input or a convex combination of two neighbours. -/
theorem interpSample_exact_mem_Icc {len j : Nat} {l : RealNum} {inp : List RealNum} {lo hi : ℝ} (hj : j < len)
    (hn : 0 < inp.length) (hmem : ∀ x ∈ l :: inp, x.real ∈ Set.Icc lo hi) :
    (interpSample .exact len l inp j).real ∈ Set.Icc lo hi := by
  rcases Nat.lt_or_eq_of_le (Nat.succ_le_of_lt hj) with hbefore | hlast
  · have hb := interpPos_div_lt hbefore hn
    have ha := hb.trans (Nat.lt_succ_self inp.length)
    rw [interpSample_exact_real rfl hbefore rfl (List.getElem?_eq_getElem ha) (List.getElem?_eq_getElem hb),
      mul_comm (_ - _)]
    exact (convex_Icc lo hi).add_smul_sub_mem (hmem _ (List.getElem_mem ha))
      (hmem _ (List.mem_cons_of_mem l (List.getElem_mem hb))) (interpPos_weight_mem len inp.length j)
  · have hend : inp.length - 1 < inp.length := Nat.sub_one_lt_of_lt hn
    rw [interpSample_last .exact hlast l (List.getElem?_eq_getElem hend)]
    exact hmem _ (List.mem_cons_of_mem l (List.getElem_mem hend))

/-! ### The inputs by index -/

/-- R130: `in[0], ..., in[N-1]`. -/
theorem subChunkInput_eq_map {c : Chunk} {o n : Nat} {inp : Nat → RealNum}
    (hinp : ∀ k, k < n → c.samples[o + k]? = some (inp k)) : subChunkInput c o n = (List.range n).map inp := by
  refine List.ext_getElem? fun k => ?_
  rw [subChunkInput, List.getElem?_map]
  rcases Nat.lt_or_ge k n with hk | hk
  · rw [List.getElem?_take_of_lt hk, List.getElem?_drop, hinp k hk, List.getElem?_range hk]
    rfl
  · simp [hk]

section Indexed
variable (inp : Nat → RealNum)

theorem map_range_getElem? {n k : Nat} (hk : k < n) : ((List.range n).map inp)[k]? = some (inp k) := by
  simp [hk]

/-- R134: the last tail sample is the last input. -/
theorem Tail.update_last (n : Nat) (t : Tail) : (t.update ((List.range (n + 1)).map inp)).t3 = inp n := by
  simp [Tail.update, Tail.push, List.range_succ]

/-- R134: four samples or more replace the tail. -/
theorem Tail.update_four (n : Nat) (t : Tail) :
    t.update ((List.range (n + 4)).map inp) = ⟨inp n, inp (n + 1), inp (n + 2), inp (n + 3)⟩ := by
  simp [Tail.update, Tail.push, List.range_succ]

/-- R133. -/
theorem interpolate_last (num : Num) (n len : Nat) (l : RealNum) :
    (interpolate num (len + 1) l ((List.range (n + 1)).map inp))[len]? = some (inp n) := by
  rw [interpolate_getElem? num (Nat.lt_succ_self len)]
  refine congrArg some (interpSample_last num rfl l ?_)
  rw [List.length_map, List.length_range]
  exact map_range_getElem? inp (Nat.lt_succ_self n)

/-- R131: the segment from the tail sample to the first input. -/
theorem interpolate_first_segment {n len j : Nat} (l : RealNum) (h0 : 0 < n) (hj : j + 1 < len)
    (hpos : (j + 1) * n < len) : ∃ y, (interpolate .exact len l ((List.range n).map inp))[j]? = some y ∧
      y.real = l.real + ((inp 0).real - l.real) * (((j : ℝ) + 1) * ((n : ℝ) / (len : ℝ))) := by
  refine ⟨_, interpolate_getElem? _ (Nat.lt_of_succ_lt hj) l _, ?_⟩
  rw [interpSample_exact_real (n := n) (i := 0) (by simp) hj (Nat.div_eq_of_lt hpos).symm rfl
    (map_range_getElem? inp h0), Nat.cast_zero, sub_zero]

/-- R132: the segment from input `i` to the next one. -/
theorem interpolate_main_segment {n len i j : Nat} (l : RealNum) (hj : j + 1 < len)
    (hi : i + 1 = (j + 1) * n / len) (hin : i + 1 < n) :
    ∃ y, (interpolate .exact len l ((List.range n).map inp))[j]? = some y ∧
      y.real = (inp i).real + ((inp (i + 1)).real - (inp i).real)
        * (((j : ℝ) + 1) * ((n : ℝ) / (len : ℝ)) - ((i + 1 : Nat) : ℝ)) := by
  refine ⟨_, interpolate_getElem? _ (Nat.lt_of_succ_lt hj) l _, ?_⟩
  exact interpSample_exact_real (by simp) hj hi (map_range_getElem? inp (Nat.lt_of_succ_lt hin))
    (map_range_getElem? inp hin)

end Indexed

/-! ### The obligations -/

/-- Settles O42: the samples by segment, with `N = n + 1`. -/
theorem interpInterpolates : Obligations.InterpInterpolates := by
  refine ⟨fun s c inp hpos hc h0 hle hinp => ?_, fun s h => h.elim exec_interp_elsewhere exec_interp_of_no_samples⟩
  refine ⟨_, _, exec_interp_of_samples hpos hc h0 hle, interpolate_length _ _ _ _, ?_⟩
  rw [subChunkInput_eq_map hinp]
  generalize s.sampleCount = count at h0
  obtain ⟨n, rfl⟩ := Nat.exists_eq_add_one.mpr h0
  refine ⟨interpolate_last inp _ n 262143 _, fun hnum j hj hfirst => ?_, fun hnum j i hj hi hmain => ?_,
    Tail.update_last inp n _, fun hfour => ?_, ?_, ?_, ?_⟩
  · rw [hnum]
    exact_mod_cast interpolate_first_segment inp s.last.t3 h0 (Nat.add_lt_add_right hj 1) hfirst
  · obtain ⟨i, rfl⟩ := Nat.exists_eq_add_one.mpr hmain
    have hin : i + 1 < n + 1 := hi ▸ interpPos_div_lt (Nat.add_lt_add_right hj 1) h0
    refine ⟨hin, ?_⟩
    rw [hnum]
    exact_mod_cast interpolate_main_segment inp s.last.t3 (Nat.add_lt_add_right hj 1) hi hin
  · obtain ⟨m, hm⟩ := Nat.exists_eq_add_of_le' hfour
    rw [hm]
    exact Tail.update_four inp m s.last
  all_goals
    intro h
    rw [h]
    rfl

/-- Settles O43: every sample by `interpSample_exact_mem_Icc`, as INTERP ran on a non-empty input. -/
theorem interpStaysBetween : Obligations.InterpStaysBetween := by
  intro s t c lo hi hnum hexec hc hlo hhi hinp y hy
  obtain ⟨-, hop⟩ := within_spec (exec_interp s ▸ hexec)
  obtain ⟨c', hc', h0, hle, rfl⟩ := interpOp_spec hop
  obtain rfl : c = c' := Option.some.inj (hc.symm.trans hc')
  simp only [mem_interpolate, hnum] at hy
  obtain ⟨j, hj, rfl⟩ := hy
  exact interpSample_exact_mem_Icc hj (by rwa [subChunkInput_length hle])
    (List.forall_mem_cons.mpr ⟨⟨hlo, hhi⟩, hinp⟩)

end Sys2Proof.Machine
end

section
/-! SUPPORT. ADOPT (48_sequencer.md rules R161, R166): what the row answers for each shape of the queue. -/

namespace Sys2Proof.Machine

open Sys2Proof

/-- R161, R166: at Top, with stop clear and no current chunk, ADOPT is that row. -/
theorem exec_adopt_of_top {s : State} (htop : s.ppos = .top) (hstop : s.stop = false)
    (hnone : s.currentChunk = none) : exec .adopt s = .next (rowAdopt s) := if_pos ⟨htop, hstop, hnone⟩

/-- R166, log 12: elsewhere it is no step. -/
theorem exec_adopt_elsewhere {s : State} (h : s.ppos ≠ .top ∨ s.stop = true ∨ s.currentChunk ≠ none) :
    exec .adopt s = .refused .notEnabled :=
  if_neg fun ⟨htop, hstop, hnone⟩ => by simp [htop, hstop, hnone] at h

/-- R161: an empty queue. -/
theorem rowAdopt_of_nil {s : State} (hnone : s.currentChunk = none) (hq : s.txQueue = []) :
    rowAdopt s = { s with emptyQueue := true, prodRet := .bool false } := by
  obtain ⟨-, hop⟩ | ⟨c, q, hcons, -⟩ := adoptOp_spec s
  · rw [rowAdopt, hop]
    exact if_pos hnone
  · simp [hq] at hcons

/-- R161, D28: an empty chunk is dropped, and PROD stays at Top. -/
theorem rowAdopt_of_empty_chunk {s : State} {c : Chunk} {q : List Chunk} (hq : s.txQueue = c :: q)
    (hc : c.samples = []) :
    rowAdopt s = { s with
      txQueue := q
      emptyQueue := false
      currentChunk := none
      subChunkOffset := 0
      fmPhase := .rat 0
      prepared := false
      prodRet := .bool true } := by
  obtain ⟨hnil, -⟩ | ⟨c', q', hcons, hcase⟩ := adoptOp_spec s
  · simp [hq] at hnil
  · obtain ⟨rfl, rfl⟩ : c = c' ∧ q = q' := by simpa [hq] using hcons
    obtain ⟨-, hop⟩ | ⟨x, xs, hx, -⟩ := hcase
    · rw [rowAdopt, hop]
      exact if_pos rfl
    · simp [hc] at hx

/-- R135, R161: any other chunk becomes the current one, and PROD goes to First. -/
theorem rowAdopt_of_chunk {s : State} {c : Chunk} {q : List Chunk} {x : RealNum} {xs : List RealNum}
    (hq : s.txQueue = c :: q) (hc : c.samples = x :: xs) :
    rowAdopt s = { s with
      txQueue := q
      emptyQueue := false
      currentChunk := some c
      subChunkOffset := 0
      fmPhase := .rat 0
      prepared := false
      last := ⟨x, x, x, x⟩
      prodRet := .bool true
      ppos := .first } := by
  obtain ⟨hnil, -⟩ | ⟨c', q', hcons, hcase⟩ := adoptOp_spec s
  · simp [hq] at hnil
  · obtain ⟨rfl, rfl⟩ : c = c' ∧ q = q' := by simpa [hq] using hcons
    obtain ⟨hx, -⟩ | ⟨x', xs', hx, hop⟩ := hcase
    · simp [hc] at hx
    · obtain ⟨rfl, -⟩ : x = x' ∧ xs = xs' := by simpa [hc] using hx
      rw [rowAdopt, hop]
      exact if_neg (Option.some_ne_none c)

/-- Settles O53: the three shapes of the queue. -/
theorem adoptTakesTheFront : Obligations.AdoptTakesTheFront := by
  refine fun s => ⟨fun htop hstop hnone => ?_, exec_adopt_elsewhere⟩
  rw [exec_adopt_of_top htop hstop hnone]
  exact ⟨fun hq => congrArg _ (rowAdopt_of_nil hnone hq), fun r q hq => congrArg _ (rowAdopt_of_empty_chunk hq rfl),
    fun x xs r q hq => congrArg _ (rowAdopt_of_chunk hq rfl)⟩

end Sys2Proof.Machine
end

section
/-! SUPPORT. MODIQ in FM (46_iq_modulator.md rules R140 to R144, R147): the phase after each number of samples, as one
sequence that starts at `FMPhase`. -/

namespace Sys2Proof.Machine

open Sys2Proof

/-! ### The phase sequence (R143, R147) -/

/-- R147: the device rate is given in Hz, the deviation in kHz. -/
theorem stepTurns_real {rate : Word} (h : rate ≠ 0#32) (dev : RealNum) :
    (stepTurns dev rate).real = dev.real * 1000 / (rate.toNat : ℝ) := by
  rw [stepTurns, if_neg h, times_real, RealNum.real_rat]
  push_cast
  ring

/-- R143: the phase, in turns, after the first `k` of the samples `xs`; `p` is the phase before them. -/
def phaseAfter (c : Cfg) (rate : Word) (p : RealNum) (xs : List RealNum) (k : Nat) : RealNum :=
  (p :: fmPhases c rate p xs).getD k (.rat 0)

section Phase

variable (c : Cfg) (rate : Word) (p : RealNum) (xs : List RealNum)

theorem phaseAfter_zero : phaseAfter c rate p xs 0 = p := rfl

theorem phaseAfter_succ_eq_getD (k : Nat) :
    phaseAfter c rate p xs (k + 1) = (fmPhases c rate p xs).getD k (.rat 0) := rfl

variable {k : Nat} (hk : k < xs.length)

include hk in
/-- The phases that MODIQ computes are the sequence without its start. -/
theorem fmPhases_getElem?_eq_phaseAfter :
    (fmPhases c rate p xs)[k]? = some (phaseAfter c rate p xs (k + 1)) := by
  rw [← fmPhases_length c rate xs p] at hk
  rw [phaseAfter_succ_eq_getD, List.getD_eq_getElem?_getD, List.getElem?_eq_getElem hk, Option.getD_some]

include hk in
theorem phaseAfter_succ_range : -(1 / 2) < (phaseAfter c rate p xs (k + 1)).real ∧
    (phaseAfter c rate p xs (k + 1)).real ≤ 1 / 2 :=
  fmPhases_range c rate xs p _ (List.mem_of_getElem? (fmPhases_getElem?_eq_phaseAfter c rate p xs hk))

include hk in
/-- R143: in exact arithmetic a phase is the one before it, stepped and wrapped. -/
theorem phaseAfter_succ_exact (hnum : c.num = .exact) : phaseAfter c rate p xs (k + 1) =
    wrapped (plus (phaseAfter c rate p xs k)
      (times (stepTurns c.fmDeviationKHz rate) (clipGain .exact c.localGain (xs.getD k (.rat 0))))) := by
  have hstep := fmPhases_getElem? c rate hnum xs p k hk
  rw [fmPhases_getElem?_eq_phaseAfter c rate p xs hk] at hstep
  rw [Option.some.inj hstep]
  cases k with
  | zero => rfl
  | succ k => rfl

/-- `FMPhase` ends at the last phase of the sequence. -/
theorem fmPhases_getLastD : (fmPhases c rate p xs).getLastD p = phaseAfter c rate p xs xs.length := by
  rw [phaseAfter, ← fmPhases_length c rate xs p, List.getD_eq_getElem?_getD]
  cases fmPhases c rate p xs with
  | nil => rfl
  | cons y ys => simp [List.getLastD_eq_getLast?, List.getLast?_eq_getElem?]

end Phase

/-- R141, R143: the same over the reals. -/
theorem phaseAfter_succ_real {c : Cfg} (hnum : c.num = .exact) (rate : Word) (p : RealNum) {xs : List RealNum}
    {k : Nat} {x : RealNum} (hx : xs[k]? = some x) :
    ∃ z : Int, (phaseAfter c rate p xs (k + 1)).real = (phaseAfter c rate p xs k).real
      + (stepTurns c.fmDeviationKHz rate).real * max (-1) (min 1 (x.real * c.localGain.real)) + (z : ℝ) := by
  obtain ⟨hk, -⟩ := List.getElem?_eq_some_iff.mp hx
  rw [phaseAfter_succ_exact c rate p xs hk hnum, List.getD_eq_getElem?_getD, hx, Option.getD_some]
  obtain ⟨z, hz⟩ := wrapped_congr (plus (phaseAfter c rate p xs k)
    (times (stepTurns c.fmDeviationKHz rate) (clipGain .exact c.localGain x)))
  refine ⟨z, hz.trans ?_⟩
  rw [plus_real, times_real, clipGain, clipped_real, Num.mul, times_real]

/-! ### What the operation answers -/

theorem exec_modiq (s : State) : exec .modiq s = execModiq s := rfl

/-- R140, R143, R144: with a sub-chunk in `ibuf` MODIQ in FM completes, in every numerics. -/
theorem exec_modiq_fm {s : State} (hpos : s.ppos = .first ∨ s.ppos = .next) (hlen : s.ibuf.length = bufLen)
    (ham : s.cfg.am = false) :
    exec .modiq s = .next { s with
      iq := (fmPhases s.cfg s.deviceSampleRate s.fmPhase s.ibuf).flatMap (fmPair s.cfg.num)
      fmPhase := phaseAfter s.cfg s.deviceSampleRate s.fmPhase s.ibuf bufLen } := by
  obtain ⟨t, hop⟩ := modiqOp_ok hlen
  obtain ⟨-, ht, -, -, -, -, hfm⟩ := modiqOp_spec hop
  obtain ⟨hiq, hphase⟩ := hfm ham
  rw [fmPhases_getLastD, hlen] at hphase
  rw [exec_modiq, execModiq, within_of_mem (by simpa using hpos), hop, ht, hiq, hphase]
  rfl

theorem fmIq_length (c : Cfg) (rate : Word) (p : RealNum) (xs : List RealNum) :
    ((fmPhases c rate p xs).flatMap (fmPair c.num)).length = 2 * xs.length := by
  rw [flatMap_two_length (fmPair_length _), fmPhases_length]

/-- R144: the pair of sample `k` is that of the phase after it. -/
theorem fmIq_getElem? (c : Cfg) (rate : Word) (p : RealNum) {xs : List RealNum} {k j : Nat} (hk : k < xs.length)
    (hj : j < 2) : ((fmPhases c rate p xs).flatMap (fmPair c.num))[2 * k + j]? =
      (fmPair c.num (phaseAfter c rate p xs (k + 1)))[j]? := by
  rw [flatMap_two_getElem? (fmPair_length _) _ k j hj, fmPhases_getElem?_eq_phaseAfter c rate p xs hk]
  rfl

/-- Settles O45: the phases are `phaseAfter`, the pairs those of `fmPair`. -/
theorem modiqFm : Obligations.ModiqFm := by
  refine ⟨fun s hpos hlen ham hnum => ?_, fun s hpos hlen ham => ?_⟩
  · refine ⟨_, phaseAfter s.cfg s.deviceSampleRate s.fmPhase s.ibuf,
      (stepTurns s.cfg.fmDeviationKHz s.deviceSampleRate).real, fun hrate => stepTurns_real hrate _,
      exec_modiq_fm hpos hlen ham, (fmIq_length ..).trans (congrArg (2 * ·) hlen), phaseAfter_zero .., ?_⟩
    intro k hk
    rw [← hlen] at hk
    obtain ⟨hlow, hhigh⟩ := phaseAfter_succ_range s.cfg s.deviceSampleRate s.fmPhase s.ibuf hk
    have hx := List.getElem?_eq_getElem hk
    have hpair (j : Nat) (hj : j < 2) := fmIq_getElem? s.cfg s.deviceSampleRate s.fmPhase hk hj
    simp only [hnum] at hpair ⊢
    exact ⟨_, _, _, hx, hlow, hhigh, phaseAfter_succ_real hnum _ _ hx, hpair 0 (by decide), hpair 1 (by decide),
      RealVal.real_sinTurns _, RealVal.real_cosTurns _⟩
  · refine ⟨_, _, exec_modiq_fm hpos hlen ham, (fmIq_length ..).trans (congrArg (2 * ·) hlen), ?_⟩
    exact phaseAfter_succ_range _ _ _ _ (k := 262143) (by omega)

end Sys2Proof.Machine
end

section
/-! SUPPORT. Who writes `FMPhase` (46_iq_modulator.md rule R146, R191): one frame lemma for each operation that leaves
it, and for START, ADOPT, MODIQ, PREPARE and the rows of PROCESS when they do not. -/

namespace Sys2Proof.Machine

open Sys2Proof

/-! ### Outcomes that keep the phase -/

/-- If there is a next state, it has the FM phase of `s`. -/
def KeepsPhase (s : State) (o : Host.Outcome State Fault Refusal) : Prop :=
  ∀ t, o = .next t → t.fmPhase = s.fmPhase

theorem outcome_eq_next {r : Res State} {t : State} : Res.outcome r = .next t ↔ r = .ok t := by
  rcases r with (_ | _) | _ <;> simp [Res.outcome]

/-- A computation completes when its parts do, one after the other. -/
theorem res_bind_eq_ok {α β : Type} {r : Res α} {f : α → Res β} {b : β} (h : r >>= f = .ok b) :
    ∃ a, r = .ok a ∧ f a = .ok b := by
  cases r with
  | error halt => cases h
  | ok a => exact ⟨a, rfl, h⟩

section Outcomes

variable {s t : State} {o o' : Host.Outcome State Fault Refusal} {r : Res State}

theorem keepsPhase_next (h : t.fmPhase = s.fmPhase) : KeepsPhase s (.next t) := by
  rintro _ ⟨⟩
  exact h

theorem keepsPhase_fault (f : Fault) : KeepsPhase s (.fault f) :=
  fun _ h => by cases h

theorem keepsPhase_refused (f : Refusal) : KeepsPhase s (.refused f) :=
  fun _ h => by cases h

theorem keepsPhase_ite {c : Prop} [Decidable c] (h : KeepsPhase s o) (h' : KeepsPhase s o') :
    KeepsPhase s (if c then o else o') := by
  split
  · exact h
  · exact h'

theorem keepsPhase_outcome (h : ∀ t, r = .ok t → t.fmPhase = s.fmPhase) : KeepsPhase s (Res.outcome r) :=
  fun t ht => h t (outcome_eq_next.mp ht)

end Outcomes

/-! ### The encoder (R191) -/

section Encoder

variable (s : State)

theorem execBuildNum_keepsPhase (msg : List Byte) : KeepsPhase s (execBuildNum msg s) := by
  rw [execBuildNum]
  split <;> exact keepsPhase_next rfl

/-- FSKMOD, alone and inside ENCODE, delivers samples and sets encoder registers. -/
theorem fskRun_keepsPhase (framed : List Byte) (bps : Bps) (rate : Nat) (e : Enc) :
    KeepsPhase s (Res.outcome (do
      let e' ← fskRun framed bps rate e
      pure ((s.setEnc e').setHostRet (.audio e'.pcm e'.pcm.length)))) := by
  refine keepsPhase_outcome fun t ht => ?_
  obtain ⟨e', -, ⟨⟩⟩ := res_bind_eq_ok ht
  rfl

theorem encodeResult_keepsPhase (rawOnly : Bool) (bps : Bps) (e : Enc) :
    KeepsPhase s (encodeResult rawOnly bps e s) :=
  keepsPhase_ite (keepsPhase_next rfl) (fskRun_keepsPhase s _ _ _ _)

theorem execEncode_keepsPhase (address : Nat) (type : MsgType) (text : List Byte) (bps : Bps) (charset : Charset)
    (function : BitVec 2) (rawOnly : Bool) :
    KeepsPhase s (execEncode address type text bps charset function rawOnly s) := by
  refine keepsPhase_ite (keepsPhase_next rfl) ?_
  split
  · exact keepsPhase_next rfl
  · exact keepsPhase_refused _
  · exact keepsPhase_ite (keepsPhase_next rfl) (encodeResult_keepsPhase s _ _ _)

theorem exec_encoderOp_keepsPhase {i : Instr} (h : isEncoderOp i = true) : KeepsPhase s (exec i s) := by
  cases i with
  | sign _ => exact keepsPhase_ite (keepsPhase_refused _) (keepsPhase_next rfl)
  | read32le _ _ => exact keepsPhase_ite (keepsPhase_next rfl) (keepsPhase_fault _)
  | mkmsg _ _ _ _ => exact keepsPhase_ite (keepsPhase_fault _) (keepsPhase_next rfl)
  | recodeCyr _ => exact keepsPhase_refused _
  | buildNum msg => exact execBuildNum_keepsPhase s msg
  | encode _ _ _ _ _ _ _ => exact execEncode_keepsPhase s _ _ _ _ _ _ _
  | fskmod _ _ => exact fskRun_keepsPhase s _ _ _ _
  | sync | idle | message _ _ _ | address _ _ _ _ | revbits _ _ | bchrem _ | parity _ | emit32le _ _ | recodeRaw _
  | recodeLatin _ | buildAlpha _ | mkaddr _ _ | mkidle | mksync => exact keepsPhase_next rfl
  | _ => cases h

end Encoder

/-! ### The streaming operations that do not write the phase -/

theorem interpOp_fmPhase {s t : State} (h : interpOp s = .ok t) : t.fmPhase = s.fmPhase := by
  obtain ⟨c, -, -, -, rfl⟩ := interpOp_spec h
  rfl

theorem publishOp_fmPhase {half : Fin 2} {s t : State} (h : publishOp half s = .ok t) : t.fmPhase = s.fmPhase := by
  obtain ⟨-, -, rfl⟩ := publishOp_spec h
  rfl

theorem drainOp_fmPhase {len : Word} {s t : State} (h : drainOp len s = .ok t) : t.fmPhase = s.fmPhase := by
  obtain ⟨-, ⟨-, rfl⟩ | ⟨-, bs, -, rfl⟩⟩ := drainOp_spec h <;> rfl

@[simp] theorem State.tellSome_fmPhase (c : Option DevCmd) (s : State) : (s.tellSome c).fmPhase = s.fmPhase := by
  cases c <;> rfl

theorem rowPub_fmPhase {half : Fin 2} {s t : State} (h : rowPub half s = .ok t) : t.fmPhase = s.fmPhase := by
  obtain ⟨s', hpub, ⟨⟩⟩ := res_bind_eq_ok h
  exact (State.goto_fmPhase _ _).trans (publishOp_fmPhase hpub)

/-- R191: the operations outside the encoder that leave the phase in every state. -/
theorem exec_streamingOp_keepsPhase {i : Instr} (s : State) (h : isEncoderOp i = false)
    (hwriter : i ∉ [Instr.start, .adopt, .modiq, .prepare, .process]) : KeepsPhase s (exec i s) := by
  cases i with
  | interp => exact fun t ht => interpOp_fmPhase (within_spec ht).2
  | quant v => exact keepsPhase_ite (keepsPhase_next rfl) (keepsPhase_refused _)
  | publish half =>
    exact keepsPhase_ite (keepsPhase_outcome fun _ => rowPub_fmPhase) (keepsPhase_refused _)
  | drain len => exact keepsPhase_outcome fun _ => drainOp_fmPhase
  | stop => exact keepsPhase_ite (keepsPhase_next rfl) (keepsPhase_next rfl)
  | setcfg w =>
    exact keepsPhase_ite (keepsPhase_next rfl)
      (keepsPhase_ite (keepsPhase_refused _) (keepsPhase_next (State.tellSome_fmPhase _ _)))
  | push _ | isidle | waitend _ | waitidle _ => exact keepsPhase_next rfl
  | start | adopt | modiq | prepare | process => simp at hwriter
  | _ => cases h

/-! ### The rows of the producer (R166) -/

theorem adoptOp_fmPhase (s : State) : (adoptOp s).fmPhase = s.fmPhase ∨ (adoptOp s).fmPhase = .rat 0 := by
  obtain ⟨-, hop⟩ | ⟨c, q, -, ⟨-, hop⟩ | ⟨x, xs, -, hop⟩⟩ := adoptOp_spec s
  · exact .inl (by rw [hop])
  · exact .inr (by rw [hop])
  · exact .inr (by rw [hop])

theorem rowAdopt_fmPhase (s : State) : (rowAdopt s).fmPhase = s.fmPhase ∨ (rowAdopt s).fmPhase = .rat 0 := by
  have hrow : (rowAdopt s).fmPhase = (adoptOp s).fmPhase := by
    rw [rowAdopt]
    split <;> rfl
  exact hrow ▸ adoptOp_fmPhase s

theorem rowTop_fmPhase (s : State) : (rowTop s).fmPhase = s.fmPhase ∨ (rowTop s).fmPhase = .rat 0 := by
  rw [rowTop]
  split
  · exact .inl rfl
  · split
    · exact .inl rfl
    · exact rowAdopt_fmPhase s

theorem rowBoot_fmPhase (s : State) : (rowBoot s).fmPhase = s.fmPhase := by
  rw [rowBoot]
  split
  · dsimp only
    split <;> rfl
  · rfl

theorem rowWait_fmPhase (s : State) : (rowWait s).fmPhase = s.fmPhase := by
  rw [rowWait]
  split
  · rfl
  · split
    · dsimp only
      split
      · rfl
      · split <;> rfl
    · rfl

theorem rowEndWait_fmPhase (s : State) : (rowEndWait s).fmPhase = s.fmPhase := by
  rw [rowEndWait]
  split
  · rfl
  · split
    · dsimp only
      split <;> rfl
    · rfl

theorem rowExit_fmPhase (s : State) : (rowExit s).fmPhase = s.fmPhase := by
  rw [rowExit]
  split
  · dsimp only
    split <;> rfl
  · split
    · split
      · dsimp only
        split <;> rfl
      · rfl
    · rfl

/-! ### The steps that modulate -/

section Modulation

variable {s t : State}

theorem modiqOp_am_fmPhase (ham : s.cfg.am = true) (h : modiqOp s = .ok t) : t.fmPhase = s.fmPhase := by
  obtain ⟨-, -, -, -, -, hkeep, -⟩ := modiqOp_spec h
  exact (hkeep ham).1

theorem prepareOp_am_fmPhase {r : Bool × State} (ham : s.cfg.am = true) (h : prepareOp s = .ok r) :
    r.2.fmPhase = s.fmPhase := by
  obtain ⟨c, -, ⟨-, rfl⟩ | ⟨-, t, count, rfl, -, -, -, -, -, -, -, hkeep⟩⟩ := prepareOp_spec h
  · rfl
  · exact hkeep ham

theorem rowFirst_am_fmPhase (ham : s.cfg.am = true) (h : rowFirst s = .ok t) : t.fmPhase = s.fmPhase := by
  obtain ⟨r, hprep, ⟨⟩⟩ := res_bind_eq_ok h
  exact prepareOp_am_fmPhase ham hprep

theorem rowNext_am_fmPhase (ham : s.cfg.am = true) (h : rowNext s = .ok t) : t.fmPhase = s.fmPhase := by
  obtain ⟨r, hprep, hgo⟩ := res_bind_eq_ok h
  have hkeep := prepareOp_am_fmPhase ham hprep
  split at hgo <;> cases hgo <;> exact hkeep

end Modulation

/-! ### The five writers -/

/-- R143, R191, log 12: the states in which a step of PROD may move the phase. -/
def ModulatesFm (s : State) : Prop := (s.ppos = .first ∨ s.ppos = .next) ∧ s.cfg.am = false

/-- At the two rows of MODIQ, not to modulate FM is to modulate AM. -/
theorem am_of_not_modulatesFm {s : State} (h : ¬ModulatesFm s) (hpos : s.ppos = .first ∨ s.ppos = .next) :
    s.cfg.am = true := by
  rw [← Bool.not_eq_false]
  exact fun ham => h ⟨hpos, ham⟩

section Writers

variable {s t : State}

theorem exec_start_fmPhase (h : exec .start s = .next t) : t.fmPhase = s.fmPhase ∨ t.fmPhase = .rat 0 := by
  change execStart s = _ at h
  rw [execStart] at h
  split at h <;> cases h
  · exact .inr rfl
  · exact .inl rfl

theorem exec_adopt_fmPhase (h : exec .adopt s = .next t) : t.fmPhase = s.fmPhase ∨ t.fmPhase = .rat 0 := by
  change execAdopt s = _ at h
  rw [execAdopt] at h
  split at h <;> cases h
  exact rowAdopt_fmPhase s

/-- R141, R191: in AM, and everywhere but at First and Next, MODIQ leaves the phase. -/
theorem exec_modiq_keepsPhase (h : ¬ModulatesFm s) : KeepsPhase s (exec .modiq s) := by
  intro t ht
  obtain ⟨hpos, hop⟩ := within_spec (exec_modiq s ▸ ht)
  exact modiqOp_am_fmPhase (am_of_not_modulatesFm h (by simpa using hpos)) hop

theorem exec_prepare_keepsPhase (h : ¬ModulatesFm s) : KeepsPhase s (exec .prepare s) := by
  change KeepsPhase s (execPrepare s)
  rw [execPrepare]
  split
  · next hpos => exact keepsPhase_outcome fun _ => rowFirst_am_fmPhase (am_of_not_modulatesFm h (.inl hpos))
  · split
    · next hpos => exact keepsPhase_outcome fun _ => rowNext_am_fmPhase (am_of_not_modulatesFm h (.inr hpos))
    · exact keepsPhase_refused _

/-- R166, log 13: but for the modulation in FM, PROCESS writes the phase in row Top alone, and there resets it. -/
theorem exec_process_fmPhase (h : ¬ModulatesFm s) (hexec : exec .process s = .next t) :
    t.fmPhase = s.fmPhase ∨ t.fmPhase = .rat 0 ∧ s.ppos = .top := by
  have hrow : prodRow s = .ok t := outcome_eq_next.mp hexec
  rw [prodRow] at hrow
  cases hpos : s.ppos <;> rw [hpos] at hrow
  case off => cases hrow; exact .inl rfl
  case boot => cases hrow; exact .inl (rowBoot_fmPhase s)
  case top => cases hrow; exact (rowTop_fmPhase s).imp_right (⟨·, rfl⟩)
  case first => exact .inl (rowFirst_am_fmPhase (am_of_not_modulatesFm h (.inl hpos)) hrow)
  case wait => cases hrow; exact .inl (rowWait_fmPhase s)
  case pub0 => exact .inl (rowPub_fmPhase hrow)
  case pub1 => exact .inl (rowPub_fmPhase hrow)
  case next => exact .inl (rowNext_am_fmPhase (am_of_not_modulatesFm h (.inr hpos)) hrow)
  case endWait => cases hrow; exact .inl (rowEndWait_fmPhase s)
  case exit => cases hrow; exact .inl (rowExit_fmPhase s)

end Writers

/-- Settles O13: START and ADOPT reset the phase, MODIQ, PREPARE and PROCESS write it where they modulate FM, PROCESS
resets it at Top, and every other operation leaves it. -/
theorem phaseResetOnlyAtAdoptAndStart : Obligations.PhaseResetOnlyAtAdoptAndStart := by
  intro i s t hexec hne
  by_cases hwriter : i ∈ [Instr.start, .adopt, .modiq, .prepare, .process]
  · simp only [List.mem_cons, List.not_mem_nil, or_false] at hwriter
    obtain rfl | rfl | rfl | rfl | rfl := hwriter
    · exact .inl ⟨(exec_start_fmPhase hexec).resolve_left hne, .inl rfl⟩
    · exact .inl ⟨(exec_adopt_fmPhase hexec).resolve_left hne, .inr (.inl rfl)⟩
    · exact .inr ⟨.inl rfl, by_contra fun h => hne (exec_modiq_keepsPhase h t hexec)⟩
    · exact .inr ⟨.inr (.inl rfl), by_contra fun h => hne (exec_prepare_keepsPhase h t hexec)⟩
    · by_cases hfm : ModulatesFm s
      · exact .inr ⟨.inr (.inr rfl), hfm⟩
      · obtain ⟨hreset, htop⟩ := (exec_process_fmPhase hfm hexec).resolve_left hne
        exact .inl ⟨hreset, .inr (.inr ⟨rfl, htop⟩)⟩
  · cases henc : isEncoderOp i with
    | true => exact absurd (exec_encoderOp_keepsPhase s henc t hexec) hne
    | false => exact absurd (exec_streamingOp_keepsPhase s henc hwriter t hexec) hne

end Sys2Proof.Machine
end

section
/-! SUPPORT. PUBLISH and DRAIN (47_quantizer_ring.md rules R149 to R155): when each completes and with which next state,
when it stops, and the bytes of the slot that was written or read. -/

namespace Sys2Proof.Machine

open Sys2Proof

/-! ### The slots (R48) -/

theorem slotBase_eq (i : BitVec 8) : slotBase i = i.toNat * 524288 := rfl

/-- R48, R150: a write of one slot's bytes leaves every other slot. -/
theorem Memory.read_write_otherSlot {i j : BitVec 8} (hij : i ≠ j) (m : Memory) {bs : List Byte}
    (hbs : bs.length ≤ slotCap) {a : Nat} (ha : a < slotCap) :
    Memory.read (Memory.write m (slotBase j) bs) (slotBase i + a) = Memory.read m (slotBase i + a) := by
  have hne : i.toNat ≠ j.toNat := fun h => hij (BitVec.eq_of_toNat_eq h)
  simp only [slotBase_eq, slotCap] at *
  rcases Nat.lt_or_gt_of_ne hne with h | h
  · exact Memory.read_write_of_lt (by omega)
  · exact Memory.read_write_of_ge (by omega)

/-- R150: the bytes of a slot that was written. -/
theorem Memory.read_write_sameSlot (m : Memory) (base : Nat) {bs : List Byte} {a : Nat} (ha : a < bs.length) :
    Memory.read (Memory.write m base bs) (base + a) = bs[a]? := by
  rw [Memory.read_write, if_pos (by omega), Nat.add_sub_cancel_left]

/-! ### The quantized half (R149, R150) -/

/-- R149, R150: what publication `h` writes. -/
def quantizedHalf (num : Num) (iq : List RealVal) (h : Fin 2) : List Byte := (iqHalf h iq).map (quantByte num)

section Half

variable (num : Num) {iq : List RealVal}

theorem quantizedHalf_length (hiq : iq.length = 2 * bufLen) (h : Fin 2) : (quantizedHalf num iq h).length = bufLen := by
  rw [quantizedHalf, List.length_map, iqHalf_length hiq]

/-- R149: byte `i` of half `h` is the quantized value at offset `h × BUF_LEN + i`. -/
theorem quantizedHalf_getElem? (h : Fin 2) {i : Nat} (hi : i < bufLen) :
    (quantizedHalf num iq h)[i]? = iq[h.val * bufLen + i]?.map (quantByte num) := by
  rw [quantizedHalf, iqHalf, List.getElem?_map, List.getElem?_take_of_lt hi, List.getElem?_drop]

/-- R149: the first half. -/
theorem quantizedHalf_zero : quantizedHalf num iq 0 = (iq.take bufLen).map (quantByte num) := by
  simp [quantizedHalf, iqHalf]

/-- R149: the second half is the rest. -/
theorem quantizedHalf_one (hiq : iq.length = 2 * bufLen) :
    quantizedHalf num iq 1 = (iq.drop bufLen).map (quantByte num) := by
  have hrest : (iq.drop bufLen).length ≤ bufLen := by
    rw [List.length_drop]
    omega
  simp [quantizedHalf, iqHalf, List.take_of_length_le hrest]

end Half

/-! ### PUBLISH -/

/-- R166: the row of publication `h`. -/
def pubRow (h : Fin 2) : Ppos := if h = 0 then .pub0 else .pub1

/-- R166: where PROD goes after publication `h`. -/
def pubNext (h : Fin 2) : Ppos := if h = 0 then .pub1 else .next

section Publish

variable {h : Fin 2} {s : State}

theorem exec_publish_of_row (hpos : s.ppos = pubRow h) : exec (.publish h) s = Res.outcome (rowPub h s) := if_pos hpos

/-- R150, R166: with room and a sub-chunk the row publishes. -/
theorem exec_publish_of_room (hpos : s.ppos = pubRow h) (hroom : s.fill ≠ bufNum) (hiq : s.iq.length = 2 * bufLen) :
    exec (.publish h) s = .next { s with
      ring := Memory.write s.ring (slotBase s.head) (quantizedHalf s.cfg.num s.iq h)
      head := s.head + 1#8
      fill := s.fill + 1
      ready := false
      prepared := if h = 1 then false else s.prepared
      ppos := pubNext h } := by
  rw [exec_publish_of_row hpos, rowPub, publishOp_ok hroom hiq]
  rfl

/-- R155. -/
theorem exec_publish_of_full (hpos : s.ppos = pubRow h) (hfull : s.fill = bufNum) :
    exec (.publish h) s = .refused .ringFull := by
  rw [exec_publish_of_row hpos, rowPub, publishOp, if_pos hfull]
  rfl

/-- R33. -/
theorem exec_publish_of_no_iq (hpos : s.ppos = pubRow h) (hroom : s.fill ≠ bufNum) (hiq : s.iq.length ≠ 2 * bufLen) :
    exec (.publish h) s = .fault .iqHoldsNoValue := by
  rw [exec_publish_of_row hpos, rowPub, publishOp, if_neg hroom, if_pos hiq]
  rfl

/-- Log 12. -/
theorem exec_publish_elsewhere (hpos : s.ppos ≠ pubRow h) : exec (.publish h) s = .refused .notEnabled := if_neg hpos

end Publish

/-- Settles O48: the ring after the publication is the one write of the quantized half to slot `head`. -/
theorem publishWritesTheSlot : Obligations.PublishWritesTheSlot := by
  refine fun h s => ⟨fun hpos hroom hiq => ?_, exec_publish_of_full, exec_publish_of_no_iq, exec_publish_elsewhere⟩
  have hlen : (quantizedHalf s.cfg.num s.iq h).length = 262144 := quantizedHalf_length _ hiq h
  refine ⟨_, exec_publish_of_room hpos hroom hiq, fun i hi => ?_, fun a ha => ?_,
    fun hwf => Memory.wf_write hwf _ _⟩
  · have hin : h.val * 262144 + i < s.iq.length := by omega
    have hbyte : (quantizedHalf s.cfg.num s.iq h)[i]? = _ := quantizedHalf_getElem? _ h hi
    refine ⟨_, List.getElem?_eq_getElem hin, ?_⟩
    rw [← slotBase_eq, Memory.read_write_sameSlot _ _ (hlen ▸ hi), hbyte]
    exact congrArg (Option.map _) (List.getElem?_eq_getElem hin)
  · rw [← slotBase_eq] at ha
    rcases ha with hbelow | habove
    · exact Memory.read_write_of_lt hbelow
    · exact Memory.read_write_of_ge (hlen ▸ habove)

/-! ### DRAIN -/

section Drain

variable {len : Word} {s : State}

theorem exec_drain (len : Word) (s : State) : exec (.drain len) s = Res.outcome (drainOp len s) := rfl

/-- R154, D23. -/
theorem exec_drain_of_too_long (hlen : slotCap < len.toNat) : exec (.drain len) s = .refused .drainTooLong := by
  rw [exec_drain, drainOp, if_pos hlen]
  rfl

/-- R153: the silence of an empty ring. -/
theorem exec_drain_of_empty (hlen : len.toNat ≤ slotCap) (hfill : s.fill = 0) :
    exec (.drain len) s = .next { s with dst := List.replicate len.toNat 0#8, consRet := .callback 0#32 } := by
  rw [exec_drain, drainOp, if_neg hlen.not_gt, if_pos hfill]
  rfl

/-- R152, R154: the bytes of the slot at `tail`, then free values (log 10). -/
theorem exec_drain_of_slot (hlen : len.toNat ≤ slotCap) (hfill : s.fill ≠ 0) {bs : List Byte}
    (hread : Memory.readMany s.ring (slotBase s.tail) (min len.toNat bufLen) = some bs) :
    exec (.drain len) s = .next { s with
      dst := bs ++ s.freeBytes (len.toNat - bufLen)
      consRet := .callback 0#32
      draws := s.draws + (len.toNat - bufLen)
      tail := s.tail + 1#8
      fill := s.fill - 1
      ready := if s.fill - 1 = 0 then true else s.ready } := by
  rw [exec_drain, drainOp, if_neg hlen.not_gt, if_neg hfill, hread]
  rfl

/-- R33. -/
theorem exec_drain_of_unwritten (hlen : len.toNat ≤ slotCap) (hfill : s.fill ≠ 0)
    (hread : Memory.readMany s.ring (slotBase s.tail) (min len.toNat bufLen) = none) :
    exec (.drain len) s = .fault .slotHoldsNoValue := by
  rw [exec_drain, drainOp, if_neg hlen.not_gt, if_neg hfill, hread]
  rfl

end Drain

/-- Settles O50: the two answers of DRAIN that read no slot. -/
theorem drainOfEmptyRingIsSilence : Obligations.DrainOfEmptyRingIsSilence :=
  fun _ _ => ⟨exec_drain_of_empty, exec_drain_of_too_long⟩

/-- R33: bytes one of which holds no value cannot be read. -/
theorem Memory.readMany_eq_none {m : Memory} {base n i : Nat} (hi : i < n) (hread : Memory.read m (base + i) = none) :
    Memory.readMany m base n = none := by
  rw [Option.eq_none_iff_forall_ne_some]
  intro bs hbs
  obtain ⟨hlen, hbytes⟩ := Memory.readMany_some hbs
  rw [hbytes i hi, List.getElem?_eq_none_iff] at hread
  omega

theorem State.freeBytes_length (n : Nat) (s : State) : (s.freeBytes n).length = n := by simp [State.freeBytes]

/-- Settles O49: by whether the bytes of the slot can be read. -/
theorem drainTakesTheSlot : Obligations.DrainTakesTheSlot := by
  refine fun len s hlen hfill => ⟨fun hheld => ?_, fun ⟨i, hi, hunwritten⟩ => ?_⟩
  · obtain ⟨bs, hread⟩ := Memory.readMany_isSome hheld
    obtain ⟨hbs, hbytes⟩ := Memory.readMany_some hread
    have hlast : s.fill - 1 = 0 ↔ s.fill = 1 := by omega
    refine ⟨bs ++ s.freeBytes (len.toNat - 262144), ?_, ?_, fun i hi => ?_⟩
    · simp only [exec_drain_of_slot hlen hfill hread, hlast]
      rfl
    · rw [List.length_append, hbs, State.freeBytes_length]
      omega
    · rw [List.getElem?_append_left (hbs ▸ hi), hbytes i hi]
  · exact exec_drain_of_unwritten hlen hfill (Memory.readMany_eq_none hi hunwritten)

end Sys2Proof.Machine
end

section
/-! SUPPORT. From the invariant PROD and the callback never fault (10_state.md rules R33, R38, R39; 48_sequencer.md
rules R162 to R169): PREPARE completes or is refused for a device rate above 32 bits, a publication has room and a
sub-chunk, the slot at `tail` holds its bytes. -/

namespace Sys2Proof.Machine

open Sys2Proof

/-! ### Computations whose only stop is the device rate (R163) -/

/-- It completes, or is refused for a device rate above 32 bits. -/
def RunsOrOverflows {α : Type} (r : Res α) : Prop := (∃ a, r = .ok a) ∨ r = .error (.refuse .deviceRateOverflow)

theorem runsOrOverflows_ok {α : Type} (a : α) : RunsOrOverflows (.ok a : Res α) := .inl ⟨a, rfl⟩

/-- What follows without a stop of its own adds none. -/
theorem RunsOrOverflows.bind {α β : Type} {r : Res α} {f : α → Res β} (h : RunsOrOverflows r)
    (hf : ∀ a, ∃ b, f a = .ok b) : RunsOrOverflows (r >>= f) := by
  rcases h with ⟨a, rfl⟩ | rfl
  · exact .inl (hf a)
  · exact .inr rfl

theorem RunsOrOverflows.outcome {r : Res State} (h : RunsOrOverflows r) :
    (∃ t, Res.outcome r = .next t) ∨ Res.outcome r = .refused .deviceRateOverflow := by
  rcases h with ⟨t, rfl⟩ | rfl
  · exact .inl ⟨t, rfl⟩
  · exact .inr rfl

/-! ### PREPARE -/

/-- R163: a device rate above 32 bits stops PREPARE. -/
theorem prepareOp_of_overflow {s : State} {c : Chunk} (hc : s.currentChunk = some c)
    (hleft : s.subChunkOffset < c.samples.length) (hrate : 4294967295 <
      deviceRate c.pcmRate (min s.cfg.subChunkSamples (c.samples.length - s.subChunkOffset))) :
    prepareOp s = .error (.refuse .deviceRateOverflow) := by
  simp only [prepareOp, hc, if_neg hleft.not_ge, setDeviceRate, if_pos hrate]
  rfl

/-- R162, R163: with a current chunk and a legal configuration the device rate is PREPARE's only stop. -/
theorem prepareOp_runsOrOverflows {s : State} (hc : s.currentChunk ≠ none)
    (hcfg : 1 ≤ s.cfg.subChunkSamples ∧ s.cfg.subChunkSamples ≤ bufLen) : RunsOrOverflows (prepareOp s) := by
  obtain ⟨c, hc⟩ := Option.ne_none_iff_exists'.mp hc
  by_cases hrate : s.subChunkOffset < c.samples.length →
      deviceRate c.pcmRate (min s.cfg.subChunkSamples (c.samples.length - s.subChunkOffset)) ≤ 4294967295
  · exact .inl (prepareOp_ok hc hcfg hrate)
  · obtain ⟨hleft, hover⟩ := Classical.not_imp.mp hrate
    exact .inr (prepareOp_of_overflow hc hleft (Int.not_le.mp hover))

/-- R166: row First moves on once PREPARE completes. -/
theorem rowFirst_runsOrOverflows {s : State} (h : RunsOrOverflows (prepareOp s)) : RunsOrOverflows (rowFirst s) :=
  h.bind fun _ => ⟨_, rfl⟩

/-- R165, R166: so does row Next, with or without a sub-chunk. -/
theorem rowNext_runsOrOverflows {s : State} (h : RunsOrOverflows (prepareOp s)) : RunsOrOverflows (rowNext s) := by
  refine h.bind fun r => ?_
  split <;> exact ⟨_, rfl⟩

/-! ### From the invariant -/

section Invariant

variable {s : State}

/-- R166: at rows First and Next there is a current chunk. -/
theorem State.Inv.prepare_runsOrOverflows (hinv : s.Inv) (hpos : s.ppos = .first ∨ s.ppos = .next) :
    RunsOrOverflows (prepareOp s) := by
  refine prepareOp_runsOrOverflows (hinv.posChunk ?_) hinv.cfgLegal.subChunkSamples
  rcases hpos with hpos | hpos <;> simp [Ppos.inChunk, hpos]

/-- R38, R169: the ring holds at most two slots, and at its row a publication has a sub-chunk. -/
theorem State.Inv.rowPub_runs (hinv : s.Inv) (hpos : s.ppos = .pub0 ∨ s.ppos = .pub1) (h : Fin 2) :
    ∃ t, rowPub h s = .ok t := by
  have hroom : s.fill ≠ bufNum := (Nat.lt_of_le_of_lt hinv.fillLe (by decide)).ne
  have hprepared : s.prepared = true := hinv.preparedAt (.inr hpos)
  obtain ⟨hiq, -⟩ := hinv.preparedHolds hprepared
  rw [rowPub, publishOp_ok hroom hiq]
  exact ⟨_, rfl⟩

theorem State.Inv.publish_runs (hinv : s.Inv) {h : Fin 2} (hpos : s.ppos = pubRow h) :
    ∃ t, exec (.publish h) s = .next t := by
  have hrow : s.ppos = .pub0 ∨ s.ppos = .pub1 := by
    rw [hpos, pubRow]
    split
    · exact .inl rfl
    · exact .inr rfl
  obtain ⟨t, ht⟩ := hinv.rowPub_runs hrow h
  exact ⟨t, by rw [exec_publish_of_row hpos, ht]; rfl⟩

/-- R166: of the rows only First and Next can stop. -/
theorem State.Inv.prodRow_runsOrOverflows (hinv : s.Inv) : RunsOrOverflows (prodRow s) := by
  rw [prodRow]
  cases hpos : s.ppos with
  | first => exact rowFirst_runsOrOverflows (hinv.prepare_runsOrOverflows (.inl hpos))
  | next => exact rowNext_runsOrOverflows (hinv.prepare_runsOrOverflows (.inr hpos))
  | pub0 => exact .inl (hinv.rowPub_runs (.inl hpos) 0)
  | pub1 => exact .inl (hinv.rowPub_runs (.inr hpos) 1)
  | off | boot | top | wait | endWait | exit => exact runsOrOverflows_ok _

/-- R163, log 12: PREPARE at its rows, and elsewhere. -/
theorem State.Inv.prepare_answers (hinv : s.Inv) :
    (∃ t, exec .prepare s = .next t) ∨ exec .prepare s = .refused .deviceRateOverflow ∨
      (exec .prepare s = .refused .notEnabled ∧ s.ppos ≠ .first ∧ s.ppos ≠ .next) := by
  change (∃ t, execPrepare s = _) ∨ execPrepare s = _ ∨ execPrepare s = _ ∧ _
  rw [execPrepare]
  split
  · next hpos =>
    exact (rowFirst_runsOrOverflows (hinv.prepare_runsOrOverflows (.inl hpos))).outcome.imp_right .inl
  · next hfirst =>
    split
    · next hpos =>
      exact (rowNext_runsOrOverflows (hinv.prepare_runsOrOverflows (.inr hpos))).outcome.imp_right .inl
    · next hnext => exact .inr (.inr ⟨rfl, hfirst, hnext⟩)

/-- R33: the slot at `tail` of a ring that is not empty was published. -/
theorem State.Inv.tailSlot_written (hinv : s.Inv) (hfill : s.fill ≠ 0) {a : Nat} (ha : a < bufLen) :
    (Memory.read s.ring (slotBase s.tail + a)).isSome := by
  simpa using hinv.slotsWritten 0 (Nat.pos_of_ne_zero hfill) a ha

theorem State.Inv.drain_runs (hinv : s.Inv) {len : Word} (hlen : len.toNat ≤ slotCap) :
    ∃ t, exec (.drain len) s = .next t := by
  obtain ⟨t, ht⟩ := drainOp_ok hlen fun hfill a ha =>
    hinv.tailSlot_written hfill (Nat.lt_of_lt_of_le ha (Nat.min_le_right _ _))
  exact ⟨t, outcome_eq_next.mpr ht⟩

end Invariant

/-- Settles O10: by what the invariant says of the rows First, Next, Pub0 and Pub1 and of the slot at `tail`. -/
theorem producerAndCallbackNeverFault : Obligations.ProducerAndCallbackNeverFault := fun _ hinv =>
  ⟨hinv.prodRow_runsOrOverflows.outcome, hinv.prepare_answers, hinv.publish_runs (h := 0), hinv.publish_runs (h := 1),
    fun _ => hinv.drain_runs⟩

end Sys2Proof.Machine
end

section
/-! SUPPORT. A prepared sub-chunk on its way to the device (47_quantizer_ring.md rules R149 to R156): the ring is a
queue of published slots, to which PUBLISH appends and from which a callback takes the front, or hears silence. -/

namespace Sys2Proof.Machine

open Sys2Proof

/-! ### The ring as a queue (R156) -/

/-- PROD stands at `p` with the sub-chunk `iq`, and the ring holds `slots`, oldest first. -/
structure Queued (num : Num) (iq : List RealVal) (p : Ppos) (slots : List (List Byte)) (s : State) : Prop where
  num_eq : s.cfg.num = num
  iq_eq : s.iq = iq
  ppos_eq : s.ppos = p
  fill_eq : s.fill = slots.length
  head_eq : s.head = s.tail + BitVec.ofNat 8 slots.length
  /-- R39. -/
  ready_eq : s.ready = slots.isEmpty
  slot_length : ∀ bs ∈ slots, bs.length = bufLen
  slot_bytes : ∀ k bs, slots[k]? = some bs → ∀ a < bufLen,
    Memory.read s.ring (slotBase (s.tail + BitVec.ofNat 8 k) + a) = bs[a]?

/-- R31: slots at different distances from `tail`, both within the ring, are different slots. -/
theorem add_ofNat_ne (i : BitVec 8) {k n : Nat} (hk : k < n) (hn : n < bufNum) :
    i + BitVec.ofNat 8 k ≠ i + BitVec.ofNat 8 n := by
  intro heq
  have hnat := congrArg BitVec.toNat (BitVec.add_right_inj i |>.mp heq)
  simp only [BitVec.toNat_ofNat, bufNum] at hnat hn
  omega

section Steps

variable {num : Num} {iq : List RealVal} {p : Ppos} {slots rest : List (List Byte)} {bs : List Byte} {s : State}

/-- R150: with room, PUBLISH appends the quantized half. -/
theorem Queued.publish {h : Fin 2} (hq : Queued num iq (pubRow h) slots s) (hiq : iq.length = 2 * bufLen)
    (hroom : slots.length < bufNum) : ∃ t, exec (.publish h) s = .next t ∧
      Queued num iq (pubNext h) (slots ++ [quantizedHalf num iq h]) t := by
  obtain ⟨rfl, rfl, hpos, hfill, hhead, -, hlen, hbytes⟩ := hq
  have hhalf := quantizedHalf_length s.cfg.num hiq h
  refine ⟨_, exec_publish_of_room hpos (hfill ▸ hroom.ne) hiq, rfl, rfl, rfl, ?_, ?_, ?_, ?_, ?_⟩
  · simp [hfill]
  · simp [hhead, BitVec.ofNat_add, BitVec.add_assoc]
  · simp
  · simpa [or_imp, forall_and, hhalf] using hlen
  · intro k slot hk a ha
    rcases Nat.lt_or_ge k slots.length with hold | hnew
    · rw [List.getElem?_append_left hold] at hk
      have hother := add_ofNat_ne s.tail hold hroom
      rw [← hhead] at hother
      exact (Memory.read_write_otherSlot hother _ (hhalf ▸ by decide) (ha.trans (by decide))).trans
        (hbytes k slot hk a ha)
    · rw [List.getElem?_append_right hnew, List.getElem?_singleton] at hk
      split at hk
      · next hzero =>
        cases hk
        rw [show k = slots.length by omega, ← hhead]
        exact Memory.read_write_sameSlot _ _ (hhalf ▸ ha)
      · cases hk

/-- R153: on an empty queue a callback hears silence. -/
theorem Queued.drain_nil {len : Word} (hq : Queued num iq p [] s) (hlen : len.toNat ≤ bufLen) :
    ∃ t, exec (.drain len) s = .next t ∧ t.dst = List.replicate len.toNat 0#8 ∧ Queued num iq p [] t := by
  have hcap : len.toNat ≤ slotCap := hlen.trans (by decide)
  obtain ⟨hnum, hiq, hpos, hfill, hhead, hready, hlength, hbytes⟩ := hq
  exact ⟨_, exec_drain_of_empty hcap hfill, rfl, hnum, hiq, hpos, hfill, hhead, hready, hlength, hbytes⟩

/-- R152: otherwise it hears the first `len` bytes of the front slot, which leaves the queue. -/
theorem Queued.drain_cons {len : Word} (hq : Queued num iq p (bs :: rest) s) (hlen : len.toNat ≤ bufLen) :
    ∃ t, exec (.drain len) s = .next t ∧ t.dst = bs.take len.toNat ∧ Queued num iq p rest t := by
  obtain ⟨hnum, hiq, hpos, hfill, hhead, hready, hlength, hbytes⟩ := hq
  have hbs : bs.length = bufLen := hlength bs List.mem_cons_self
  have hread : Memory.readMany s.ring (slotBase s.tail) (min len.toNat bufLen) = some (bs.take len.toNat) := by
    rw [← hbs, ← List.length_take]
    refine Memory.readMany_eq fun a ha => ?_
    obtain ⟨hlow, hin⟩ := Nat.lt_min.mp (List.length_take ▸ ha)
    rw [List.getElem?_take_of_lt hlow]
    simpa using hbytes 0 bs rfl a (hbs ▸ hin)
  have htail (k : Nat) : s.tail + 1#8 + BitVec.ofNat 8 k = s.tail + BitVec.ofNat 8 (k + 1) := by
    rw [BitVec.ofNat_add, BitVec.add_assoc, BitVec.add_comm 1#8]
  have hnonempty : s.fill ≠ 0 := by simp [hfill]
  refine ⟨_, exec_drain_of_slot (hlen.trans (by decide)) hnonempty hread, ?_, hnum, hiq, hpos, ?_, ?_, ?_,
    fun slot hslot => hlength slot (List.mem_cons_of_mem _ hslot), fun k slot hk a ha => ?_⟩
  · simp [Nat.sub_eq_zero_of_le hlen, State.freeBytes]
  · simp [hfill]
  · exact hhead.trans (htail rest.length).symm
  · cases rest <;> simp [hfill, hready]
  · exact (congrArg (fun i => Memory.read s.ring (slotBase i + a)) (htail k)).trans (hbytes (k + 1) slot hk a ha)

end Steps

/-! ### A row of callbacks -/

theorem callbacks_succ {len : Word} {s t : State} (h : exec (.drain len) s = .next t) (n : Nat) :
    callbacks len (n + 1) s = (callbacks len n t).map (fun r => (t.dst :: r.1, r.2)) := by
  rw [callbacks, h]

/-- R152, R153: what `n` callbacks of length `len` hear of the queue `slots`: its slots in order, then silence. -/
def heard (len n : Nat) (slots : List (List Byte)) : List (List Byte) :=
  (slots.take n).map (List.take len) ++ List.replicate (n - slots.length) (List.replicate len 0#8)

theorem heard_succ_nil (len n : Nat) : heard len (n + 1) [] = List.replicate len 0#8 :: heard len n [] := by
  simp [heard, List.replicate_succ]

theorem heard_succ_cons (len n : Nat) (bs : List Byte) (rest : List (List Byte)) :
    heard len (n + 1) (bs :: rest) = bs.take len :: heard len n rest := by
  simp [heard]

/-- R152, R153, R156: the callbacks take the slots in order. -/
theorem Queued.callbacks_heard {num : Num} {iq : List RealVal} {p : Ppos} {len : Word} (hlen : len.toNat ≤ bufLen) :
    ∀ {n : Nat} {slots : List (List Byte)} {s : State}, Queued num iq p slots s →
      ∃ t, callbacks len n s = some (heard len.toNat n slots, t) ∧ Queued num iq p (slots.drop n) t
  | 0, slots, s, hq => ⟨s, by simp [callbacks, heard], hq⟩
  | n + 1, [], s, hq => by
    obtain ⟨t, hstep, hdst, ht⟩ := hq.drain_nil hlen
    obtain ⟨u, hrun, hu⟩ := ht.callbacks_heard hlen (n := n)
    refine ⟨u, ?_, by simpa using hu⟩
    rw [callbacks_succ hstep, hrun, hdst, heard_succ_nil]
    rfl
  | n + 1, bs :: rest, s, hq => by
    obtain ⟨t, hstep, hdst, ht⟩ := hq.drain_cons hlen
    obtain ⟨u, hrun, hu⟩ := ht.callbacks_heard hlen (n := n)
    refine ⟨u, ?_, hu⟩
    rw [callbacks_succ hstep, hrun, hdst, heard_succ_cons]
    rfl

/-- Settles O51: the queue is empty, then holds the first half, then what the `b` callbacks left of it with the second
half behind; each run of callbacks is given what `heard` says of its queue. -/
theorem subChunkReachesTheDevice : Obligations.SubChunkReachesTheDevice := by
  intro s len a b c hpos hfill hready hheadTail hiq hlen hc hbc
  have hq : Queued s.cfg.num s.iq .pub0 [] s :=
    ⟨rfl, rfl, hpos, hfill, by simpa using hheadTail, hready, by simp, by simp⟩
  obtain ⟨s0, hrun0, hq0⟩ := hq.callbacks_heard hlen (n := a)
  rw [List.drop_nil] at hq0
  obtain ⟨p1, hpub0, hp1⟩ := Queued.publish (h := 0) hq0 hiq (by decide)
  obtain ⟨s1, hrun1, hq1⟩ := hp1.callbacks_heard hlen (n := b)
  obtain ⟨p2, hpub1, hp2⟩ := Queued.publish (h := 1) hq1 hiq
    (Nat.lt_of_le_of_lt (by simp) (by decide : 1 < bufNum))
  obtain ⟨s2, hrun2, hq2⟩ := hp2.callbacks_heard hlen (n := c)
  rw [List.drop_eq_nil_of_le (by simp; omega)] at hq2
  refine ⟨s0, p1, s1, p2, s2, _, _, _, (quantizedHalf s.cfg.num s.iq 0).take len.toNat,
    (quantizedHalf s.cfg.num s.iq 1).take len.toNat, _, congrArg (List.take len.toNat) (quantizedHalf_zero _),
    congrArg (List.take len.toNat) (quantizedHalf_one _ hiq), rfl, hrun0, hpub0, hrun1, hpub1, hrun2, ?_, ?_, ?_,
    hp1.ready_eq, ?_, ?_, hq2.ready_eq, hq2.fill_eq, by simpa using hq2.head_eq⟩
  · simp [heard]
  · intro hb
    obtain ⟨b, rfl⟩ := Nat.exists_eq_add_of_le' hb
    obtain ⟨c, rfl⟩ := Nat.exists_eq_add_of_le' hc
    simp [heard]
  · rintro rfl
    obtain ⟨c, rfl⟩ := Nat.exists_eq_add_of_le' (show 2 ≤ c by omega)
    simp [heard]
  · rw [hq1.ready_eq]
    cases b <;> simp
  · rw [hp2.ready_eq]
    simp

end Sys2Proof.Machine
end

section
/-! SUPPORT. The encodings (30_encoding.md rules R61 to R66, log 2): codewords are told apart, their fields read back,
every operand parser reads what its encoder wrote, and the other selectors name no operation. -/

namespace Sys2Proof

/-! ### The fields of a codeword (R64, R65) -/

/-- R65: a word with bit 31 set is the message codeword with its fields. -/
theorem messageWord_extract {w : Word} (h : w.getLsbD 31 = true) :
    messageWord (w.extractLsb' 11 20) (w.extractLsb' 1 10) (w.extractLsb' 0 1) = w := by
  have hflag : 1#1 = w.extractLsb' 31 1 := by
    ext i hi
    obtain rfl : i = 0 := by omega
    simpa using h
  unfold messageWord
  rw [hflag]
  simp only [BitVec.extractLsb'_append_extractLsb'_eq_extractLsb']
  exact BitVec.extractLsb'_eq_self

section Message

variable (data : BitVec 20) (bch : BitVec 10) (parity : BitVec 1)

theorem messageWord_type : (messageWord data bch parity).getLsbD 31 = true := by
  simp only [messageWord, BitVec.getLsbD_append]
  rfl

theorem messageWord_data : (messageWord data bch parity).extractLsb' 11 20 = data := by
  rw [messageWord, BitVec.extractLsb'_append_eq_of_le (by omega), BitVec.extractLsb'_append_eq_of_le (by omega)]
  exact BitVec.extractLsb'_append_eq_right

theorem messageWord_bch : (messageWord data bch parity).extractLsb' 1 10 = bch := by
  rw [messageWord, BitVec.extractLsb'_append_eq_of_le (by omega)]
  exact BitVec.extractLsb'_append_eq_right

theorem messageWord_parity : (messageWord data bch parity).extractLsb' 0 1 = parity :=
  BitVec.extractLsb'_append_eq_right

end Message

section Address

variable (addr : BitVec 18) (function : BitVec 2) (bch : BitVec 10) (parity : BitVec 1)

theorem addressWord_type : (addressWord addr function bch parity).getLsbD 31 = false := by
  simp only [addressWord, BitVec.getLsbD_append]
  rfl

theorem addressWord_addr : (addressWord addr function bch parity).extractLsb' 13 18 = addr := by
  rw [addressWord, BitVec.extractLsb'_append_eq_of_le (by omega), BitVec.extractLsb'_append_eq_of_le (by omega),
    BitVec.extractLsb'_append_eq_of_le (by omega)]
  exact BitVec.extractLsb'_append_eq_right

theorem addressWord_function : (addressWord addr function bch parity).extractLsb' 11 2 = function := by
  rw [addressWord, BitVec.extractLsb'_append_eq_of_le (by omega), BitVec.extractLsb'_append_eq_of_le (by omega)]
  exact BitVec.extractLsb'_append_eq_right

theorem addressWord_bch : (addressWord addr function bch parity).extractLsb' 1 10 = bch := by
  rw [addressWord, BitVec.extractLsb'_append_eq_of_le (by omega)]
  exact BitVec.extractLsb'_append_eq_right

theorem addressWord_parity : (addressWord addr function bch parity).extractLsb' 0 1 = parity :=
  BitVec.extractLsb'_append_eq_right

end Address

/-! ### Telling codewords apart (R66) -/

theorem syncCw_type : syncCw.getLsbD 31 = false := by decide

theorem idleCw_type : idleCw.getLsbD 31 = false := by decide

theorem decodeCodeword_sync : decodeCodeword syncCw = .sync := if_pos rfl

theorem decodeCodeword_idle : decodeCodeword idleCw = .idle := by
  rw [decodeCodeword, if_neg (by decide), if_pos rfl]

/-- R66: bit 31 tells a message from the three other rows. -/
theorem decodeCodeword_of_message {w : Word} (h : w.getLsbD 31 = true) :
    decodeCodeword w = .message (w.extractLsb' 11 20) (w.extractLsb' 1 10) (w.extractLsb' 0 1) := by
  have hsync : w ≠ syncCw := by
    rintro rfl
    rw [syncCw_type] at h
    cases h
  have hidle : w ≠ idleCw := by
    rintro rfl
    rw [idleCw_type] at h
    cases h
  rw [decodeCodeword, if_neg hsync, if_neg hidle, if_pos h]

/-- R66: what is left is an address. -/
theorem decodeCodeword_of_address {w : Word} (hsync : w ≠ syncCw) (hidle : w ≠ idleCw) (h : w.getLsbD 31 = false) :
    decodeCodeword w =
      .address (w.extractLsb' 13 18) (w.extractLsb' 11 2) (w.extractLsb' 1 10) (w.extractLsb' 0 1) := by
  rw [decodeCodeword, if_neg hsync, if_neg hidle, if_neg (Bool.eq_false_iff.mp h)]

theorem decodeCodeword_messageWord (data : BitVec 20) (bch : BitVec 10) (parity : BitVec 1) :
    decodeCodeword (messageWord data bch parity) = .message data bch parity := by
  rw [decodeCodeword_of_message (messageWord_type ..), messageWord_data, messageWord_bch, messageWord_parity]

theorem decodeCodeword_addressWord {addr : BitVec 18} {function : BitVec 2} {bch : BitVec 10} {parity : BitVec 1}
    (h : (Instr.address addr function bch parity).wellFormed = true) :
    decodeCodeword (addressWord addr function bch parity) = .address addr function bch parity := by
  obtain ⟨hsync, hidle⟩ := Bool.and_eq_true_iff.mp h
  have hsync := of_decide_eq_true hsync
  have hidle := of_decide_eq_true hidle
  rw [decodeCodeword_of_address hsync hidle (addressWord_type ..), addressWord_addr, addressWord_function,
    addressWord_bch, addressWord_parity]

/-- R66: no bit of a word is lost. -/
theorem encode_decodeCodeword (w : Word) : encode (decodeCodeword w) = putCodeword w := by
  by_cases hsync : w = syncCw
  · rw [hsync, decodeCodeword_sync]
    rfl
  by_cases hidle : w = idleCw
  · rw [hidle, decodeCodeword_idle]
    rfl
  cases htype : w.getLsbD 31 with
  | true => rw [decodeCodeword_of_message htype, encode, messageWord_extract htype]
  | false => rw [decodeCodeword_of_address hsync hidle htype, encode, addressWord_extract htype]

/-- R41: the four bytes of a codeword, least significant first. -/
theorem putCodeword_eq (w : Word) : putCodeword w =
    .codeword [w.extractLsb' 0 8, w.extractLsb' 8 8, w.extractLsb' 16 8, w.extractLsb' 24 8] := by
  rw [putCodeword, Laws.leBytes_word]

/-- Settles O6, by the four rows in R66's order. -/
theorem codewordsAreToldApart : Obligations.CodewordsAreToldApart := by
  intro w
  rw [← putCodeword_eq]
  refine ⟨decodeCodeword w, decode_putCodeword w, encode_decodeCodeword w, ?_⟩
  change (_ ↔ w = syncCw) ∧ (_ ↔ w = idleCw) ∧ _ ∧ (_ ↔ _ ∧ w ≠ syncCw ∧ w ≠ idleCw)
  by_cases hsync : w = syncCw
  · subst hsync
    simp [decodeCodeword_sync]
    decide
  by_cases hidle : w = idleCw
  · subst hidle
    simp [decodeCodeword_idle]
    decide
  cases htype : w.getLsbD 31 with
  | true => simp [decodeCodeword_of_message htype, hsync, hidle]
  | false => simp [decodeCodeword_of_address hsync hidle htype, hsync, hidle]

/-! ### Operations (R62) -/

/-- R62: every other selector names no operation. -/
theorem getOperation_unlisted {n : Nat} (h : n ∉ [0x01, 0x02, 0x03, 0x04, 0x05, 0x06, 0x08, 0x09, 0x0A, 0x0B, 0x0C,
    0x10, 0x11, 0x12, 0x13, 0x18, 0x20, 0x28, 0x30, 0x38, 0x39, 0x3A, 0x40, 0x41, 0x42, 0x43, 0x44, 0x45, 0x46, 0x47,
    0x48, 0x49]) : getOperation n = throw .unknownSelector := by
  unfold getOperation
  split
  case h_33 => rfl
  all_goals simp at h

/-- Settles O3. -/
theorem unlistedSelectorsRefused : Obligations.UnlistedSelectorsRefused := by
  intro sel operands h
  rw [decode, getOperation_unlisted h]
  rfl

/-- Settles O2: the decoder evaluated on each of the words. -/
theorem writtenWordsDecode : Obligations.WrittenWordsDecode := by
  unfold Obligations.WrittenWordsDecode
  and_intros <;> decide +kernel

/-! ### Reading back what was encoded (log 2) -/

/-- A range check that the operand passes. -/
theorem reads_guard {α : Type} {c : Prop} [Decidable c] (hc : c) (x : α) (e : DecodeError) :
    Reads (if c then pure x else throw e) [] x := by
  rw [if_pos hc]
  exact reads_pure x

theorem reads_revbits (x : Word) {n : Nat} (hn : n ≤ 32) :
    Reads getRevbits (putBits 4 x ++ [BitVec.ofNat 8 n]) (.revbits x n) := by
  have hbyte : (BitVec.ofNat 8 n).toNat = n := by
    rw [BitVec.toNat_ofNat]
    omega
  have hread : Reads (if (BitVec.ofNat 8 n).toNat ≤ 32 then pure (.revbits x (BitVec.ofNat 8 n).toNat)
      else throw .operandOutOfRange : Parser Instr) [] (.revbits x n) := by
    rw [hbyte]
    exact reads_guard hn _ _
  exact reads_bind (reads_bits 4 x (by decide)) (reads_bind (reads_byte _) hread)

theorem reads_mkmsg (mbuf : List Bool) (offset : Nat) (numeric : Bool) :
    Reads getMkmsg (putSeq putBool mbuf ++ (putNat offset ++ (putNat mbuf.length ++ putBool numeric)))
      (.mkmsg mbuf offset mbuf.length numeric) :=
  reads_bind (reads_seq mbuf fun b _ => reads_bool b) <| reads_bind (reads_nat offset) <|
    reads_bind (reads_nat mbuf.length) <| reads_bind (cs := []) (reads_bool numeric) (reads_guard rfl _ _)

theorem reads_encode (address : Nat) (type : MsgType) (text : List Byte) (bps : Bps) (charset : Charset)
    (function : BitVec 2) (rawOnly : Bool) :
    Reads getEncode (putNat address ++ (putMsgType type ++ (putSeq putByte text ++ (putBps bps ++
      (putCharset charset ++ (putBits 1 function ++ putBool (!rawOnly)))))))
      (.encode address type text bps charset function rawOnly) := by
  refine reads_bind (reads_nat address) <| reads_bind (reads_msgType type) <| reads_bind (reads_bytes text) <|
    reads_bind (reads_bps bps) <| reads_bind (reads_charset charset) <|
    reads_bind (reads_bits 1 function (by decide)) ?_
  have hread := reads_map (f := fun audio => Instr.encode address type text bps charset function (!audio))
    (reads_bool (!rawOnly))
  rwa [Bool.not_not] at hread

theorem reads_half (h : Fin 2) : Reads getHalf (putBool (decide (h = 1))) (.publish h) := by
  have hhalf : ∀ h : Fin 2, (if decide (h = 1) = true then 1 else 0 : Fin 2) = h := by decide
  have hread := reads_map (f := fun b : Bool => Instr.publish (if b then 1 else 0)) (reads_bool (decide (h = 1)))
  rwa [hhalf] at hread

/-- R62: an operation that is encoded behind a selector decodes when that selector's parser reads its operands. -/
theorem decode_encode_of_reads {i : Instr} {sel : Byte} {bs : List Byte} (henc : encode i = .op (sel :: bs))
    (h : Reads (getOperation sel.toNat) bs i) : decode (encode i) = .ok i := by
  rw [henc]
  exact decode_of_reads h

/-- Settles O4: a codeword row by the fields of its word, an operation by the parsers of its operands. -/
theorem decodeOfEncode : Obligations.DecodeOfEncode := by
  intro i hwf
  cases i with
  | sync => exact (decode_putCodeword _).trans (congrArg _ decodeCodeword_sync)
  | idle => exact (decode_putCodeword _).trans (congrArg _ decodeCodeword_idle)
  | message data bch parity =>
    exact (decode_putCodeword _).trans (congrArg _ (decodeCodeword_messageWord data bch parity))
  | address addr function bch parity =>
    exact (decode_putCodeword _).trans (congrArg _ (decodeCodeword_addressWord hwf))
  | revbits x n => exact decode_encode_of_reads rfl (reads_revbits x (of_decide_eq_true hwf))
  | bchrem w | parity w | sign w | drain w =>
    exact decode_encode_of_reads rfl (reads_map (reads_bits 4 w (by decide)))
  | emit32le buf w =>
    exact decode_encode_of_reads rfl (reads_bind (reads_bytes buf) (reads_map (reads_bits 4 w (by decide))))
  | read32le buf a => exact decode_encode_of_reads rfl (reads_bind (reads_bytes buf) (reads_map (reads_nat a)))
  | recodeRaw text | recodeLatin text | recodeCyr text | buildNum text | buildAlpha text =>
    exact decode_encode_of_reads rfl (reads_map (reads_bytes text))
  | mkaddr ric function =>
    exact decode_encode_of_reads rfl
      (reads_bind (reads_bits 4 ric (by decide)) (reads_map (reads_bits 1 function (by decide))))
  | mkmsg mbuf offset maxBits numeric =>
    obtain rfl : maxBits = mbuf.length := of_decide_eq_true hwf
    exact decode_encode_of_reads rfl (reads_mkmsg mbuf offset numeric)
  | encode address type text bps charset function rawOnly =>
    exact decode_encode_of_reads rfl (reads_encode address type text bps charset function rawOnly)
  | fskmod framed bps => exact decode_encode_of_reads rfl (reads_bind (reads_bytes framed) (reads_map (reads_bps bps)))
  | quant v => exact decode_encode_of_reads rfl (reads_map (reads_real v hwf))
  | publish h => exact decode_encode_of_reads rfl (reads_half h)
  | push c =>
    obtain ⟨hrate, hsamples⟩ := Bool.and_eq_true_iff.mp hwf
    exact decode_encode_of_reads rfl (reads_map (reads_chunk c (of_decide_eq_true hrate) hsamples))
  | setcfg w => exact decode_encode_of_reads rfl (reads_map (reads_cfgWrite w hwf))
  | waitend timeout | waitidle timeout => exact decode_encode_of_reads rfl (reads_map (reads_nat timeout))
  | mkidle | mksync | interp | modiq | adopt | prepare | process | start | stop | isidle =>
    exact decode_encode_of_reads rfl (reads_pure _)

end Sys2Proof
end

section
/-! SUPPORT. The codeword rows as operations (log 3): each emits the codeword that SIGN makes of its data fields. -/

namespace Sys2Proof.Machine

open Sys2Proof

/-! ### The data fields of a signed word (R64, R65) -/

/-- R84: SIGN's operand, a word whose check field is written out as zeros. -/
theorem append_zeros_low (x : BitVec 21) : (x ++ 0#11 : Word) &&& 0x7FF#32 = 0#32 := by
  refine BitVec.eq_of_getLsbD_eq fun j hj => ?_
  rw [BitVec.getLsbD_and, BitVec.getLsbD_append, BitVec.getLsbD_zero, BitVec.getLsbD_zero]
  rcases Nat.lt_or_ge j 11 with hlow | hdata
  · rw [if_pos hlow, Bool.false_and]
  · rw [show (0x7FF#32).getLsbD j = false by interval_cases j <;> rfl, Bool.and_false]

/-- R84: SIGN leaves every field above the check field. -/
theorem signWord_extractLsb' (w : Word) {start len : Nat} (h : 11 ≤ start) :
    (signWord w).extractLsb' start len = w.extractLsb' start len := by
  refine BitVec.eq_of_getLsbD_eq fun i _ => ?_
  rw [BitVec.getLsbD_extractLsb', BitVec.getLsbD_extractLsb', signWord_getLsbD w (by omega)]

/-- R84: a field of the codeword of `x`, by its place in `x`. -/
theorem signWord_append_field (x : BitVec 21) {start len : Nat} (h : 11 ≤ start) :
    (signWord (x ++ 0#11)).extractLsb' start len = x.extractLsb' (start - 11) len := by
  rw [signWord_extractLsb' _ h, BitVec.extractLsb'_append_eq_of_le h]

theorem signWord_append_type (x : BitVec 21) : (signWord (x ++ 0#11)).getLsbD 31 = x.getLsbD 20 := by
  rw [signWord_getLsbD _ (by omega), BitVec.getLsbD_append]
  rfl

/-! ### What the rows answer -/

theorem exec_sync (s : State) :
    exec .sync s = .next { s with enc := { s.enc with out := wordBytes syncCw }, hostRet := .word syncCw } := rfl

theorem exec_idle (s : State) :
    exec .idle s = .next { s with enc := { s.enc with out := wordBytes idleCw }, hostRet := .word idleCw } := rfl

theorem exec_message (data : BitVec 20) (bch : BitVec 10) (parity : BitVec 1) (s : State) :
    exec (.message data bch parity) s = .next { s with
      enc := { s.enc with
        bch := bchLoop (1#1 ++ data ++ 0#11)
        out := wordBytes (signWord (1#1 ++ data ++ 0#11)) }
      hostRet := .word (signWord (1#1 ++ data ++ 0#11)) } := rfl

theorem exec_address (addr : BitVec 18) (function : BitVec 2) (bch : BitVec 10) (parity : BitVec 1) (s : State) :
    exec (.address addr function bch parity) s = .next { s with
      enc := { s.enc with
        bch := bchLoop (0#1 ++ addr ++ function ++ 0#11)
        out := wordBytes (signWord (0#1 ++ addr ++ function ++ 0#11)) }
      hostRet := .word (signWord (0#1 ++ addr ++ function ++ 0#11)) } := rfl

theorem wordBytes_idleCw : wordBytes idleCw = [0x97#8, 0xC1#8, 0x89#8, 0x7A#8] := by decide

/-- Settles O35: a message or address row is a SIGN of its data fields. -/
theorem codewordRowsAreEmitted : Obligations.CodewordRowsAreEmitted := by
  refine fun s => ⟨?_, ?_, fun data bch parity => ?_, fun addr function bch parity => ?_⟩
  · rw [exec_sync, wordBytes_syncCw]
    rfl
  · rw [exec_idle, wordBytes_idleCw]
    rfl
  · have hlow := append_zeros_low (1#1 ++ data)
    refine ⟨_, _, exec_message data bch parity s, ?_, ?_, setBits_signWord hlow, genPoly_dvd_codePoly_signWord hlow⟩
    · rw [signWord_append_type, BitVec.getLsbD_append]
      rfl
    · rw [signWord_append_field _ le_rfl]
      exact BitVec.extractLsb'_append_eq_right
  · have hlow := append_zeros_low (0#1 ++ addr ++ function)
    refine ⟨_, _, exec_address addr function bch parity s, ?_, ?_, ?_, setBits_signWord hlow,
      genPoly_dvd_codePoly_signWord hlow⟩
    · rw [signWord_append_type, BitVec.getLsbD_append, BitVec.getLsbD_append]
      rfl
    · rw [signWord_append_field _ (by omega), BitVec.extractLsb'_append_eq_of_le (by omega)]
      exact BitVec.extractLsb'_append_eq_right
    · rw [signWord_append_field _ le_rfl]
      exact BitVec.extractLsb'_append_eq_right

end Sys2Proof.Machine
end

section
/-! SUPPORT. The encoder and the rest of the block (10_state.md rules R13, R34; 60_exceptions.md rules R191, R194): an
encoder operation writes the encoder registers and its answer only, and its answer reads none of those registers. -/

namespace Sys2Proof.Machine

open Sys2Proof

/-! ### What an encoder operation writes (R34, R191, R194) -/

/-- If there is a next state, it differs from `s` in the encoder registers and the answer at most. -/
def WritesEncoder (s : State) (o : Host.Outcome State Fault Refusal) : Prop :=
  ∀ t, o = .next t → t = { s with enc := t.enc, hostRet := t.hostRet }

section Outcomes

variable (s : State) {o o' : Host.Outcome State Fault Refusal}

/-- R33: the form in which every encoder operation ends. -/
theorem writesEncoder_next (e : Enc) (r : Ret) : WritesEncoder s (.next { s with enc := e, hostRet := r }) := by
  rintro _ ⟨⟩
  rfl

theorem writesEncoder_raise (e : Err) : WritesEncoder s (s.raise e) := writesEncoder_next s s.enc _

theorem writesEncoder_setHostRet (r : Ret) : WritesEncoder s (.next (s.setHostRet r)) := writesEncoder_next s s.enc r

theorem writesEncoder_fault (f : Fault) : WritesEncoder s (.fault f) := fun _ h => by cases h

theorem writesEncoder_refused (f : Refusal) : WritesEncoder s (.refused f) := fun _ h => by cases h

variable {s}

theorem writesEncoder_ite {c : Prop} [Decidable c] (h : WritesEncoder s o) (h' : WritesEncoder s o') :
    WritesEncoder s (if c then o else o') := by
  split
  · exact h
  · exact h'

end Outcomes

section Frame

variable (s : State)

theorem execBuildNum_writesEncoder (msg : List Byte) : WritesEncoder s (execBuildNum msg s) := by
  rw [execBuildNum]
  split
  · exact writesEncoder_raise s _
  · exact writesEncoder_next s _ _

/-- FSKMOD, alone and as the end of ENCODE. -/
theorem fskRun_writesEncoder (framed : List Byte) (bps : Bps) (rate : Nat) (e : Enc) :
    WritesEncoder s (Res.outcome (do
      let e' ← fskRun framed bps rate e
      pure ((s.setEnc e').setHostRet (.audio e'.pcm e'.pcm.length)))) := by
  intro t ht
  obtain ⟨e', -, ⟨⟩⟩ := res_bind_eq_ok (outcome_eq_next.mp ht)
  rfl

theorem execEncode_writesEncoder (address : Nat) (type : MsgType) (text : List Byte) (bps : Bps) (charset : Charset)
    (function : BitVec 2) (rawOnly : Bool) :
    WritesEncoder s (execEncode address type text bps charset function rawOnly s) := by
  refine writesEncoder_ite (writesEncoder_raise s _) ?_
  split
  · exact writesEncoder_raise s _
  · exact writesEncoder_refused s _
  · exact writesEncoder_ite (writesEncoder_raise s _)
      (writesEncoder_ite (writesEncoder_next s _ _) (fskRun_writesEncoder s _ _ _ _))

end Frame

/-- Settles O14: by the operation; eight of them can raise or stop. -/
theorem encoderTouchesOnlyItsRegisters : Obligations.EncoderTouchesOnlyItsRegisters := by
  intro i s t henc hexec
  suffices h : WritesEncoder s (exec i s) from h t hexec
  cases i with
  | sign _ => exact writesEncoder_ite (writesEncoder_refused s _) (writesEncoder_next s _ _)
  | read32le _ _ => exact writesEncoder_ite (writesEncoder_setHostRet s _) (writesEncoder_fault s _)
  | mkmsg _ _ _ _ => exact writesEncoder_ite (writesEncoder_fault s _) (writesEncoder_next s _ _)
  | recodeCyr _ => exact writesEncoder_refused s _
  | buildNum msg => exact execBuildNum_writesEncoder s msg
  | encode _ _ _ _ _ _ _ => exact execEncode_writesEncoder s _ _ _ _ _ _ _
  | fskmod _ _ => exact fskRun_writesEncoder s _ _ _ _
  | revbits _ _ | parity _ | mkidle | mksync => exact writesEncoder_setHostRet s _
  | sync | idle | message _ _ _ | address _ _ _ _ | bchrem _ | emit32le _ _ | recodeRaw _ | recodeLatin _
  | buildAlpha _ | mkaddr _ _ => exact writesEncoder_next s _ _
  | _ => cases henc

/-! ### What an encoder operation answers (R13, R212) -/

/-- Two checks with the same condition deliver the same if both branches do. -/
theorem delivered_ite {c : Prop} [Decidable c] {o₁ o₁' o₂ o₂' : Host.Outcome State Fault Refusal}
    (h : delivered o₁ = delivered o₂) (h' : delivered o₁' = delivered o₂') :
    delivered (if c then o₁ else o₁') = delivered (if c then o₂ else o₂') := by
  split
  · exact h
  · exact h'

/-- R120, R121: FSKMOD answers by the stream, the bit rate and `fskSampleRate`. -/
theorem delivered_fskRun (framed : List Byte) (bps : Bps) (rate : Nat) (e₁ e₂ : Enc) (s₁ s₂ : State) :
    delivered (Res.outcome (do
      let e ← fskRun framed bps rate e₁
      pure ((s₁.setEnc e).setHostRet (.audio e.pcm e.pcm.length)))) =
    delivered (Res.outcome (do
      let e ← fskRun framed bps rate e₂
      pure ((s₂.setEnc e).setHostRet (.audio e.pcm e.pcm.length)))) := by
  simp only [fskRun]
  split
  · rfl
  · split <;> rfl

/-- R118: ENCODE answers by the stream it has built. -/
theorem delivered_encodeResult {e₁ e₂ : Enc} {s₁ s₂ : State} (rawOnly : Bool) (bps : Bps)
    (hout : e₁.out = e₂.out) (hrate : s₁.cfg.fskSampleRate = s₂.cfg.fskSampleRate) :
    delivered (encodeResult rawOnly bps e₁ s₁) = delivered (encodeResult rawOnly bps e₂ s₂) := by
  rw [encodeResult, encodeResult, hout, hrate]
  exact delivered_ite rfl (delivered_fskRun _ _ _ e₁ e₂ s₁ s₂)

/-- R112: whether a message is built, and of which bits, is told by the operands. -/
theorem buildMessage_cases (type : MsgType) (charset : Charset) (text : List Byte) :
    (∃ stop, ∀ e, buildMessage type charset text e = .error stop) ∨
    (∃ bits numeric, ∀ e, ∃ msg, buildMessage type charset text e = .ok (e.message msg bits numeric)) := by
  cases type with
  | tone => exact .inr ⟨_, _, fun e => ⟨e.msg, rfl⟩⟩
  | numeric =>
    simp only [buildMessage]
    cases buildNumFrom 0 text with
    | error err => exact .inl ⟨_, fun _ => rfl⟩
    | ok bits => exact .inr ⟨_, _, fun _ => ⟨_, rfl⟩⟩
  | alphanumeric =>
    cases charset with
    | raw => exact .inr ⟨_, _, fun _ => ⟨_, rfl⟩⟩
    | latin => exact .inr ⟨_, _, fun _ => ⟨_, rfl⟩⟩
    | cyrillic => exact .inl ⟨_, fun _ => rfl⟩

/-- R113, R117: the stream is made from the bits, the type and the address alone. -/
theorem fill_out_eq (ric : BitVec 21) (function : BitVec 2) (bits : List Bool) (numeric : Bool) (e₁ e₂ : Enc)
    (msg₁ msg₂ : List Byte) :
    (((e₁.message msg₁ bits numeric).positions ric).fill ric function).out =
      (((e₂.message msg₂ bits numeric).positions ric).fill ric function).out := by
  have hfilled (e : Enc) (msg : List Byte) :=
    Enc.filled_fill (e₀ := (e.message msg bits numeric).positions ric) ric function rfl rfl (addrFrameOf_lt ric)
  exact (hfilled e₁ msg₁).out.trans (hfilled e₂ msg₂).out.symm

theorem delivered_encode {s₁ s₂ : State} (address : Nat) (type : MsgType) (text : List Byte) (bps : Bps)
    (charset : Charset) (function : BitVec 2) (rawOnly : Bool) (hrate : s₁.cfg.fskSampleRate = s₂.cfg.fskSampleRate)
    (hbatches : s₁.cfg.maxBatches = s₂.cfg.maxBatches) :
    delivered (exec (.encode address type text bps charset function rawOnly) s₁) =
      delivered (exec (.encode address type text bps charset function rawOnly) s₂) := by
  by_cases haddr : address ≤ 2097151
  · obtain ⟨stop, hstop⟩ | ⟨bits, numeric, hbuilt⟩ := buildMessage_cases type charset text
    · cases stop with
      | raised err =>
        rw [exec_encode_of_raised haddr (hstop _), exec_encode_of_raised haddr (hstop _)]
        rfl
      | refused r => rw [exec_encode_of_refused haddr (hstop _), exec_encode_of_refused haddr (hstop _)]
    · obtain ⟨msg₁, hbuild₁⟩ := hbuilt s₁.enc
      obtain ⟨msg₂, hbuild₂⟩ := hbuilt s₂.enc
      rw [exec_encode_of_built haddr hbuild₁, exec_encode_of_built haddr hbuild₂, hbatches]
      exact delivered_ite rfl (delivered_encodeResult rawOnly bps (fill_out_eq ..) hrate)
  · rw [exec_encode_address_out_of_range (by omega), exec_encode_address_out_of_range (by omega)]
    rfl

theorem delivered_buildNum (msg : List Byte) (s₁ s₂ : State) :
    delivered (exec (.buildNum msg) s₁) = delivered (exec (.buildNum msg) s₂) := by
  rw [exec_buildNum, exec_buildNum, execBuildNum, execBuildNum]
  cases buildNumFrom 0 msg <;> rfl

/-- Settles O15: FSKMOD reads `fskSampleRate`, ENCODE that and `maxBatches`, and no other operation a register. -/
theorem encoderAnswersDependOnOperandsAlone : Obligations.EncoderAnswersDependOnOperandsAlone := by
  intro i s₁ s₂ henc hrate hbatches
  cases i with
  | sign _ => exact delivered_ite rfl rfl
  | read32le _ _ => exact delivered_ite rfl rfl
  | mkmsg _ _ _ _ => exact delivered_ite rfl rfl
  | buildNum msg => exact delivered_buildNum msg s₁ s₂
  | encode _ _ _ _ _ _ _ => exact delivered_encode _ _ _ _ _ _ _ hrate hbatches
  | fskmod framed bps =>
    change delivered (execFskmod framed bps s₁) = delivered (execFskmod framed bps s₂)
    rw [execFskmod, execFskmod, hrate]
    exact delivered_fskRun framed bps _ s₁.enc s₂.enc s₁ s₂
  | sync | idle | message _ _ _ | address _ _ _ _ | revbits _ _ | bchrem _ | parity _ | emit32le _ _ | recodeRaw _
  | recodeLatin _ | recodeCyr _ | buildAlpha _ | mkaddr _ _ | mkidle | mksync => rfl
  | _ => cases henc

end Sys2Proof.Machine
end

section
/-! SUPPORT. The command port and power-off (logs 1 and 31): what a step does with each thing that may stand oldest at
the port, and what it does by itself once power-off has begun. -/

namespace Sys2Proof.Machine

open Sys2Proof

section Port

variable {s : State} {rest : List PortEvent} {tr : Transfer}

/-- R8, log 1: the transfer at the port is taken off and run. -/
theorem step_of_issue {i : Instr} (hlook : s.looksAtPort) (hport : s.port = .issue tr :: rest)
    (hdecode : decode tr = .ok i) :
    step s = if s.power = .off then .refused .poweredOff else exec i { s with port := rest } := by
  simp only [step, powerStep_none hlook, fetch, hport, hdecode]

/-- R200: the block waits. -/
theorem step_of_empty_port (hlook : s.looksAtPort) (hport : s.port = []) : step s = .next s := by
  simp only [step, powerStep_none hlook, fetch, hport]

/-- Log 2. -/
theorem step_of_undecodable {e : DecodeError} (hlook : s.looksAtPort) (hport : s.port = .issue tr :: rest)
    (hdecode : decode tr = .error e) : step s = .refused (.undecodable e) := by
  simp only [step, powerStep_none hlook, fetch, hport, hdecode]

/-- R199: power-off may stand at the port in any run state. -/
theorem step_of_powerOff (hlook : s.looksAtPort) (hport : s.port = .powerOff :: rest) :
    step s = if s.power = .off then .refused .poweredOff else .next { s with port := rest, power := .closing } := by
  simp only [step, powerStep_none hlook, fetch, hport, powerOff]

/-- R199, R202: an Idle block is closed. -/
theorem step_of_closing_idle (hpower : s.power = .closing) (hrun : s.runState = .idle) : step s = .next s.closed := by
  simp only [step, State.powerStep, if_pos hpower, hrun]

/-- R172, R199: a running block is stopped first. -/
theorem step_of_closing_running (hpower : s.power = .closing) (hrun : s.runState = .running) :
    step s = .next s.beginStop := by
  simp only [step, State.powerStep, if_pos hpower, hrun]

end Port

theorem decode_of_decodeTableWord {nbits w : Nat} {i : Instr} (h : decodeTableWord nbits w = some i) :
    decode (tableTransfer nbits w) = .ok i := by
  unfold decodeTableWord at h
  split at h
  · next hdecode => rw [hdecode, Option.some.inj h]
  · cases h

/-- Log 1: the word placed at the port is the next operation. -/
theorem step_withFetchWord {s : State} {nbits w : Nat} {i : Instr} (hpower : s.power = .on)
    (hdecode : decodeTableWord nbits w = some i) : step (s.withFetchWord nbits w) = exec i s := by
  have hlook : (s.withFetchWord nbits w).looksAtPort := .inl (hpower.trans_ne nofun)
  have hoff : (s.withFetchWord nbits w).power ≠ .off := hpower.trans_ne nofun
  exact (step_of_issue hlook rfl (decode_of_decodeTableWord hdecode)).trans (if_neg hoff)

/-- Settles O1, by what stands oldest at the port. -/
theorem stepRunsTheOperationAtThePort : Obligations.StepRunsTheOperationAtThePort :=
  ⟨fun _ _ _ _ => step_of_issue, fun _ => step_of_empty_port, fun _ _ _ _ => step_of_undecodable,
    fun _ _ _ _ => step_withFetchWord, fun _ _ => step_of_powerOff,
    fun _ hpower => ⟨step_of_closing_idle hpower, step_of_closing_running hpower⟩⟩

end Sys2Proof.Machine
end

section
/-! SUPPORT. The HOST operations of the sequencer (48_sequencer.md rules R160, R170, R172, R175 to R178): what PUSH,
START, STOP, SETCFG and the queries answer. -/

namespace Sys2Proof.Machine

open Sys2Proof

/-! ### PUSH, START, STOP and the queries -/

theorem exec_push (c : Chunk) (s : State) :
    exec (.push c) s = .next { s with txQueue := s.txQueue ++ [c], emptyQueue := false, hostRet := .none } := rfl

/-- Settles O52: the three fields that PUSH writes. -/
theorem pushAppends : Obligations.PushAppends := exec_push

section StartStop

variable {s : State}

/-- R170. -/
theorem exec_start_of_idle (h : s.runState = .idle) : exec .start s = .next { s with
    ready := true
    stop := false
    fmPhase := .rat 0
    prepared := false
    runState := .starting
    ppos := .boot
    hostRet := .pending } := if_pos h

/-- R170, R185. -/
theorem exec_start_of_not_idle (h : s.runState ≠ .idle) : exec .start s = .next { s with hostRet := .bool false } :=
  if_neg h

/-- R172. -/
theorem exec_stop_of_running (h : s.runState = .running) : exec .stop s = .next s.beginStop := if_pos h

/-- R172. -/
theorem exec_stop_of_not_running (h : s.runState ≠ .running) : exec .stop s = .next { s with hostRet := .bool true } :=
  if_neg h

end StartStop

/-- Settles O58, by the run state that each of the two asks for. -/
theorem startAndStop : Obligations.StartAndStop := fun _ =>
  ⟨exec_start_of_idle, exec_start_of_not_idle, exec_stop_of_running, exec_stop_of_not_running⟩

theorem State.isIdle_iff (s : State) :
    s.isIdle = true ↔ s.runState = .running ∧ s.txQueue = [] ∧ s.currentChunk = none := decide_eq_true_iff

/-- Settles O60: ISIDLE and WAITIDLE deliver `State.isIdle`. -/
theorem idleQueriesReadOnly : Obligations.IdleQueriesReadOnly := fun s _ => ⟨s.isIdle, s.isIdle_iff, rfl, rfl, rfl⟩

/-! ### SETCFG -/

section Setcfg

variable {w : CfgWrite} {s : State}

theorem exec_setcfg (w : CfgWrite) (s : State) : exec (.setcfg w) s = execSetcfg w s := rfl

/-- R175, R184, R187: the run state is checked first. -/
theorem exec_setcfg_of_running (hgated : cfgGated w.reg = true) (hrun : s.runState = .running) :
    exec (.setcfg w) s = .next { s with hostRet := .raised (.configWhileRunning w.reg) } := if_pos ⟨hgated, hrun⟩

/-- R175, D27. -/
theorem exec_setcfg_of_illegal (hopen : cfgGated w.reg = false ∨ s.runState ≠ .running) (hlegal : cfgLegal w = false) :
    exec (.setcfg w) s = .refused .configValueOutOfRange := by
  rw [exec_setcfg, execSetcfg, if_neg (by rcases hopen with h | h <;> simp [h]), if_pos hlegal]

/-- R175, R19: a legal value is written, and forwarded where the register is the device's. -/
theorem exec_setcfg_of_legal (hopen : cfgGated w.reg = false ∨ s.runState ≠ .running) (hlegal : cfgLegal w = true) :
    exec (.setcfg w) s =
      .next ((({ s with cfg := s.cfg.set w }).tellSome (cfgCommand w)).setHostRet .none) := by
  rw [exec_setcfg, execSetcfg, if_neg (by rcases hopen with h | h <;> simp [h]), if_neg (by simp [hlegal])]

end Setcfg

/-- R17: the two registers of the encoder are the ones that `RunState` does not gate. -/
theorem cfgGated_eq_true {r : CfgReg} (hrate : r ≠ .fskSampleRate) (hbatches : r ≠ .maxBatches) :
    cfgGated r = true := by
  cases r with
  | fskSampleRate => exact absurd rfl hrate
  | maxBatches => exact absurd rfl hbatches
  | _ => rfl

/-- R18: the range of the deviation, over the reals. -/
theorem cfgLegal_fmDeviationKHz (v : RealNum) : cfgLegal (.fmDeviationKHz v) = true ↔ 0 ≤ v.real := by
  rw [cfgLegal, decide_eq_true_iff, cmpReal_ne_lt, RealVal.real_num, Rat.cast_zero]

/-- Settles O59, by the range of each register. -/
theorem setcfgWritesOrRaises : Obligations.SetcfgWritesOrRaises := by
  intro s
  refine ⟨fun w hrun hrate hbatches => exec_setcfg_of_running (cfgGated_eq_true hrate hbatches) hrun,
    fun v hv => exec_setcfg_of_legal (.inl rfl) (decide_eq_true hv),
    fun v hv => exec_setcfg_of_illegal (.inl rfl) (decide_eq_false hv.not_ge),
    fun v hv => exec_setcfg_of_legal (.inl rfl) (decide_eq_true hv),
    fun v hv => exec_setcfg_of_illegal (.inl rfl) (decide_eq_false hv.not_ge), fun hrun => ?_⟩
  refine ⟨fun v => exec_setcfg_of_legal (.inr hrun) rfl,
    fun v hlow hhigh => exec_setcfg_of_legal (.inr hrun) (decide_eq_true ⟨hlow, hhigh⟩),
    fun v hv => exec_setcfg_of_illegal (.inr hrun) (decide_eq_false fun ⟨hlow, hhigh⟩ => ?_),
    fun v hv => exec_setcfg_of_legal (.inr hrun) ((cfgLegal_fmDeviationKHz v).mpr hv),
    fun v hv => exec_setcfg_of_illegal (.inr hrun) ?_,
    fun v => exec_setcfg_of_legal (.inr hrun) rfl, fun v => exec_setcfg_of_legal (.inr hrun) rfl,
    fun v => exec_setcfg_of_legal (.inr hrun) rfl, fun v => exec_setcfg_of_legal (.inr hrun) rfl,
    fun v => exec_setcfg_of_legal (.inr hrun) rfl⟩
  · rw [bufLen] at hhigh
    omega
  · rw [← Bool.not_eq_true, cfgLegal_fmDeviationKHz]
    exact hv.not_ge

end Sys2Proof.Machine
end

section
/-! SUPPORT. MODIQ in AM (46_iq_modulator.md rules R140 to R142): what it writes, and where it stops. -/

namespace Sys2Proof.Machine

open Sys2Proof

section Modiq

variable {s : State}

/-- R141, R142. -/
theorem exec_modiq_am (hpos : s.ppos = .first ∨ s.ppos = .next) (hlen : s.ibuf.length = bufLen)
    (ham : s.cfg.am = true) : exec .modiq s = .next { s with iq := s.ibuf.flatMap (amPair s.cfg) } := by
  obtain ⟨t, hop⟩ := modiqOp_ok hlen
  obtain ⟨-, ht, -, -, -, hkeep, -⟩ := modiqOp_spec hop
  obtain ⟨hphase, hiq⟩ := hkeep ham
  rw [exec_modiq, execModiq, within_of_mem (by simpa using hpos), hop, ht, hphase, hiq]
  rfl

/-- R33. -/
theorem exec_modiq_of_no_ibuf (hpos : s.ppos = .first ∨ s.ppos = .next) (hlen : s.ibuf.length ≠ bufLen) :
    exec .modiq s = .fault .ibufHoldsNoValue := by
  rw [exec_modiq, execModiq, within_of_mem (by simpa using hpos), modiqOp, if_pos hlen]
  rfl

/-- R191, log 12. -/
theorem exec_modiq_elsewhere (hfirst : s.ppos ≠ .first) (hnext : s.ppos ≠ .next) :
    exec .modiq s = .refused .notEnabled := by
  rw [exec_modiq, execModiq, within_of_not_mem (by simp [hfirst, hnext])]

end Modiq

/-- R142: the pair of sample `k`. -/
theorem amIq_getElem? (c : Cfg) {xs : List RealNum} {k j : Nat} {x : RealNum} (hx : xs[k]? = some x) (hj : j < 2) :
    (xs.flatMap (amPair c))[2 * k + j]? = (amPair c x)[j]? := by
  rw [flatMap_two_getElem? (fun _ => rfl) _ k j hj, hx]
  rfl

/-- R141, D5: where `NUM` is exact, the clipped product. -/
theorem clipGain_exact_real {num : Num} (h : num = .exact) (localGain x : RealNum) :
    (clipGain num localGain x).real = max (-1) (min 1 (x.real * localGain.real)) := by
  rw [h, clipGain, clipped_real, Num.mul, times_real]

/-- Settles O44: the pairs of `amPair`, one for each sample of the sub-chunk. -/
theorem modiqAm : Obligations.ModiqAm := by
  refine fun s => ⟨fun hpos hlen ham => ?_, exec_modiq_of_no_ibuf, exec_modiq_elsewhere⟩
  refine ⟨_, exec_modiq_am hpos hlen ham, (flatMap_two_length (fun _ => rfl) _).trans (congrArg (2 * ·) hlen), ?_⟩
  intro k hk
  have hx := List.getElem?_eq_getElem (l := s.ibuf) (hlen ▸ hk)
  obtain ⟨hlow, hhigh⟩ := clipGain_range s.cfg.num s.cfg.localGain (s.ibuf[k]'(hlen ▸ hk))
  exact ⟨_, _, hx, hlow, hhigh, fun hnum => clipGain_exact_real hnum _ _, amIq_getElem? s.cfg hx (j := 0) (by decide),
    amIq_getElem? s.cfg hx (j := 1) (by decide)⟩

end Sys2Proof.Machine
end

section
/-! SUPPORT. The rows of the producer (48_sequencer.md rules R165 to R167, R171, R173): each row under each of its
conditions, and PROCESS as the row that PROD stands at. -/

namespace Sys2Proof.Machine

open Sys2Proof

/-! ### The rows -/

section Rows

variable {s : State}

/-- R171: the device starts. -/
theorem rowBoot_of_started (hrun : s.runState = .starting) (hanswer : s.answer = true) :
    rowBoot s = { s.ask .startTx with
      devRunning := true, runState := .running, ppos := .top, hostRet := .bool true } := by
  rw [rowBoot, if_pos hrun]
  exact if_pos hanswer

/-- R171: the device does not start. -/
theorem rowBoot_of_failed (hrun : s.runState = .starting) (hanswer : s.answer = false) :
    rowBoot s = { s.ask .startTx with runState := .idle, ppos := .off, hostRet := .bool false } := by
  rw [rowBoot, if_pos hrun]
  exact if_neg (Bool.eq_false_iff.mp hanswer)

/-- Log 13: no call of START is pending. -/
theorem rowBoot_of_not_starting (hrun : s.runState ≠ .starting) : rowBoot s = s := if_neg hrun

/-- R166. -/
theorem rowTop_of_stop (hstop : s.stop = true) : rowTop s = s.toExit := if_pos hstop

/-- R166. -/
theorem rowTop_of_chunk (hstop : s.stop = false) (hchunk : s.currentChunk ≠ none) : rowTop s = s.goto .wait := by
  rw [rowTop, if_neg (Bool.eq_false_iff.mp hstop), if_pos hchunk]

/-- R161, R166. -/
theorem rowTop_of_no_chunk (hstop : s.stop = false) (hchunk : s.currentChunk = none) : rowTop s = rowAdopt s := by
  rw [rowTop, if_neg (Bool.eq_false_iff.mp hstop), if_neg (not_not.mpr hchunk)]

/-- R166. -/
theorem rowWait_of_stop (hstop : s.stop = true) : rowWait s = s.toExit := if_pos hstop

/-- Log 13: the row waits for `ready`. -/
theorem rowWait_of_not_ready (hstop : s.stop = false) (hready : s.ready = false) : rowWait s = s := by
  rw [rowWait, if_neg (Bool.eq_false_iff.mp hstop), if_neg (Bool.eq_false_iff.mp hready)]

/-- R167: a device that runs is asked and left alone. -/
theorem rowWait_of_running (hstop : s.stop = false) (hready : s.ready = true) (hdev : s.devRunning = true) :
    rowWait s = { s with devLog := s.devLog ++ [.isRunning], ppos := .pub0 } := by
  rw [rowWait, if_neg (Bool.eq_false_iff.mp hstop), if_pos hready]
  exact if_pos hdev

/-- R167: a suspended device is started again. -/
theorem rowWait_of_suspended (hstop : s.stop = false) (hready : s.ready = true) (hdev : s.devRunning = false) :
    rowWait s = { s.ask .startTx with
      devLog := s.devLog ++ [.isRunning, .startTx], devRunning := s.answer, ppos := .pub0 } := by
  have hlog : s.devLog ++ [.isRunning, .startTx] = (s.tell .isRunning).devLog ++ [.startTx] := by simp
  rw [rowWait, if_neg (Bool.eq_false_iff.mp hstop), if_pos hready, hlog]
  refine (if_neg (Bool.eq_false_iff.mp hdev)).trans ?_
  cases hanswer : s.answer with
  | true => exact congrArg (State.goto .pub0) (if_pos hanswer)
  | false =>
    rw [← hdev]
    exact congrArg (State.goto .pub0) (if_neg (Bool.eq_false_iff.mp hanswer))

/-- R165, R166. -/
theorem rowEndWait_of_stop (hstop : s.stop = true) : rowEndWait s = s.toExit := if_pos hstop

/-- Log 13. -/
theorem rowEndWait_of_not_ready (hstop : s.stop = false) (hready : s.ready = false) : rowEndWait s = s := by
  rw [rowEndWait, if_neg (Bool.eq_false_iff.mp hstop), if_neg (Bool.eq_false_iff.mp hready)]

/-- R165, D40: the device is stopped, whether it was running or not. -/
theorem rowEndWait_of_ready (hstop : s.stop = false) (hready : s.ready = true) :
    rowEndWait s = { s.ask .stopTx with devRunning := s.devRunning && !s.answer, ppos := .top } := by
  rw [rowEndWait, if_neg (Bool.eq_false_iff.mp hstop), if_pos hready]
  dsimp only
  cases s.answer with
  | true => rw [if_pos rfl, Bool.not_true, Bool.and_false]; rfl
  | false => rw [if_neg nofun, Bool.not_false, Bool.and_true]; rfl

/-- R173, first step: the device still drains the ring. -/
theorem rowExit_first_of_running (hfirst : s.exitSecond = false) (hdev : s.devRunning = true) :
    rowExit s = { s with currentChunk := none, prepared := false, exitSecond := true } := by
  rw [rowExit, if_pos hfirst]
  exact if_pos hdev

/-- R173, first step: with the device halted the ring is flushed. -/
theorem rowExit_first_of_halted (hfirst : s.exitSecond = false) (hdev : s.devRunning = false) :
    rowExit s = { s with
      currentChunk := none
      prepared := false
      exitSecond := true
      tail := s.head
      fill := 0
      ready := true } := by
  rw [rowExit, if_pos hfirst]
  exact if_neg (Bool.eq_false_iff.mp hdev)

/-- R173, log 13: the second step waits for an empty ring. -/
theorem rowExit_second_of_nonempty (hsecond : s.exitSecond = true) (hfill : s.fill ≠ 0) : rowExit s = s := by
  rw [rowExit, if_neg (by simp [hsecond]), if_neg hfill]

/-- R173, second step. -/
theorem rowExit_second_of_running (hsecond : s.exitSecond = true) (hfill : s.fill = 0) (hdev : s.devRunning = true) :
    rowExit s = { s.ask .stopTx with
      devRunning := !s.answer
      runState := .idle
      ppos := .off
      exitSecond := false
      hostRet := .bool s.answer } := by
  rw [rowExit, if_neg (by simp [hsecond]), if_pos hfill, if_pos hdev]
  dsimp only
  cases s.answer with
  | true => rfl
  | false =>
    rw [if_neg nofun, Bool.not_false, ← hdev]
    rfl

/-- R173, second step. -/
theorem rowExit_second_of_halted (hsecond : s.exitSecond = true) (hfill : s.fill = 0) (hdev : s.devRunning = false) :
    rowExit s = { s with runState := .idle, ppos := .off, exitSecond := false, hostRet := .bool true } := by
  rw [rowExit, if_neg (by simp [hsecond]), if_pos hfill, if_neg (Bool.eq_false_iff.mp hdev)]
  rfl

end Rows

/-! ### PROCESS (log 13) -/

theorem exec_process (s : State) : exec .process s = Res.outcome (prodRow s) := rfl

/-- R166: the row that PROD stands at, where that is no PREPARE and no PUBLISH. -/
theorem exec_process_of_row {s t : State} (h : prodRow s = .ok t) : exec .process s = .next t :=
  outcome_eq_next.mpr h

section Positions

variable {s : State}

theorem prodRow_off (h : s.ppos = .off) : prodRow s = .ok s := by rw [prodRow, h]

theorem prodRow_boot (h : s.ppos = .boot) : prodRow s = .ok (rowBoot s) := by rw [prodRow, h]

theorem prodRow_top (h : s.ppos = .top) : prodRow s = .ok (rowTop s) := by rw [prodRow, h]

theorem prodRow_first (h : s.ppos = .first) : prodRow s = rowFirst s := by rw [prodRow, h]

theorem prodRow_wait (h : s.ppos = .wait) : prodRow s = .ok (rowWait s) := by rw [prodRow, h]

theorem prodRow_pub0 (h : s.ppos = .pub0) : prodRow s = rowPub 0 s := by rw [prodRow, h]

theorem prodRow_pub1 (h : s.ppos = .pub1) : prodRow s = rowPub 1 s := by rw [prodRow, h]

theorem prodRow_next (h : s.ppos = .next) : prodRow s = rowNext s := by rw [prodRow, h]

theorem prodRow_endWait (h : s.ppos = .endWait) : prodRow s = .ok (rowEndWait s) := by rw [prodRow, h]

theorem prodRow_exit (h : s.ppos = .exit) : prodRow s = .ok (rowExit s) := by rw [prodRow, h]

end Positions

/-! ### The obligations -/

/-- R162, R166, log 12: at First and Next, PROCESS and PREPARE are the same row. -/
theorem exec_prepare_eq_process {s : State} (hpos : s.ppos = .first ∨ s.ppos = .next) :
    exec .prepare s = Res.outcome (prodRow s) := by
  change execPrepare s = _
  rcases hpos with hpos | hpos
  · rw [execPrepare, if_pos hpos, prodRow_first hpos]
  · rw [execPrepare, if_neg (by simp [hpos]), if_pos hpos, prodRow_next hpos]

/-- Settles O55, by the rows. -/
theorem processTakesTheRow : Obligations.ProcessTakesTheRow := by
  refine fun s => ⟨fun hpos => exec_process_of_row (prodRow_off hpos), fun hpos hstop => ?_,
    fun hpos hstop hchunk => ?_, fun hpos hstop hchunk => ?_, fun hpos => (exec_prepare_eq_process hpos).symm,
    fun hpos => ?_, fun hpos => ?_, fun hpos hstop hready => ?_⟩
  · rcases hpos with hpos | hpos | hpos
    · exact exec_process_of_row ((prodRow_top hpos).trans (congrArg _ (rowTop_of_stop hstop)))
    · exact exec_process_of_row ((prodRow_wait hpos).trans (congrArg _ (rowWait_of_stop hstop)))
    · exact exec_process_of_row ((prodRow_endWait hpos).trans (congrArg _ (rowEndWait_of_stop hstop)))
  · exact exec_process_of_row ((prodRow_top hpos).trans (congrArg _ (rowTop_of_chunk hstop hchunk)))
  · rw [exec_adopt_of_top hpos hstop hchunk, ← rowTop_of_no_chunk hstop hchunk]
    exact exec_process_of_row (prodRow_top hpos)
  · rw [exec_process, prodRow_pub0 hpos, exec_publish_of_row hpos]
  · rw [exec_process, prodRow_pub1 hpos, exec_publish_of_row hpos]
  · rcases hpos with hpos | hpos
    · exact exec_process_of_row ((prodRow_wait hpos).trans (congrArg _ (rowWait_of_not_ready hstop hready)))
    · exact exec_process_of_row ((prodRow_endWait hpos).trans (congrArg _ (rowEndWait_of_not_ready hstop hready)))

/-- R196, log 11: the answer is the next of `devAnswers`, which a command uses up. -/
theorem State.answer_of_listed {s : State} {a : Bool} {rest : List Bool} (h : s.devAnswers = a :: rest) (c : DevCmd) :
    s.answer = a ∧ (s.ask c).devAnswers = rest := by simp [State.answer, h]

/-- Settles O56, by the rows Boot, Wait and EndWait. -/
theorem processCommandsTheDevice : Obligations.ProcessCommandsTheDevice := fun _ =>
  ⟨fun hpos hrun hanswer =>
      exec_process_of_row ((prodRow_boot hpos).trans (congrArg _ (rowBoot_of_started hrun hanswer))),
    fun hpos hrun hanswer =>
      exec_process_of_row ((prodRow_boot hpos).trans (congrArg _ (rowBoot_of_failed hrun hanswer))),
    fun hpos hstop hready hdev =>
      exec_process_of_row ((prodRow_wait hpos).trans (congrArg _ (rowWait_of_running hstop hready hdev))),
    fun hpos hstop hready hdev =>
      exec_process_of_row ((prodRow_wait hpos).trans (congrArg _ (rowWait_of_suspended hstop hready hdev))),
    fun hpos hstop hready =>
      exec_process_of_row ((prodRow_endWait hpos).trans (congrArg _ (rowEndWait_of_ready hstop hready))),
    fun c => ⟨State.ask_devLog c _, fun _ _ hlisted => State.answer_of_listed hlisted c⟩⟩

/-- Settles O57, by the two steps of row Exit. -/
theorem processExits : Obligations.ProcessExits := by
  intro s hpos
  have hrow {t : State} (h : rowExit s = t) : exec .process s = .next t :=
    exec_process_of_row ((prodRow_exit hpos).trans (congrArg _ h))
  exact ⟨fun hfirst hdev => hrow (rowExit_first_of_running hfirst hdev),
    fun hfirst hdev => hrow (rowExit_first_of_halted hfirst hdev),
    fun hsecond hfill => hrow (rowExit_second_of_nonempty hsecond hfill),
    fun hsecond hfill hdev => hrow (rowExit_second_of_running hsecond hfill hdev),
    fun hsecond hfill hdev => hrow (rowExit_second_of_halted hsecond hfill hdev)⟩

end Sys2Proof.Machine
end

section
/-! SUPPORT. PREPARE (48_sequencer.md rules R162 to R166): it is INTERP and MODIQ on the registers it has set, whatever
the list of device commands is. -/

namespace Sys2Proof.Machine

open Sys2Proof

/-! ### The device rate (R163) -/

/-- D6: rounding a quotient of natural numbers. -/
theorem roundHalfAway_natCast_div (n : Nat) {d : Nat} (hd : 0 < d) :
    roundHalfAway ((n : Rat) / (d : Rat)) = ((2 * n + d) / (2 * d) : Nat) := by
  have hpos : (0 : Rat) < d := by exact_mod_cast hd
  have hhalf : (n : Rat) / d + 1 / 2 = ((2 * n + d : Nat) : Rat) / ((2 * d : Nat) : Rat) := by
    push_cast
    field_simp
  rw [roundHalfAway, if_pos (by positivity), hhalf]
  exact Rat.floor_natCast_div_natCast _ _

/-- R163, C12, D9: the rate is rounded once, from the exact quotient. -/
theorem deviceRate_eq (pcmRate : Nat) {count : Nat} (hcount : 0 < count) :
    deviceRate pcmRate count = ((2 * pcmRate * bufLen + count) / (2 * count) : Nat) := by
  rw [deviceRate, roundHalfAway_natCast_div _ hcount, Nat.mul_assoc]

/-- R163: the device is told of a change only. -/
theorem setDeviceRate_ok {new : Nat} (h : new ≤ 4294967295) (s : State) :
    setDeviceRate new s = .ok { s with
      deviceSampleRate := BitVec.ofNat 32 new
      devLog := if s.deviceSampleRate = BitVec.ofNat 32 new then s.devLog
        else s.devLog ++ [.setSampleRate (BitVec.ofNat 32 new) 1750000] } := by
  rw [setDeviceRate, if_neg (by omega), BitVec.ofInt_natCast]
  dsimp only
  split
  · next hsame => rw [if_pos hsame.symm, hsame]
  · next hchanged =>
    rw [if_neg (Ne.symm hchanged)]
    rfl

/-! ### INTERP and MODIQ -/

/-- R28, R130: INTERP fills `ibuf`. -/
theorem interpOp_ibuf_length {s t : State} (h : interpOp s = .ok t) : t.ibuf.length = bufLen := by
  obtain ⟨c, -, -, -, ht⟩ := interpOp_spec h
  rw [ht]
  simp only [interpolate_length]

/-- R197: neither operation reads the device commands or adds one. -/
theorem interpOp_devLog {s t : State} (h : interpOp s = .ok t) (log : List DevCmd) :
    interpOp { s with devLog := log } = .ok { t with devLog := log } := by
  obtain ⟨c, hc, hcount, hle, rfl⟩ := interpOp_spec h
  rw [interpOp_ok (s := { s with devLog := log }) hc hcount hle]

theorem modiqOp_devLog {s t : State} (h : modiqOp s = .ok t) (log : List DevCmd) :
    modiqOp { s with devLog := log } = .ok { t with devLog := log } := by
  unfold modiqOp at *
  split at h
  · cases h
  · next hlen =>
    rw [if_neg hlen]
    split at h
    · next ham =>
      cases h
      exact if_pos ham
    · next ham =>
      cases h
      exact if_neg ham

/-! ### PREPARE (R162) -/

theorem res_bind_of_ok {α β : Type} {r : Res α} {a : α} (h : r = .ok a) (f : α → Res β) : (r >>= f) = f a := by
  rw [h]
  rfl

/-- R162, R164: with samples left PREPARE sets its registers, and INTERP and MODIQ follow. -/
theorem prepareOp_of_samples {s t₁ t₂ : State} {c : Chunk} {count rate : Nat} (hc : s.currentChunk = some c)
    (hleft : s.subChunkOffset < c.samples.length)
    (hcount : count = min s.cfg.subChunkSamples (c.samples.length - s.subChunkOffset))
    (hrate : deviceRate c.pcmRate count = rate) (hword : rate ≤ 4294967295)
    (hinterp : interpOp { s with sampleCount := count, deviceSampleRate := BitVec.ofNat 32 rate } = .ok t₁)
    (hmodiq : modiqOp t₁ = .ok t₂) :
    prepareOp s = .ok (true, { t₂ with
      devLog := if s.deviceSampleRate = BitVec.ofNat 32 rate then s.devLog
        else s.devLog ++ [.setSampleRate (BitVec.ofNat 32 rate) 1750000]
      subChunkOffset := t₂.subChunkOffset + count
      prepared := true
      prodRet := .bool true }) := by
  unfold prepareOp
  split
  · next hnone => cases hnone.symm.trans hc
  next c' hc' =>
  obtain rfl : c = c' := Option.some.inj (hc.symm.trans hc')
  rw [if_neg hleft.not_ge, ← hcount]
  dsimp only
  rw [hrate]
  exact (res_bind_of_ok (setDeviceRate_ok hword _) _).trans <|
    (res_bind_of_ok (interpOp_devLog hinterp _) _).trans <| res_bind_of_ok (modiqOp_devLog hmodiq _) _

/-- R165: the chunk is used up. -/
theorem prepareOp_of_used_up {s : State} {c : Chunk} (hc : s.currentChunk = some c)
    (hused : c.samples.length ≤ s.subChunkOffset) : prepareOp s = .ok (false, { s with prodRet := .bool false }) := by
  unfold prepareOp
  split
  · next hnone => cases hnone.symm.trans hc
  next c' hc' =>
  obtain rfl : c = c' := Option.some.inj (hc.symm.trans hc')
  exact if_pos hused

/-- Log 12. -/
theorem prepareOp_of_no_chunk {s : State} (hc : s.currentChunk = none) :
    prepareOp s = .error (.refuse .notEnabled) := by
  simp only [prepareOp, hc]

section Rows

variable {s t : State}

/-- R166: PROD goes to Wait with the sub-chunk. -/
theorem exec_prepare_of_prepared (hpos : s.ppos = .first ∨ s.ppos = .next) (h : prepareOp s = .ok (true, t)) :
    exec .prepare s = .next { t with ppos := .wait } := by
  rw [exec_prepare_eq_process hpos]
  rcases hpos with hpos | hpos
  · rw [prodRow_first hpos, rowFirst, h]
    rfl
  · rw [prodRow_next hpos, rowNext, h]
    rfl

/-- R165, R166: at Next the chunk ends. -/
theorem exec_prepare_of_used_up (hpos : s.ppos = .next) (h : prepareOp s = .ok (false, t)) :
    exec .prepare s = .next { t with
      currentChunk := none
      ppos := if s.cfg.turnOffTxWhenIdle = true ∧ s.txQueue = [] then .endWait else .top } := by
  rw [exec_prepare_eq_process (.inr hpos), prodRow_next hpos, rowNext, h]
  rfl

theorem exec_prepare_of_refused {r : Refusal} (hpos : s.ppos = .first ∨ s.ppos = .next)
    (h : prepareOp s = .error (.refuse r)) : exec .prepare s = .refused r := by
  rw [exec_prepare_eq_process hpos]
  rcases hpos with hpos | hpos
  · rw [prodRow_first hpos, rowFirst, h]
    rfl
  · rw [prodRow_next hpos, rowNext, h]
    rfl

/-- Log 12. -/
theorem exec_prepare_elsewhere (hfirst : s.ppos ≠ .first) (hnext : s.ppos ≠ .next) :
    exec .prepare s = .refused .notEnabled := by
  change execPrepare s = _
  rw [execPrepare, if_neg hfirst, if_neg hnext]

/-- R130, R140: what INTERP and MODIQ do alone at their rows. -/
theorem exec_interp_of_ok (hpos : s.ppos = .first ∨ s.ppos = .next) (h : interpOp s = .ok t) :
    exec .interp s = .next t := by
  rw [exec_interp, execInterp, within_of_mem (by simpa using hpos), h]
  rfl

theorem exec_modiq_of_ok (hpos : s.ppos = .first ∨ s.ppos = .next) (h : modiqOp s = .ok t) :
    exec .modiq s = .next t := by
  rw [exec_modiq, execModiq, within_of_mem (by simpa using hpos), h]
  rfl

/-- R164: the samples of the sub-chunk are there, so INTERP and MODIQ both complete. -/
theorem interp_modiq_complete {c : Chunk} (hc : s.currentChunk = some c) (hcount : 0 < s.sampleCount)
    (hle : s.subChunkOffset + s.sampleCount ≤ c.samples.length) :
    ∃ t₁ t₂, interpOp s = .ok t₁ ∧ modiqOp t₁ = .ok t₂ ∧ t₁.ppos = s.ppos ∧
      t₂.subChunkOffset = s.subChunkOffset := by
  obtain ⟨t₁, hinterp⟩ : ∃ t₁, interpOp s = .ok t₁ := ⟨_, interpOp_ok hc hcount hle⟩
  obtain ⟨t₂, hmodiq⟩ := modiqOp_ok (interpOp_ibuf_length hinterp)
  obtain ⟨-, ht₂, -⟩ := modiqOp_spec hmodiq
  obtain ⟨_, -, -, -, ht₁⟩ := interpOp_spec hinterp
  exact ⟨t₁, t₂, hinterp, hmodiq, by rw [ht₁], by rw [ht₂, ht₁]⟩

end Rows

/-- Settles O54: PREPARE with samples left, with none left, and where it is no step. -/
theorem preparePreparesTheSubChunk : Obligations.PreparePreparesTheSubChunk := by
  refine fun s => ⟨fun c count rate hpos hc hleft hpcm hlow hhigh hcount hrate => ?_, fun c hpos hc hused =>
    exec_prepare_of_used_up hpos (prepareOp_of_used_up hc hused), fun helse => ?_⟩
  · have hpositive : 0 < count := by omega
    have hdevice : deviceRate c.pcmRate count = rate := hrate ▸ deviceRate_eq _ hpositive
    refine ⟨fun hword => ?_, fun hover => ?_⟩
    · obtain ⟨t₁, t₂, hinterp, hmodiq, hrow, hoffset⟩ := interp_modiq_complete
        (s := { s with sampleCount := count, deviceSampleRate := BitVec.ofNat 32 rate }) hc hpositive
        (show s.subChunkOffset + count ≤ c.samples.length by omega)
      refine ⟨t₁, t₂, exec_interp_of_ok hpos hinterp, exec_modiq_of_ok (hrow ▸ hpos) hmodiq, ?_⟩
      rw [exec_prepare_of_prepared hpos (prepareOp_of_samples hc hleft hcount hdevice hword hinterp hmodiq), hoffset]
    · refine exec_prepare_of_refused hpos (prepareOp_of_overflow hc hleft ?_)
      rw [← hcount, hdevice]
      exact_mod_cast hover
  · by_cases hpos : s.ppos = .first ∨ s.ppos = .next
    · have hnone : s.currentChunk = none := helse.resolve_left fun ⟨hfirst, hnext⟩ => hpos.elim hfirst hnext
      exact exec_prepare_of_refused hpos (prepareOp_of_no_chunk hnone)
    · exact exec_prepare_elsewhere (fun h => hpos (.inl h)) (fun h => hpos (.inr h))

end Sys2Proof.Machine
end

section
/-! SUPPORT. Reset (10_state.md rule R33, 70_reset_and_hazards.md rule R200) and the invariant of the block (10_state.md
rules R31, R38, R39; 48_sequencer.md rules R166 to R174): one lemma for each kind of move, which names the clauses of
`State.Inv` that the move touches. -/

namespace Sys2Proof.Machine

open Sys2Proof

/-! ### Reset -/

/-- Settles O7: the fields of `State.launch`. -/
theorem resetState : Obligations.ResetState :=
  ⟨fun _ => ⟨rfl, rfl, rfl, rfl, rfl, rfl, rfl, rfl, rfl, rfl, rfl, rfl, rfl, rfl, rfl, rfl, fun _ => rfl, rfl, rfl,
    rfl, rfl⟩, Cfg.reset, rfl, rfl, rfl, rfl⟩

/-- R27: the phase at reset, after START and after ADOPT. -/
theorem zeroPhase_range : -(1 / 2) < (RealNum.rat 0).real ∧ (RealNum.rat 0).real ≤ 1 / 2 := by norm_num

/-- Settles O8: the ring is empty, there is no chunk, and PROD is Off. -/
theorem resetMeetsInvariant : Obligations.ResetMeetsInvariant := fun _ hlegal =>
  { ringForm := List.Pairwise.nil
    ringRange := nofun
    slotsWritten := nofun
    fillLe := Nat.zero_le _
    headEq := rfl
    readyIff := iff_of_true rfl rfl
    pub0Empty := nofun
    pub1One := nofun
    idleEmpty := fun _ => rfl
    offIff := iff_of_true rfl rfl
    bootIff := iff_of_false nofun nofun
    stopClear := fun _ => rfl
    stopSet := nofun
    exitStopping := nofun
    exitSecond := nofun
    chunkPos := fun h => absurd rfl h
    posChunk := by rintro (h | h | h | h | h) <;> cases h
    chunkOk := nofun
    queueOk := nofun
    firstOffset := nofun
    preparedAt := by rintro (h | h | h) <;> cases h
    preparedHolds := nofun
    ibufLen := .inl rfl
    iqLen := .inl rfl
    iqRange := nofun
    phaseRange := zeroPhase_range
    sampleCountLe := Nat.zero_le _
    emptyQueueTrue := nofun
    cfgLegal := hlegal }

/-- R17, R18: the configuration that Close leaves. -/
theorem Cfg.reset_legal : Cfg.reset.Legal :=
  ⟨by decide, by decide, by decide, by norm_num [Cfg.reset]⟩

section Moves

variable {s t : State}

/-- R199, R202. -/
theorem State.Inv.closed : s.closed.Inv := { resetMeetsInvariant Cfg.reset Cfg.reset_legal with }

/-! ### The ring (R31, R38, R39) -/

/-- R150: one more slot behind `head`. -/
theorem State.Inv.enqueue (hinv : s.Inv) {bs : List Byte} (hbs : bs.length = bufLen) (hroom : s.fill ≤ 1)
    (hpub0 : s.ppos ≠ .pub0) (hpub1 : s.ppos = .pub1 → s.fill = 0)
    (hworker : ¬(s.runState = .idle ∨ s.runState = .starting)) :
    State.Inv { s with
      ring := Memory.write s.ring (slotBase s.head) bs
      head := s.head + 1#8
      fill := s.fill + 1
      ready := false } := by
  have hinRange : ∀ a, a < bufLen → slotBase s.head + a < bufNum * slotCap := fun a ha =>
    slotBase_lt s.head (ha.trans (by decide))
  exact { hinv with
    ringForm := Memory.wf_write hinv.ringForm _ _
    ringRange := fun c hc => by
      rcases Memory.mem_write hc with hold | ⟨hlow, hhigh⟩
      · exact hinv.ringRange c hold
      · have hnew := hinRange (c.1 - slotBase s.head) (by omega)
        omega
    slotsWritten := fun k hk a ha => by
      rcases Nat.lt_succ_iff_lt_or_eq.mp hk with hold | rfl
      · exact Memory.read_write_isSome (hinv.slotsWritten k hold a ha)
      · rw [← hinv.headEq, Memory.read_write_sameSlot _ _ (hbs ▸ ha), List.getElem?_eq_getElem (hbs ▸ ha)]
        rfl
    fillLe := Nat.succ_le_succ hroom
    headEq := by rw [hinv.headEq, BitVec.ofNat_add, BitVec.add_assoc]
    readyIff := iff_of_false nofun nofun
    pub0Empty := fun h => absurd h hpub0
    pub1One := fun h => by rw [hpub1 h]
    idleEmpty := fun h => absurd h hworker }

/-- R152: the slot at `tail` is taken. -/
theorem State.Inv.dequeue (hinv : s.Inv) (hfill : s.fill ≠ 0) :
    State.Inv { s with
      tail := s.tail + 1#8
      fill := s.fill - 1
      ready := if s.fill - 1 = 0 then true else s.ready } := by
  have hnext : ∀ k, s.tail + 1#8 + BitVec.ofNat 8 k = s.tail + BitVec.ofNat 8 (k + 1) := fun k => by
    rw [BitVec.add_assoc, Nat.add_comm, BitVec.ofNat_add]
  exact { hinv with
    slotsWritten := fun k hk a ha => by
      rw [hnext]
      exact hinv.slotsWritten (k + 1) (Nat.add_lt_of_lt_sub hk) a ha
    fillLe := (Nat.sub_le _ _).trans hinv.fillLe
    headEq := by rw [hnext, Nat.sub_add_cancel (Nat.pos_of_ne_zero hfill), hinv.headEq]
    readyIff := by
      by_cases hlast : s.fill - 1 = 0
      · simp [hlast]
      · simp [hlast, hinv.readyIff, hfill]
    pub0Empty := fun h => absurd (hinv.pub0Empty h) hfill
    pub1One := fun h => (Nat.sub_le _ _).trans (hinv.pub1One h)
    idleEmpty := fun h => absurd (hinv.idleEmpty h) hfill }

/-! ### Where PROD stands (R166) -/

/-- R166: the rows between Boot and Exit. -/
def Ppos.inLoop (p : Ppos) : Prop := p ≠ .off ∧ p ≠ .boot ∧ p ≠ .exit

/-- R171, R173: a worker between Boot and Exit. -/
theorem State.Inv.inLoop_runState (hinv : s.Inv) (h : s.ppos.inLoop) :
    ¬(s.runState = .idle ∨ s.runState = .starting) := by
  obtain ⟨hoff, hboot, -⟩ := h
  rintro (hidle | hstarting)
  · exact hoff (hinv.offIff.mpr hidle)
  · exact hboot (hinv.bootIff.mpr hstarting)

theorem State.Inv.exitSecond_false (hinv : s.Inv) (h : s.ppos ≠ .exit) : s.exitSecond = false :=
  Bool.eq_false_iff.mpr fun hsecond => h (hinv.exitSecond hsecond).1

/-- R166: the clauses on the run state, for a move from one row of the loop to another. -/
theorem State.Inv.loop_clauses (hinv : s.Inv) (hold : s.ppos.inLoop) {p : Ppos} (hnew : p.inLoop) :
    (p = .off ↔ s.runState = .idle) ∧ (p = .boot ↔ s.runState = .starting) ∧ (p = .exit → s.runState = .stopping) ∧
      s.exitSecond = false := by
  obtain ⟨hoff, hboot, hexit⟩ := hnew
  have hworker := hinv.inLoop_runState hold
  exact ⟨iff_of_false hoff fun h => hworker (.inl h), iff_of_false hboot fun h => hworker (.inr h),
    fun h => absurd h hexit, hinv.exitSecond_false hold.2.2⟩

/-- R166: a move that leaves the chunk, from one row of the loop to another. -/
theorem State.Inv.goto (hinv : s.Inv) (hold : s.ppos.inLoop) {p : Ppos} (hnew : p.inLoop)
    (hchunk : p.inChunk ↔ s.ppos.inChunk) (hpub0 : p = .pub0 → s.fill = 0) (hpub1 : p = .pub1 → s.fill ≤ 1)
    (hfirst : p ≠ .first) (hprepared : p.holdsSubChunk → s.prepared = true) : State.Inv { s with ppos := p } := by
  obtain ⟨hoff, hboot, hexit, hsecond⟩ := hinv.loop_clauses hold hnew
  exact { hinv with
    pub0Empty := hpub0
    pub1One := hpub1
    offIff := hoff
    bootIff := hboot
    exitStopping := hexit
    exitSecond := fun h => nomatch hsecond.symm.trans h
    chunkPos := fun h => .inl (hchunk.mpr ((hinv.chunkPos h).resolve_right hold.2.2))
    posChunk := fun h => hinv.posChunk (hchunk.mp h)
    firstOffset := fun h => absurd h hfirst
    preparedAt := hprepared }

/-- R166: with `stop` set there is a worker, and the block is Stopping. -/
theorem State.Inv.stopping (hinv : s.Inv) (hpos : s.ppos ≠ .off) (hstop : s.stop = true) : s.runState = .stopping := by
  cases hrun : s.runState with
  | idle => exact absurd (hinv.offIff.mpr hrun) hpos
  | starting => exact nomatch (hinv.stopClear (.inl hrun)).symm.trans hstop
  | running => exact nomatch (hinv.stopClear (.inr hrun)).symm.trans hstop
  | stopping => rfl

/-- R166, R173: the worker enters row Exit. -/
theorem State.Inv.toExit (hinv : s.Inv) (hpos : s.ppos ≠ .off) (hstop : s.stop = true) : s.toExit.Inv :=
  have hrun := hinv.stopping hpos hstop
  { hinv with
    pub0Empty := nofun
    pub1One := nofun
    offIff := iff_of_false nofun (hrun.trans_ne nofun)
    bootIff := iff_of_false nofun (hrun.trans_ne nofun)
    exitStopping := fun _ => hrun
    exitSecond := nofun
    chunkPos := fun _ => .inr rfl
    posChunk := by rintro (h | h | h | h | h) <;> cases h
    firstOffset := nofun
    preparedAt := by rintro (h | h | h) <;> cases h }

/-! ### Start and stop (R170 to R173) -/

theorem State.Inv.chunk_none (hinv : s.Inv) (hchunk : ¬s.ppos.inChunk) (hexit : s.ppos ≠ .exit) :
    s.currentChunk = none := by
  by_contra h
  exact (hinv.chunkPos h).elim hchunk hexit

/-- R170. -/
theorem State.Inv.start (hinv : s.Inv) (hidle : s.runState = .idle) : State.Inv { s with
    ready := true
    stop := false
    fmPhase := .rat 0
    prepared := false
    runState := .starting
    ppos := .boot } :=
  have hoff := hinv.offIff.mpr hidle
  have hempty := hinv.idleEmpty (.inl hidle)
  have hnone : s.currentChunk = none := hinv.chunk_none (by simp [Ppos.inChunk, hoff]) (hoff.trans_ne nofun)
  { hinv with
    readyIff := iff_of_true rfl hempty
    pub0Empty := nofun
    pub1One := nofun
    idleEmpty := fun _ => hempty
    offIff := iff_of_false nofun nofun
    bootIff := iff_of_true rfl rfl
    stopClear := fun _ => rfl
    stopSet := nofun
    exitStopping := nofun
    exitSecond := fun h => nomatch (hinv.exitSecond_false (hoff.trans_ne nofun)).symm.trans h
    chunkPos := fun h => absurd hnone h
    posChunk := by rintro (h | h | h | h | h) <;> cases h
    firstOffset := nofun
    preparedAt := by rintro (h | h | h) <;> cases h
    preparedHolds := nofun
    phaseRange := zeroPhase_range }

/-- R172. -/
theorem State.Inv.beginStop (hinv : s.Inv) (hrun : s.runState = .running) : s.beginStop.Inv :=
  { hinv with
    idleEmpty := by rintro (h | h) <;> cases h
    offIff := iff_of_false (fun h => nomatch hrun.symm.trans (hinv.offIff.mp h)) nofun
    bootIff := iff_of_false (fun h => nomatch hrun.symm.trans (hinv.bootIff.mp h)) nofun
    stopClear := by rintro (h | h) <;> cases h
    stopSet := fun _ => rfl
    exitStopping := fun _ => rfl }

/-- R171: the device has started. -/
theorem State.Inv.boot_started (hinv : s.Inv) (hrun : s.runState = .starting) :
    State.Inv { s with runState := .running, ppos := .top } :=
  have hboot := hinv.bootIff.mpr hrun
  have hnone : s.currentChunk = none := hinv.chunk_none (by simp [Ppos.inChunk, hboot]) (hboot.trans_ne nofun)
  { hinv with
    pub0Empty := nofun
    pub1One := nofun
    idleEmpty := by rintro (h | h) <;> cases h
    offIff := iff_of_false nofun nofun
    bootIff := iff_of_false nofun nofun
    stopClear := fun _ => hinv.stopClear (.inl hrun)
    stopSet := nofun
    exitStopping := nofun
    exitSecond := fun h => nomatch (hinv.exitSecond_false (hboot.trans_ne nofun)).symm.trans h
    chunkPos := fun h => absurd hnone h
    posChunk := by rintro (h | h | h | h | h) <;> cases h
    firstOffset := nofun
    preparedAt := by rintro (h | h | h) <;> cases h }

/-- R171, R173: no worker and an empty ring, after a Boot that failed and after row Exit. -/
theorem State.Inv.workerGone (hinv : s.Inv) (hempty : s.fill = 0) (hnone : s.currentChunk = none)
    (hsecond : s.exitSecond = false) : State.Inv { s with runState := .idle, ppos := .off } :=
  { hinv with
    pub0Empty := nofun
    pub1One := nofun
    idleEmpty := fun _ => hempty
    offIff := iff_of_true rfl rfl
    bootIff := iff_of_false nofun nofun
    stopClear := by rintro (h | h) <;> cases h
    stopSet := nofun
    exitStopping := nofun
    exitSecond := fun h => nomatch hsecond.symm.trans h
    chunkPos := fun h => absurd hnone h
    posChunk := by rintro (h | h | h | h | h) <;> cases h
    firstOffset := nofun
    preparedAt := by rintro (h | h | h) <;> cases h }

/-- R173: the chunk in progress is abandoned. -/
theorem State.Inv.abandon (hinv : s.Inv) (hexit : s.ppos = .exit) :
    State.Inv { s with currentChunk := none, prepared := false, exitSecond := true } :=
  { hinv with
    exitSecond := fun _ => ⟨hexit, rfl, rfl⟩
    chunkPos := fun h => absurd rfl h
    posChunk := by rintro (h | h | h | h | h) <;> cases hexit.symm.trans h
    chunkOk := nofun
    preparedAt := by rintro (h | h | h) <;> cases hexit.symm.trans h
    preparedHolds := nofun
    emptyQueueTrue := fun h => ⟨(hinv.emptyQueueTrue h).1, rfl⟩ }

/-- R173: with the device halted the ring is flushed. -/
theorem State.Inv.flush (hinv : s.Inv) : State.Inv { s with tail := s.head, fill := 0, ready := true } :=
  { hinv with
    slotsWritten := nofun
    fillLe := Nat.zero_le _
    headEq := (BitVec.add_zero _).symm
    readyIff := iff_of_true rfl rfl
    pub0Empty := fun _ => rfl
    pub1One := fun _ => Nat.zero_le _
    idleEmpty := fun _ => rfl }

/-! ### The queue and the chunk (R160, R161, R165) -/

/-- R24, R160. -/
theorem State.Inv.push (hinv : s.Inv) {c : Chunk} (hrate : 0 < c.pcmRate) :
    State.Inv { s with txQueue := s.txQueue ++ [c], emptyQueue := false } :=
  { hinv with
    queueOk := List.forall_mem_append.mpr ⟨hinv.queueOk, List.forall_mem_singleton.mpr hrate⟩
    emptyQueueTrue := nofun }

/-- R161: the queue is empty. -/
theorem State.Inv.noteQueueEmpty (hinv : s.Inv) (hqueue : s.txQueue = []) (hnone : s.currentChunk = none) :
    State.Inv { s with emptyQueue := true } := { hinv with emptyQueueTrue := fun _ => ⟨hqueue, hnone⟩ }

/-- R161, D28: an empty chunk is dropped. -/
theorem State.Inv.drop (hinv : s.Inv) (htop : s.ppos = .top) {c : Chunk} {q : List Chunk}
    (hqueue : s.txQueue = c :: q) :
    State.Inv { s with
      txQueue := q
      emptyQueue := false
      currentChunk := none
      subChunkOffset := 0
      fmPhase := .rat 0
      prepared := false } :=
  { hinv with
    exitSecond := fun h => nomatch (hinv.exitSecond_false (htop.trans_ne nofun)).symm.trans h
    chunkPos := fun h => absurd rfl h
    posChunk := by rintro (h | h | h | h | h) <;> cases htop.symm.trans h
    chunkOk := nofun
    queueOk := fun d hd => hinv.queueOk d (hqueue ▸ List.mem_cons_of_mem c hd)
    firstOffset := fun _ => rfl
    preparedAt := by rintro (h | h | h) <;> cases htop.symm.trans h
    preparedHolds := nofun
    phaseRange := zeroPhase_range
    emptyQueueTrue := nofun }

/-- R161, R166: any other chunk becomes the current one, and PROD goes to First. -/
theorem State.Inv.adopt (hinv : s.Inv) (htop : s.ppos = .top) {c : Chunk} {q : List Chunk}
    (hqueue : s.txQueue = c :: q) (hsamples : c.samples ≠ []) :
    State.Inv { s with
      txQueue := q
      emptyQueue := false
      currentChunk := some c
      subChunkOffset := 0
      fmPhase := .rat 0
      prepared := false
      ppos := .first } := by
  have hdropped := hinv.drop htop hqueue
  obtain ⟨hoff, hboot, hexit, hsecond⟩ :=
    hinv.loop_clauses (p := .first) (by simp [Ppos.inLoop, htop]) (by simp [Ppos.inLoop])
  exact { hdropped with
    pub0Empty := nofun
    pub1One := nofun
    offIff := hoff
    bootIff := hboot
    exitStopping := hexit
    exitSecond := fun h => nomatch hsecond.symm.trans h
    chunkPos := fun _ => .inl (.inl rfl)
    posChunk := fun _ => Option.some_ne_none c
    chunkOk := by
      rintro _ ⟨⟩
      exact ⟨hsamples, Nat.zero_le _, hinv.queueOk c (hqueue ▸ List.mem_cons_self)⟩
    firstOffset := fun _ => rfl
    preparedAt := by rintro (h | h | h) <;> cases h
    emptyQueueTrue := nofun }

/-- R165: the chunk ends. -/
theorem State.Inv.chunkEnds (hinv : s.Inv) (hnext : s.ppos = .next) {p : Ppos} (hp : p = .top ∨ p = .endWait) :
    State.Inv { s with currentChunk := none, ppos := p } := by
  obtain ⟨hoff, hboot, hexit, hsecond⟩ :=
    hinv.loop_clauses (p := p) (by simp [Ppos.inLoop, hnext]) (by rcases hp with rfl | rfl <;> simp [Ppos.inLoop])
  exact { hinv with
    pub0Empty := by rcases hp with rfl | rfl <;> nofun
    pub1One := by rcases hp with rfl | rfl <;> nofun
    offIff := hoff
    bootIff := hboot
    exitStopping := hexit
    exitSecond := fun h => nomatch hsecond.symm.trans h
    chunkPos := fun h => absurd rfl h
    posChunk := by rcases hp with rfl | rfl <;> rintro (h | h | h | h | h) <;> cases h
    chunkOk := nofun
    firstOffset := by rcases hp with rfl | rfl <;> nofun
    preparedAt := by rcases hp with rfl | rfl <;> rintro (h | h | h) <;> cases h
    emptyQueueTrue := fun h => ⟨(hinv.emptyQueueTrue h).1, rfl⟩ }

/-! ### The sub-chunk (R130, R140, R162) -/

theorem State.Inv.interp (hinv : s.Inv) (h : interpOp s = .ok t) : t.Inv := by
  have hlen := interpOp_ibuf_length h
  obtain ⟨c, -, -, -, rfl⟩ := interpOp_spec h
  exact { hinv with ibufLen := .inr hlen }

theorem State.Inv.modiq (hinv : s.Inv) (h : modiqOp s = .ok t) : t.Inv := by
  obtain ⟨-, ht, hiq, hrange, hphase, -, -⟩ := modiqOp_spec h
  rw [ht]
  exact { hinv with
    preparedHolds := fun hprepared => ⟨hiq, (hinv.preparedHolds hprepared).2⟩
    iqLen := .inr hiq
    iqRange := hrange
    phaseRange := hphase.elim (fun hkept => hkept ▸ hinv.phaseRange) id }

/-- R162 to R164: PREPARE has prepared a sub-chunk, and PROD goes to Wait. -/
theorem State.Inv.prepare (hinv : s.Inv) (hpos : s.ppos = .first ∨ s.ppos = .next)
    (h : prepareOp s = .ok (true, t)) : State.Inv { t with ppos := .wait } := by
  obtain ⟨c, hc, ⟨-, hr⟩ | ⟨hleft, t', count, hr, hcount, hpositive, hword, ht, hiq, hrange, hphase, -⟩⟩ :=
    prepareOp_spec h
  · cases hr
  cases hr
  obtain ⟨hlow, hhigh⟩ := hinv.cfgLegal.subChunkSamples
  obtain ⟨hsamples, -, hpcm⟩ := hinv.chunkOk c hc
  have hcountLe : count ≤ bufLen := hcount ▸ (Nat.min_le_left _ _).trans hhigh
  obtain ⟨hoff, hboot, hexit, hsecond⟩ := hinv.loop_clauses (p := .wait)
    (by rcases hpos with hpos | hpos <;> simp [Ppos.inLoop, hpos]) (by simp [Ppos.inLoop])
  rw [ht]
  exact { hinv with
    pub0Empty := nofun
    pub1One := nofun
    offIff := hoff
    bootIff := hboot
    exitStopping := hexit
    exitSecond := fun h => nomatch hsecond.symm.trans h
    chunkPos := fun _ => .inl (.inr (.inl rfl))
    posChunk := fun _ => hc.trans_ne (Option.some_ne_none c)
    chunkOk := fun d hd => by
      obtain rfl : c = d := Option.some.inj (hc.symm.trans hd)
      exact ⟨hsamples, show s.subChunkOffset + count ≤ c.samples.length by omega, hpcm⟩
    firstOffset := nofun
    preparedAt := fun _ => rfl
    preparedHolds := fun _ => ⟨hiq, ofInt_ne_zero (one_le_deviceRate hpcm hpositive hcountLe) hword⟩
    ibufLen := .inr (by simp only [interpolate_length])
    iqLen := .inr hiq
    iqRange := hrange
    phaseRange := hphase.elim (fun hkept => hkept ▸ hinv.phaseRange) id
    sampleCountLe := hcountLe }

/-- R150, R168: a publication appends its slot, and PROD goes on. -/
theorem State.Inv.publish (hinv : s.Inv) {h : Fin 2} (hpos : s.ppos = pubRow h) (hpub : publishOp h s = .ok t) :
    State.Inv { t with ppos := pubNext h } := by
  obtain ⟨-, hiq, rfl⟩ := publishOp_spec hpub
  have hhalf : ((iqHalf h s.iq).map (quantByte s.cfg.num)).length = bufLen := by
    rw [List.length_map, iqHalf_length hiq]
  obtain rfl | rfl : h = 0 ∨ h = 1 := by omega
  · change s.ppos = .pub0 at hpos
    have hempty := hinv.pub0Empty hpos
    have hmoved : State.Inv { s with ppos := .pub1 } :=
      hinv.goto (by simp [Ppos.inLoop, hpos]) (by simp [Ppos.inLoop]) (by simp [Ppos.inChunk, hpos]) nofun
        (fun _ => hempty.le.trans (Nat.zero_le _)) nofun fun _ => hinv.preparedAt (.inr (.inl hpos))
    exact { hmoved.enqueue hhalf (hempty.le.trans (Nat.zero_le _)) nofun (fun _ => hempty)
      (hinv.inLoop_runState (by simp [Ppos.inLoop, hpos])) with }
  · change s.ppos = .pub1 at hpos
    have hmoved : State.Inv { s with ppos := .next } :=
      hinv.goto (by simp [Ppos.inLoop, hpos]) (by simp [Ppos.inLoop]) (by simp [Ppos.inChunk, hpos]) nofun nofun nofun
        (by rintro (h | h | h) <;> cases h)
    exact { hmoved.enqueue hhalf (hinv.pub1One hpos) nofun nofun
      (hinv.inLoop_runState (by simp [Ppos.inLoop, hpos])) with
      exitSecond := fun h => ⟨(hmoved.exitSecond h).1, (hmoved.exitSecond h).2.1, rfl⟩
      preparedAt := by rintro (h | h | h) <;> cases h
      preparedHolds := nofun }

/-- R152 to R154. -/
theorem State.Inv.drain (hinv : s.Inv) {len : Word} (h : drainOp len s = .ok t) : t.Inv := by
  obtain ⟨-, ⟨-, rfl⟩ | ⟨hfill, bs, -, rfl⟩⟩ := drainOp_spec h
  · exact { hinv with }
  · exact { hinv.dequeue hfill with }

end Moves

end Sys2Proof.Machine
end

section
/-! SUPPORT. What one step can do, said once for the proofs about every operation: the cases of each row of the producer
(48_sequencer.md rule R166), and from them the configuration, the run state and the invariant after a step. -/

namespace Sys2Proof.Machine

open Sys2Proof

/-! ### The cases of each row (R166) -/

section Cases

variable {s t : State} {P : State → Prop}

/-- Row Boot. -/
theorem rowBoot_cases (hspin : s.runState ≠ .starting → P s)
    (hstarted : s.runState = .starting → s.answer = true →
      P { s.ask .startTx with devRunning := true, runState := .running, ppos := .top, hostRet := .bool true })
    (hfailed : s.runState = .starting → s.answer = false →
      P { s.ask .startTx with runState := .idle, ppos := .off, hostRet := .bool false }) : P (rowBoot s) := by
  by_cases hrun : s.runState = .starting
  · cases hanswer : s.answer with
    | true => exact rowBoot_of_started hrun hanswer ▸ hstarted hrun hanswer
    | false => exact rowBoot_of_failed hrun hanswer ▸ hfailed hrun hanswer
  · rw [rowBoot_of_not_starting hrun]
    exact hspin hrun

/-- Row Top once it adopts. -/
theorem rowAdopt_cases (hnone : s.currentChunk = none)
    (hempty : s.txQueue = [] → P { s with emptyQueue := true, prodRet := .bool false })
    (hdrop : ∀ c q, s.txQueue = c :: q → P { s with
      txQueue := q
      emptyQueue := false
      currentChunk := none
      subChunkOffset := 0
      fmPhase := .rat 0
      prepared := false
      prodRet := .bool true })
    (hadopt : ∀ c q x, s.txQueue = c :: q → c.samples ≠ [] → P { s with
      txQueue := q
      emptyQueue := false
      currentChunk := some c
      subChunkOffset := 0
      fmPhase := .rat 0
      prepared := false
      last := ⟨x, x, x, x⟩
      prodRet := .bool true
      ppos := .first }) : P (rowAdopt s) := by
  cases hqueue : s.txQueue with
  | nil => exact rowAdopt_of_nil hnone hqueue ▸ hempty hqueue
  | cons c q =>
    cases hsamples : c.samples with
    | nil => exact rowAdopt_of_empty_chunk hqueue hsamples ▸ hdrop c q hqueue
    | cons x xs =>
      exact rowAdopt_of_chunk hqueue hsamples ▸ hadopt c q x hqueue (hsamples.trans_ne (List.cons_ne_nil x xs))

/-- Row Top. -/
theorem rowTop_cases (hexit : s.stop = true → P s.toExit) (hwait : s.currentChunk ≠ none → P { s with ppos := .wait })
    (hadopt : s.currentChunk = none → P (rowAdopt s)) : P (rowTop s) := by
  cases hstop : s.stop with
  | true => exact rowTop_of_stop hstop ▸ hexit hstop
  | false =>
    by_cases hchunk : s.currentChunk = none
    · exact rowTop_of_no_chunk hstop hchunk ▸ hadopt hchunk
    · exact rowTop_of_chunk hstop hchunk ▸ hwait hchunk

/-- Row Wait: what it does to the device's commands and answers is left open. -/
theorem rowWait_cases (hexit : s.stop = true → P s.toExit) (hspin : P s)
    (hpub : s.ready = true → ∀ dev log answers draws, P { s with
      devRunning := dev, devLog := log, devAnswers := answers, draws := draws, ppos := .pub0 }) : P (rowWait s) := by
  cases hstop : s.stop with
  | true => exact rowWait_of_stop hstop ▸ hexit hstop
  | false =>
    cases hready : s.ready with
    | false =>
      rw [rowWait_of_not_ready hstop hready]
      exact hspin
    | true =>
      cases hdev : s.devRunning with
      | true => exact rowWait_of_running hstop hready hdev ▸ hpub hready _ _ _ _
      | false => exact rowWait_of_suspended hstop hready hdev ▸ hpub hready _ _ _ _

/-- Row EndWait. -/
theorem rowEndWait_cases (hexit : s.stop = true → P s.toExit) (hspin : P s)
    (htop : ∀ dev log answers draws, P { s with
      devRunning := dev, devLog := log, devAnswers := answers, draws := draws, ppos := .top }) : P (rowEndWait s) := by
  cases hstop : s.stop with
  | true => exact rowEndWait_of_stop hstop ▸ hexit hstop
  | false =>
    cases hready : s.ready with
    | false =>
      rw [rowEndWait_of_not_ready hstop hready]
      exact hspin
    | true => exact rowEndWait_of_ready hstop hready ▸ htop _ _ _ _

/-- Row Exit. -/
theorem rowExit_cases
    (habandon : P { s with currentChunk := none, prepared := false, exitSecond := true })
    (hflush : P { s with
      currentChunk := none
      prepared := false
      exitSecond := true
      tail := s.head
      fill := 0
      ready := true })
    (hspin : P s)
    (hend : s.exitSecond = true → s.fill = 0 → ∀ dev log answers draws ret, P { s with
      devRunning := dev
      devLog := log
      devAnswers := answers
      draws := draws
      runState := .idle
      ppos := .off
      exitSecond := false
      hostRet := ret }) : P (rowExit s) := by
  cases hsecond : s.exitSecond with
  | false =>
    cases hdev : s.devRunning with
    | true => exact rowExit_first_of_running hsecond hdev ▸ habandon
    | false => exact rowExit_first_of_halted hsecond hdev ▸ hflush
  | true =>
    by_cases hfill : s.fill = 0
    · cases hdev : s.devRunning with
      | true => exact rowExit_second_of_running hsecond hfill hdev ▸ hend hsecond hfill _ _ _ _ _
      | false => exact rowExit_second_of_halted hsecond hfill hdev ▸ hend hsecond hfill _ _ _ _ _
    · rw [rowExit_second_of_nonempty hsecond hfill]
      exact hspin

/-- Row First. -/
theorem rowFirst_spec (h : rowFirst s = .ok t) : ∃ r, prepareOp s = .ok r ∧ t = { r.2 with ppos := .wait } := by
  obtain ⟨r, hprepare, ⟨⟩⟩ := res_bind_eq_ok h
  exact ⟨r, hprepare, rfl⟩

/-- Row Next. -/
theorem rowNext_spec (h : rowNext s = .ok t) : ∃ b u, prepareOp s = .ok (b, u) ∧
    (b = true ∧ t = { u with ppos := .wait } ∨
      b = false ∧ ∃ p, (p = .top ∨ p = .endWait) ∧ t = { u with currentChunk := none, ppos := p }) := by
  obtain ⟨⟨b, u⟩, hprepare, hgo⟩ := res_bind_eq_ok h
  refine ⟨b, u, hprepare, ?_⟩
  cases b with
  | true =>
    cases hgo
    exact .inl ⟨rfl, rfl⟩
  | false =>
    cases hgo
    refine .inr ⟨rfl, _, ?_, rfl⟩
    split
    · exact .inr rfl
    · exact .inl rfl

/-- Rows Pub0 and Pub1. -/
theorem rowPub_spec {h : Fin 2} (hrow : rowPub h s = .ok t) :
    ∃ u, publishOp h s = .ok u ∧ t = { u with ppos := pubNext h } := by
  obtain ⟨u, hpub, ⟨⟩⟩ := res_bind_eq_ok hrow
  exact ⟨u, hpub, rfl⟩

end Cases

/-! ### The configuration and the run state (R174, R206) -/

/-- The configuration and the run state of `s` are still there. -/
def State.KeepsControl (s t : State) : Prop := t.cfg = s.cfg ∧ t.runState = s.runState

section Control

variable {s t : State}

theorem interpOp_keepsControl (h : interpOp s = .ok t) : s.KeepsControl t := by
  obtain ⟨c, -, -, -, rfl⟩ := interpOp_spec h
  exact ⟨rfl, rfl⟩

theorem modiqOp_keepsControl (h : modiqOp s = .ok t) : s.KeepsControl t := by
  obtain ⟨-, ht, -⟩ := modiqOp_spec h
  rw [ht]
  exact ⟨rfl, rfl⟩

theorem prepareOp_keepsControl {b : Bool} (h : prepareOp s = .ok (b, t)) : s.KeepsControl t := by
  obtain ⟨c, -, ⟨-, ⟨⟩⟩ | ⟨-, t', count, ⟨⟩, -, -, -, ht, -⟩⟩ := prepareOp_spec h
  · exact ⟨rfl, rfl⟩
  · rw [ht]
    exact ⟨rfl, rfl⟩

theorem rowFirst_keepsControl (h : rowFirst s = .ok t) : s.KeepsControl t := by
  obtain ⟨⟨b, u⟩, hprepare, rfl⟩ := rowFirst_spec h
  obtain ⟨hcfg, hrun⟩ := prepareOp_keepsControl hprepare
  exact ⟨hcfg, hrun⟩

theorem rowNext_keepsControl (h : rowNext s = .ok t) : s.KeepsControl t := by
  obtain ⟨b, u, hprepare, hgo⟩ := rowNext_spec h
  obtain ⟨hcfg, hrun⟩ := prepareOp_keepsControl hprepare
  obtain ⟨-, rfl⟩ | ⟨-, p, -, rfl⟩ := hgo
  · exact ⟨hcfg, hrun⟩
  · exact ⟨hcfg, hrun⟩

theorem rowPub_keepsControl {h : Fin 2} (hrow : rowPub h s = .ok t) : s.KeepsControl t := by
  obtain ⟨u, hpub, rfl⟩ := rowPub_spec hrow
  obtain ⟨-, -, rfl⟩ := publishOp_spec hpub
  exact ⟨rfl, rfl⟩

theorem drainOp_keepsControl {len : Word} (h : drainOp len s = .ok t) : s.KeepsControl t := by
  obtain ⟨-, ⟨-, rfl⟩ | ⟨-, bs, -, rfl⟩⟩ := drainOp_spec h
  · exact ⟨rfl, rfl⟩
  · exact ⟨rfl, rfl⟩

theorem rowAdopt_keepsControl (hnone : s.currentChunk = none) : s.KeepsControl (rowAdopt s) :=
  rowAdopt_cases hnone (fun _ => ⟨rfl, rfl⟩) (fun _ _ _ => ⟨rfl, rfl⟩) (fun _ _ _ _ _ => ⟨rfl, rfl⟩)

/-- R174: of the rows only Boot and Exit write the run state. -/
theorem prodRow_keepsControl (h : prodRow s = .ok t) (hboot : s.ppos ≠ .boot) (hexit : s.ppos ≠ .exit) :
    s.KeepsControl t := by
  cases hpos : s.ppos with
  | off => cases (prodRow_off hpos).symm.trans h; exact ⟨rfl, rfl⟩
  | boot => exact absurd hpos hboot
  | top =>
    cases (prodRow_top hpos).symm.trans h
    exact rowTop_cases (fun _ => ⟨rfl, rfl⟩) (fun _ => ⟨rfl, rfl⟩) rowAdopt_keepsControl
  | first => exact rowFirst_keepsControl ((prodRow_first hpos).symm.trans h)
  | wait =>
    cases (prodRow_wait hpos).symm.trans h
    exact rowWait_cases (fun _ => ⟨rfl, rfl⟩) ⟨rfl, rfl⟩ (fun _ _ _ _ _ => ⟨rfl, rfl⟩)
  | pub0 => exact rowPub_keepsControl ((prodRow_pub0 hpos).symm.trans h)
  | pub1 => exact rowPub_keepsControl ((prodRow_pub1 hpos).symm.trans h)
  | next => exact rowNext_keepsControl ((prodRow_next hpos).symm.trans h)
  | endWait =>
    cases (prodRow_endWait hpos).symm.trans h
    exact rowEndWait_cases (fun _ => ⟨rfl, rfl⟩) ⟨rfl, rfl⟩ (fun _ _ _ _ => ⟨rfl, rfl⟩)
  | exit => exact absurd hpos hexit

/-- R171: row Boot. -/
theorem rowBoot_control (s : State) : (rowBoot s).cfg = s.cfg ∧ ((rowBoot s).runState = s.runState ∨
    s.runState = .starting ∧ s.answer = true ∧ (rowBoot s).runState = .running ∨
    s.runState = .starting ∧ s.answer = false ∧ (rowBoot s).runState = .idle) :=
  rowBoot_cases
    (P := fun t => t.cfg = s.cfg ∧ (t.runState = s.runState ∨
      s.runState = .starting ∧ s.answer = true ∧ t.runState = .running ∨
      s.runState = .starting ∧ s.answer = false ∧ t.runState = .idle))
    (fun _ => ⟨rfl, .inl rfl⟩) (fun hrun hanswer => ⟨rfl, .inr (.inl ⟨hrun, hanswer, rfl⟩)⟩)
    (fun hrun hanswer => ⟨rfl, .inr (.inr ⟨hrun, hanswer, rfl⟩)⟩)

/-- R173: row Exit. -/
theorem rowExit_control (s : State) :
    (rowExit s).cfg = s.cfg ∧ ((rowExit s).runState = s.runState ∨ (rowExit s).runState = .idle) :=
  rowExit_cases (P := fun t => t.cfg = s.cfg ∧ (t.runState = s.runState ∨ t.runState = .idle))
    ⟨rfl, .inl rfl⟩ ⟨rfl, .inl rfl⟩ ⟨rfl, .inl rfl⟩ (fun _ _ _ _ _ _ _ => ⟨rfl, .inr rfl⟩)

/-- R206: no row writes the configuration. -/
theorem prodRow_cfg (h : prodRow s = .ok t) : t.cfg = s.cfg := by
  by_cases hboot : s.ppos = .boot
  · cases (prodRow_boot hboot).symm.trans h
    exact (rowBoot_control s).1
  by_cases hexit : s.ppos = .exit
  · cases (prodRow_exit hexit).symm.trans h
    exact (rowExit_control s).1
  exact (prodRow_keepsControl h hboot hexit).1

theorem exec_adopt_eq_next (h : exec .adopt s = .next t) :
    s.ppos = .top ∧ s.currentChunk = none ∧ t = rowAdopt s := by
  change execAdopt s = _ at h
  rw [execAdopt] at h
  split at h
  · next hrow =>
    obtain ⟨htop, -, hnone⟩ := hrow
    cases h
    exact ⟨htop, hnone, rfl⟩
  · cases h

/-- R166, log 12: PREPARE is the row that PROD stands at. -/
theorem exec_prepare_eq_next (h : exec .prepare s = .next t) :
    (s.ppos = .first ∨ s.ppos = .next) ∧ prodRow s = .ok t := by
  by_cases hpos : s.ppos = .first ∨ s.ppos = .next
  · exact ⟨hpos, outcome_eq_next.mp ((exec_prepare_eq_process hpos).symm.trans h)⟩
  · rw [exec_prepare_elsewhere (fun hfirst => hpos (.inl hfirst)) (fun hnext => hpos (.inr hnext))] at h
    cases h

/-- R166, log 12: so is PUBLISH. -/
theorem exec_publish_eq_next {half : Fin 2} (h : exec (.publish half) s = .next t) :
    s.ppos = pubRow half ∧ rowPub half s = .ok t := by
  by_cases hpos : s.ppos = pubRow half
  · exact ⟨hpos, outcome_eq_next.mp ((exec_publish_of_row hpos).symm.trans h)⟩
  · rw [exec_publish_elsewhere hpos] at h
    cases h

theorem exec_quant_eq_next {v : RealVal} (h : exec (.quant v) s = .next t) :
    t = { s with prodRet := .sample (quantByte s.cfg.num v) } := by
  obtain ⟨-, ⟨⟩⟩ := within_spec (exec_quant v s ▸ h)
  rfl

/-- R170. -/
theorem exec_start_eq_next (h : exec .start s = .next t) :
    s.runState = .idle ∧ t = { s with
      ready := true
      stop := false
      fmPhase := .rat 0
      prepared := false
      runState := .starting
      ppos := .boot
      hostRet := .pending } ∨ t = { s with hostRet := .bool false } := by
  by_cases hidle : s.runState = .idle
  · cases (exec_start_of_idle hidle).symm.trans h
    exact .inl ⟨hidle, rfl⟩
  · cases (exec_start_of_not_idle hidle).symm.trans h
    exact .inr rfl

/-- R172. -/
theorem exec_stop_eq_next (h : exec .stop s = .next t) :
    s.runState = .running ∧ t = s.beginStop ∨ t = { s with hostRet := .bool true } := by
  by_cases hrun : s.runState = .running
  · cases (exec_stop_of_running hrun).symm.trans h
    exact .inl ⟨hrun, rfl⟩
  · cases (exec_stop_of_not_running hrun).symm.trans h
    exact .inr rfl

/-- R175. -/
theorem exec_setcfg_eq_next {w : CfgWrite} (h : exec (.setcfg w) s = .next t) :
    t = { s with hostRet := t.hostRet } ∨
      (cfgGated w.reg = false ∨ s.runState ≠ .running) ∧ cfgLegal w = true ∧
        t = { s with cfg := s.cfg.set w, devLog := t.devLog, hostRet := t.hostRet } := by
  by_cases hopen : cfgGated w.reg = false ∨ s.runState ≠ .running
  · cases hlegal : cfgLegal w with
    | false => cases (exec_setcfg_of_illegal hopen hlegal).symm.trans h
    | true =>
      cases (exec_setcfg_of_legal hopen hlegal).symm.trans h
      refine .inr ⟨hopen, rfl, ?_⟩
      cases cfgCommand w <;> rfl
  · obtain ⟨hgated, hrun⟩ := not_or.mp hopen
    cases (exec_setcfg_of_running (Bool.eq_true_of_not_eq_false hgated) (not_not.mp hrun)).symm.trans h
    exact .inl rfl

/-- R174, R206: the operations that write neither the configuration nor the run state, in any state. -/
theorem exec_keepsControl {i : Instr} (hstart : i ≠ .start) (hstop : i ≠ .stop) (hprocess : i ≠ .process)
    (hsetcfg : ∀ w, i ≠ .setcfg w) (h : exec i s = .next t) : s.KeepsControl t := by
  cases henc : isEncoderOp i with
  | true =>
    rw [encoderTouchesOnlyItsRegisters i s t henc h]
    exact ⟨rfl, rfl⟩
  | false =>
    cases i with
    | interp => exact interpOp_keepsControl (within_spec h).2
    | modiq => exact modiqOp_keepsControl (within_spec h).2
    | quant v =>
      rw [exec_quant_eq_next h]
      exact ⟨rfl, rfl⟩
    | publish half => exact rowPub_keepsControl (exec_publish_eq_next h).2
    | drain len => exact drainOp_keepsControl (outcome_eq_next.mp h)
    | adopt =>
      obtain ⟨-, hnone, rfl⟩ := exec_adopt_eq_next h
      exact rowAdopt_keepsControl hnone
    | prepare =>
      obtain ⟨hpos, hrow⟩ := exec_prepare_eq_next h
      exact prodRow_keepsControl hrow (by rcases hpos with hpos | hpos <;> simp [hpos])
        (by rcases hpos with hpos | hpos <;> simp [hpos])
    | push _ | isidle | waitend _ | waitidle _ =>
      cases h
      exact ⟨rfl, rfl⟩
    | start => exact absurd rfl hstart
    | stop => exact absurd rfl hstop
    | process => exact absurd rfl hprocess
    | setcfg w => exact absurd rfl (hsetcfg w)
    | _ => cases henc

end Control

/-- R17, R206: a register that `RunState` does not gate is one of the encoder's two. -/
theorem Cfg.set_of_not_gated {w : CfgWrite} (h : cfgGated w.reg = false) (c : Cfg) :
    c.set w = { c with fskSampleRate := (c.set w).fskSampleRate, maxBatches := (c.set w).maxBatches } := by
  cases w with
  | fskSampleRate v => rfl
  | maxBatches v => rfl
  | _ => cases h

/-- Settles O12: SETCFG by `exec_setcfg_eq_next`, every other operation by its frame. -/
theorem configurationFrozenWhileRunning : Obligations.ConfigurationFrozenWhileRunning := by
  intro i s t h
  suffices hcfg : t.cfg = s.cfg ∨ ∃ w, i = .setcfg w ∧ (s.runState = .running → cfgGated w.reg = false) ∧
      t.cfg = s.cfg.set w by
    obtain hkept | ⟨w, rfl, hgated, hset⟩ := hcfg
    · exact ⟨fun _ => hkept, fun _ => by rw [hkept]⟩
    · exact ⟨fun hne => absurd rfl (hne w), fun hrun => hset ▸ Cfg.set_of_not_gated (hgated hrun) s.cfg⟩
  by_cases hsetcfg : ∃ w, i = .setcfg w
  · obtain ⟨w, rfl⟩ := hsetcfg
    obtain ht | ⟨hopen, -, ht⟩ := exec_setcfg_eq_next h
    · exact .inl (by rw [ht])
    · exact .inr ⟨w, rfl, fun hrun => hopen.resolve_right (not_not.mpr hrun), by rw [ht]⟩
  left
  by_cases hstart : i = .start
  · subst hstart
    obtain ⟨-, rfl⟩ | rfl := exec_start_eq_next h <;> rfl
  by_cases hstop : i = .stop
  · subst hstop
    obtain ⟨-, rfl⟩ | rfl := exec_stop_eq_next h <;> rfl
  by_cases hprocess : i = .process
  · subst hprocess
    exact prodRow_cfg (outcome_eq_next.mp h)
  exact (exec_keepsControl hstart hstop hprocess (not_exists.mp hsetcfg) h).1

/-- Settles O11: START, STOP and the rows Boot and Exit; every other operation and row keeps the run state. -/
theorem runStateTransitions : Obligations.RunStateTransitions := by
  intro i s t hinv h hne
  by_cases hstart : i = .start
  · subst hstart
    obtain ⟨hidle, rfl⟩ | rfl := exec_start_eq_next h
    · exact .inl ⟨hidle, rfl, rfl⟩
    · exact absurd rfl hne
  by_cases hstop : i = .stop
  · subst hstop
    obtain ⟨hrun, rfl⟩ | rfl := exec_stop_eq_next h
    · exact .inr (.inr (.inr (.inl ⟨hrun, rfl, rfl⟩)))
    · exact absurd rfl hne
  by_cases hprocess : i = .process
  · subst hprocess
    have hrow : prodRow s = .ok t := outcome_eq_next.mp h
    by_cases hboot : s.ppos = .boot
    · cases (prodRow_boot hboot).symm.trans hrow
      obtain ⟨-, hkept | ⟨hrun, hanswer, hnow⟩ | ⟨hrun, hanswer, hnow⟩⟩ := rowBoot_control s
      · exact absurd hkept hne
      · exact .inr (.inl ⟨hrun, hnow, rfl, hboot, hanswer⟩)
      · exact .inr (.inr (.inl ⟨hrun, hnow, rfl, hboot, hanswer⟩))
    by_cases hexit : s.ppos = .exit
    · cases (prodRow_exit hexit).symm.trans hrow
      obtain ⟨-, hkept | hnow⟩ := rowExit_control s
      · exact absurd hkept hne
      · exact .inr (.inr (.inr (.inr ⟨hinv.exitStopping hexit, hnow, rfl, hexit⟩)))
    exact absurd (prodRow_keepsControl hrow hboot hexit).2 hne
  by_cases hsetcfg : ∃ w, i = .setcfg w
  · obtain ⟨w, rfl⟩ := hsetcfg
    obtain ht | ⟨-, -, ht⟩ := exec_setcfg_eq_next h <;> exact absurd (by rw [ht]) hne
  exact absurd (exec_keepsControl hstart hstop hprocess (not_exists.mp hsetcfg) h).2 hne

/-! ### The invariant -/

section Invariant

variable {s t : State}

theorem State.Inv.rowAdopt (hinv : s.Inv) (htop : s.ppos = .top) (hnone : s.currentChunk = none) :
    (rowAdopt s).Inv :=
  rowAdopt_cases hnone (fun hqueue => { hinv.noteQueueEmpty hqueue hnone with })
    (fun _ _ hqueue => { hinv.drop htop hqueue with })
    (fun _ _ _ hqueue hsamples => { hinv.adopt htop hqueue hsamples with })

theorem State.Inv.rowTop (hinv : s.Inv) (htop : s.ppos = .top) : (rowTop s).Inv :=
  rowTop_cases (hinv.toExit (htop.trans_ne nofun))
    (fun hchunk => absurd (hinv.chunk_none (by simp [Ppos.inChunk, htop]) (htop.trans_ne nofun)) hchunk)
    (hinv.rowAdopt htop)

theorem State.Inv.rowBoot (hinv : s.Inv) (hboot : s.ppos = .boot) : (rowBoot s).Inv :=
  have hnone := hinv.chunk_none (by simp [Ppos.inChunk, hboot]) (hboot.trans_ne nofun)
  have hsecond := hinv.exitSecond_false (hboot.trans_ne nofun)
  rowBoot_cases (fun _ => hinv) (fun hrun _ => { hinv.boot_started hrun with })
    (fun hrun _ => { hinv.workerGone (hinv.idleEmpty (.inr hrun)) hnone hsecond with })

theorem State.Inv.rowWait (hinv : s.Inv) (hwait : s.ppos = .wait) : (rowWait s).Inv :=
  rowWait_cases (hinv.toExit (hwait.trans_ne nofun)) hinv fun hready _ _ _ _ =>
    { hinv.goto (p := .pub0) (by simp [Ppos.inLoop, hwait]) (by simp [Ppos.inLoop]) (by simp [Ppos.inChunk, hwait])
        (fun _ => hinv.readyIff.mp hready) nofun nofun (fun _ => hinv.preparedAt (.inl hwait)) with }

theorem State.Inv.rowEndWait (hinv : s.Inv) (hend : s.ppos = .endWait) : (rowEndWait s).Inv :=
  rowEndWait_cases (hinv.toExit (hend.trans_ne nofun)) hinv fun _ _ _ _ =>
    { hinv.goto (p := .top) (by simp [Ppos.inLoop, hend]) (by simp [Ppos.inLoop]) (by simp [Ppos.inChunk, hend])
        nofun nofun nofun (by simp [Ppos.holdsSubChunk]) with }

theorem State.Inv.rowExit (hinv : s.Inv) (hexit : s.ppos = .exit) : (rowExit s).Inv :=
  rowExit_cases (hinv.abandon hexit) { (hinv.abandon hexit).flush with } hinv fun hsecond hempty _ _ _ _ _ =>
    have hcleared : State.Inv { s with exitSecond := false } := { hinv with exitSecond := nofun }
    { hcleared.workerGone hempty (hinv.exitSecond hsecond).2.1 rfl with }

theorem State.Inv.rowFirst (hinv : s.Inv) (hfirst : s.ppos = .first) (h : rowFirst s = .ok t) : t.Inv := by
  obtain ⟨⟨b, u⟩, hprepare, rfl⟩ := rowFirst_spec h
  cases b with
  | true => exact hinv.prepare (.inl hfirst) hprepare
  | false =>
    obtain ⟨c, hc, ⟨hused, -⟩ | ⟨-, t', count, hr, -⟩⟩ := prepareOp_spec hprepare
    · obtain ⟨hsamples, -, -⟩ := hinv.chunkOk c hc
      rw [hinv.firstOffset hfirst, Nat.le_zero] at hused
      exact absurd (List.length_eq_zero_iff.mp hused) hsamples
    · cases hr

theorem State.Inv.rowNext (hinv : s.Inv) (hnext : s.ppos = .next) (h : rowNext s = .ok t) : t.Inv := by
  obtain ⟨b, u, hprepare, ⟨rfl, rfl⟩ | ⟨rfl, p, hp, rfl⟩⟩ := rowNext_spec h
  · exact hinv.prepare (.inr hnext) hprepare
  · obtain ⟨c, -, ⟨-, ⟨⟩⟩ | ⟨-, t', count, hr, -⟩⟩ := prepareOp_spec hprepare
    · exact { hinv.chunkEnds hnext hp with }
    · cases hr

theorem State.Inv.rowPub (hinv : s.Inv) {h : Fin 2} (hpos : s.ppos = pubRow h) (hrow : rowPub h s = .ok t) :
    t.Inv := by
  obtain ⟨u, hpub, rfl⟩ := rowPub_spec hrow
  exact hinv.publish hpos hpub

/-- R166: every row keeps the invariant. -/
theorem State.Inv.prodRow (hinv : s.Inv) (h : prodRow s = .ok t) : t.Inv := by
  cases hpos : s.ppos with
  | off => cases (prodRow_off hpos).symm.trans h; exact hinv
  | boot => cases (prodRow_boot hpos).symm.trans h; exact hinv.rowBoot hpos
  | top => cases (prodRow_top hpos).symm.trans h; exact hinv.rowTop hpos
  | first => exact hinv.rowFirst hpos ((prodRow_first hpos).symm.trans h)
  | wait => cases (prodRow_wait hpos).symm.trans h; exact hinv.rowWait hpos
  | pub0 => exact hinv.rowPub (h := 0) hpos ((prodRow_pub0 hpos).symm.trans h)
  | pub1 => exact hinv.rowPub (h := 1) hpos ((prodRow_pub1 hpos).symm.trans h)
  | next => exact hinv.rowNext hpos ((prodRow_next hpos).symm.trans h)
  | endWait => cases (prodRow_endWait hpos).symm.trans h; exact hinv.rowEndWait hpos
  | exit => cases (prodRow_exit hpos).symm.trans h; exact hinv.rowExit hpos

/-- R17, R18, R175: a legal write keeps every register legal. -/
theorem Cfg.Legal.set {c : Cfg} (hc : c.Legal) {w : CfgWrite} (hlegal : cfgLegal w = true) : (c.set w).Legal := by
  cases w with
  | subChunkSamples v =>
    obtain ⟨hlow, hhigh⟩ := of_decide_eq_true hlegal
    exact { hc with subChunkSamples := ⟨by simp only [Cfg.set]; omega, Int.toNat_le.mpr hhigh⟩ }
  | fmDeviationKHz v => exact { hc with fmDeviationKHz := (cfgLegal_fmDeviationKHz v).mp hlegal }
  | fskSampleRate v =>
    have hlow := of_decide_eq_true hlegal
    exact { hc with fskSampleRate := by simp only [Cfg.set]; omega }
  | maxBatches v =>
    have hlow := of_decide_eq_true hlegal
    exact { hc with maxBatches := by simp only [Cfg.set]; omega }
  | localGain _ | am _ | turnOffTxWhenIdle _ | frequency _ | gain _ | amp _ => exact { hc with }

/-- R7: `NUM` is no register. -/
theorem Cfg.set_num (w : CfgWrite) (c : Cfg) : (c.set w).num = c.num := by cases w <;> rfl

theorem State.Inv.setcfg (hinv : s.Inv) {w : CfgWrite} (hlegal : Machine.cfgLegal w = true) :
    State.Inv { s with cfg := s.cfg.set w } :=
  { hinv with
    iqRange := fun hnum => hinv.iqRange ((Cfg.set_num w s.cfg).symm.trans hnum)
    cfgLegal := hinv.cfgLegal.set hlegal }

/-- Every well-formed operation keeps the invariant; the one range that counts is that of PUSH (R24). -/
theorem State.Inv.exec (hinv : s.Inv) {i : Instr} (hwf : i.wellFormed = true) (h : exec i s = .next t) : t.Inv := by
  cases henc : isEncoderOp i with
  | true =>
    rw [encoderTouchesOnlyItsRegisters i s t henc h]
    exact { hinv with }
  | false =>
    cases i with
    | interp => exact hinv.interp (within_spec h).2
    | modiq => exact hinv.modiq (within_spec h).2
    | quant v =>
      rw [exec_quant_eq_next h]
      exact { hinv with }
    | publish half =>
      obtain ⟨hpos, hrow⟩ := exec_publish_eq_next h
      exact hinv.rowPub hpos hrow
    | drain len => exact hinv.drain (outcome_eq_next.mp h)
    | push c =>
      cases h
      exact { hinv.push (of_decide_eq_true (Bool.and_eq_true_iff.mp hwf).1) with }
    | adopt =>
      obtain ⟨htop, hnone, rfl⟩ := exec_adopt_eq_next h
      exact hinv.rowAdopt htop hnone
    | prepare => exact hinv.prodRow (exec_prepare_eq_next h).2
    | process => exact hinv.prodRow (outcome_eq_next.mp h)
    | start =>
      obtain ⟨hidle, rfl⟩ | rfl := exec_start_eq_next h
      · exact { hinv.start hidle with }
      · exact { hinv with }
    | stop =>
      obtain ⟨hrun, rfl⟩ | rfl := exec_stop_eq_next h
      · exact hinv.beginStop hrun
      · exact { hinv with }
    | setcfg w =>
      obtain ht | ⟨-, hlegal, ht⟩ := exec_setcfg_eq_next h
      · rw [ht]
        exact { hinv with }
      · rw [ht]
        exact { hinv.setcfg hlegal with }
    | isidle | waitend _ | waitidle _ =>
      cases h
      exact { hinv with }
    | _ => cases henc

theorem looksAtPort_of_powerStep_eq_none (h : s.powerStep = none) : s.looksAtPort := by
  by_cases hclosing : s.power = .closing
  · cases hrun : s.runState <;> simp [State.powerStep, State.looksAtPort, hclosing, hrun] at h ⊢
  · exact .inl hclosing

/-- Log 1, log 31: a step is one of power-off, a wait, power-off taken from the port, or an operation that decodes. -/
theorem step_eq_next (h : step s = .next t) :
    s.powerStep = some t ∨ t = s ∨ (∃ rest, t = { s with port := rest, power := .closing }) ∨
      ∃ tr rest i, decode tr = .ok i ∧ exec i { s with port := rest } = .next t := by
  cases hpower : s.powerStep with
  | some u =>
    simp only [step, hpower] at h
    cases h
    exact .inl rfl
  | none =>
    right
    have hlook := looksAtPort_of_powerStep_eq_none hpower
    cases hport : s.port with
    | nil =>
      cases (step_of_empty_port hlook hport).symm.trans h
      exact .inl rfl
    | cons head rest =>
      right
      cases head with
      | powerOff =>
        rw [step_of_powerOff hlook hport] at h
        split at h
        · cases h
        · cases h
          exact .inl ⟨rest, rfl⟩
      | issue tr =>
        cases hdecode : decode tr with
        | error e => cases (step_of_undecodable hlook hport hdecode).symm.trans h
        | ok i =>
          rw [step_of_issue hlook hport hdecode] at h
          split at h
          · cases h
          · exact .inr ⟨tr, rest, i, hdecode, h⟩

end Invariant

/-- Settles O9: power-off by the moves Close and STOP, an operation by `State.Inv.exec`, since the decoder answers
well-formed operations only. -/
theorem stepKeepsInvariant : Obligations.StepKeepsInvariant := by
  intro s t hinv h
  obtain hpower | rfl | ⟨rest, rfl⟩ | ⟨tr, rest, i, hdecode, hexec⟩ := step_eq_next h
  · obtain ⟨-, ⟨-, rfl⟩ | ⟨hrun, rfl⟩⟩ := powerStep_spec hpower
    · exact State.Inv.closed
    · exact hinv.beginStop hrun
  · exact hinv
  · exact { hinv with }
  · have hport : State.Inv { s with port := rest } := { hinv with }
    exact hport.exec (decodedIsWellFormed tr i hdecode) hexec

end Sys2Proof.Machine
end
